-- ==== Sys2Proof/Word.lean ====
section
/-! DEFINITION. The words, bytes and threefold copies the block is made of (spec 00_scope.md R6, R10, R14). -/

namespace Sys2Proof

/-- A 32-bit value: a table entry, an accumulator, a channel result, a seed, a checksum (R6 `ENTRY_BITS`). -/
abbrev Word := BitVec 32

/-- One byte of the input buffer, or the index of a table entry (R10, R60). -/
abbrev Byte := BitVec 8

/-- The channel index `c`, 0 to 2 (R6 `TMR_CHANNELS`, R14). The code 3 of a micro-operation's `CH` field is no channel. -/
inductive Channel where
  | c0 | c1 | c2
  deriving DecidableEq, Repr, Inhabited

/-- The three channels in ascending order. -/
def Channel.all : List Channel := [.c0, .c1, .c2]

/-- `X[0]`, `X[1]`, `X[2]`: each channel's own copy of `X` (R14, R35). -/
structure Tri (α : Type) where
  c0 : α
  c1 : α
  c2 : α
  deriving DecidableEq, Repr, Inhabited

/-- `X[c]`. -/
def Tri.get {α : Type} (t : Tri α) : Channel → α
  | .c0 => t.c0
  | .c1 => t.c1
  | .c2 => t.c2

/-- `X[c] <- v`; the other two copies are untouched (R35). -/
def Tri.set {α : Type} (t : Tri α) (c : Channel) (v : α) : Tri α :=
  match c with
  | .c0 => { t with c0 := v }
  | .c1 => { t with c1 := v }
  | .c2 => { t with c2 := v }

/-- The same value in all three copies. -/
def Tri.all {α : Type} (v : α) : Tri α := ⟨v, v, v⟩

/-- One copy of the CRC table: 256 entries of 32 bits (R21). -/
abbrev Table := Vector Word 256

end Sys2Proof
end

