-- ==== Sys2Proof/Config.lean ====
section
/-! DEFINITION. The constants of the block (spec 00_scope.md R6, 10_state.md R20), the parameters the spec leaves open
(R7) and the free values: values the spec calls unspecified. A parameter and a free value is an uninterpreted constant:
nothing can be proved of its value. -/

namespace Sys2Proof

/-- The architecture family of the build target, the field `CFG.ARCH` (R7, R28). -/
inductive Arch where
  | none
  | x86Sse42
  | armCrc
  deriving DecidableEq, Repr, Inhabited

/-- The pair of parameters `ARCH` and `HW_CAP`. They are one type so that the illegal pair cannot be built: "`HW_CAP = 1`
requires `ARCH != NONE`" (R28). -/
inductive Target where
  | none
  | x86Sse42 (hwCap : Bool)
  | armCrc (hwCap : Bool)
  deriving DecidableEq, Repr, Inhabited

/-- Parameter `ARCH` (R7). -/
def Target.arch : Target → Arch
  | .none => .none
  | .x86Sse42 _ => .x86Sse42
  | .armCrc _ => .armCrc

/-- Parameter `HW_CAP`: the CPU exposes the accelerated CRC instruction (R7). -/
def Target.hwCap : Target → Bool
  | .none => false
  | .x86Sse42 cap => cap
  | .armCrc cap => cap

/-- Why the block stopped: the cause codes of the three fatal conditions, and `none` (60_exceptions.md R240). -/
inductive Cause where
  | none
  | tableMismatch
  | inputTooLarge
  | noMajority
  deriving DecidableEq, Repr, Inhabited

namespace Config

/-- `POLY`, the bit-reflected CRC32C polynomial (R6, R20). -/
def poly : Word := 0x82F63B78#32

/-- `MAX_INPUT_SIZE` in bytes, inclusive (R6). -/
def maxInputSize : Nat := 1048576

/-- `WORD_BYTES`: the bytes one `HWSTEP64` consumes (R6). -/
def wordBytes : Nat := 8

/-- `BIT_ITERATIONS` per table entry (R6). -/
def bitIterations : Nat := 8

/-- Parameters `ARCH` and `HW_CAP`, left open (R7; log entry 1). -/
opaque target : Target

/-- Parameter `HW_EN`, left open (R7; log entry 1). -/
opaque hwEn : Bool

/-- Parameter `WCPB_HW`, left open (R7, R29; log entry 2). -/
opaque wcpbHw : Word

/-- Parameter `WCPB_SW`, left open (R7, R29; log entry 2). -/
opaque wcpbSw : Word

/-- FREE VALUE. `RSP.VALUE` of the `n`-th response when it is `DONE` or `FATAL`: "unspecified otherwise" (30_encoding.md
R95; log entry 3). -/
opaque unspecifiedValue : Nat → Word

/-- FREE VALUES. What `CKSUM`, `ACC`, `RES`, `POS` hold after the fatal entry that gave the `n`-th response: they "must be
taken as holding no value" (60_exceptions.md R246, 93 U13; log entry 4). -/
opaque lostCksum : Nat → Word

/-- See `lostCksum`. -/
opaque lostAcc : Nat → Tri Word

/-- See `lostCksum`. -/
opaque lostRes : Nat → Tri Word

/-- See `lostCksum`. -/
opaque lostPos : Nat → Tri Nat

/-- What the tables hold after `FATAL(TABLE_MISMATCH)` (R246; log entry 4). -/
opaque lostTables : Nat → Tri Table

end Config

end Sys2Proof
end

