-- ==== Sys2Proof/Syntax.lean ====
section
/-! DEFINITION. The instructions: the eight host commands and the seven micro-operations of the opcode table (spec
30_encoding.md R93, R98). -/

namespace Sys2Proof

/-- One constructor per row of the opcode table. Operand fields the spec calls ignored (all of format H0, `C` of format
HB, `CH` of the two pure table operations; R92, R98) are no operands. -/
inductive Instr where
  /-- `INIT` (R122): build and check the three tables. -/
  | init
  /-- `CRC32C` (R141): checksum through the Dispatcher. -/
  | crc32c (seed len : Word) (data : List Byte)
  /-- `CRC32C.SW` (R163): checksum by the Software Engine. -/
  | crc32cSw (seed len : Word) (data : List Byte)
  /-- `CRC32C.HW` (R183): checksum by the Hardware Engine. -/
  | crc32cHw (seed len : Word) (data : List Byte)
  /-- `VOTE` (R211): the decision rule on three supplied values. -/
  | vote (r0 r1 r2 : Word)
  /-- `DETECT` (R140): the capability probe. -/
  | detect
  /-- `RDWC.HW` (R230). -/
  | rdwcHw
  /-- `RDWC.SW` (R231). -/
  | rdwcSw
  /-- `TBLBIT` (R120): one bit iteration, on the generator's value. -/
  | tblbit
  /-- `TBLENT` (R121): one table entry, of the byte `GI`. -/
  | tblent
  /-- `CHINIT` (R160): start channel `c`. -/
  | chinit (c : Channel)
  /-- `SWSTEP` (R161): consume one byte through the table. -/
  | swstep (c : Channel)
  /-- `HWSTEP8` (R180): the 8-bit form of the accelerated primitive. -/
  | hwstep8 (c : Channel)
  /-- `HWSTEP64` (R181): the 64-bit form of the accelerated primitive. -/
  | hwstep64 (c : Channel)
  /-- `CHFIN` (R162): finish channel `c`. -/
  | chfin (c : Channel)
  deriving DecidableEq, Repr

/-- What the host puts on the ports `CW` and `DATA` to present one command (R91, R92). -/
structure Presentation where
  cw : BitVec 104
  data : List Byte
  deriving DecidableEq, Repr

end Sys2Proof
end

