-- ==== Sys2Proof/WellFormed.lean ====
section
/-! DEFINITION. Which terms of `Instr` are instructions (spec 30_encoding.md R94, R96), and which of them exist in a
configuration (43_hardware_engine.md R184). -/

namespace Sys2Proof

/-- `DATA` fits `LEN`: exactly `LEN` bytes when `LEN <= MAX_INPUT_SIZE`. Above the bound what `DATA` carries is
immaterial (R94); the term then carries none, so that one command is one term. -/
def dataFits (len : Word) (data : List Byte) : Bool :=
  if len.toNat ≤ Config.maxInputSize then data.length == len.toNat else data.isEmpty

/-- The instruction is well formed (R94, R96). Channel 3 cannot be written as a term (R98). -/
def Instr.wf : Instr → Bool
  | .init => true
  | .crc32c _ len data => dataFits len data
  | .crc32cSw _ len data => dataFits len data
  | .crc32cHw _ len data => dataFits len data
  | .vote _ _ _ => true
  | .detect => true
  | .rdwcHw => true
  | .rdwcSw => true
  | .tblbit => true
  | .tblent => true
  | .chinit _ => true
  | .swstep _ => true
  | .hwstep8 _ => true
  | .hwstep64 _ => true
  | .chfin _ => true

/-- The instruction exists in the configuration (R184): when `ARCH = NONE` the Hardware Engine does not exist, so
`CRC32C.HW` is no command and `HWSTEP8` and `HWSTEP64` are no micro-operations of it. -/
def Instr.existsIn (t : Target) : Instr → Bool
  | .init => true
  | .crc32c _ _ _ => true
  | .crc32cSw _ _ _ => true
  | .crc32cHw _ _ _ => t.arch != .none
  | .vote _ _ _ => true
  | .detect => true
  | .rdwcHw => true
  | .rdwcSw => true
  | .tblbit => true
  | .tblent => true
  | .chinit _ => true
  | .swstep _ => true
  | .hwstep8 _ => t.arch != .none
  | .hwstep64 _ => t.arch != .none
  | .chfin _ => true

/-- The static check of R184 on a configuration and a command sequence: a sequence that holds an instruction of the
absent engine is ill-formed for that configuration. -/
def sequenceExistsIn (t : Target) (seq : List Instr) : Bool := seq.all (fun i => i.existsIn t)

end Sys2Proof
end

