-- ==== Sys2Proof/Decode.lean ====
section
/-! DEFINITION. The decoder of command words and micro-operation words, total, rejecting by name, and the encoder
(spec 30_encoding.md R92, R93, R94, R96, R98). Both read the same two code tables. -/

namespace Sys2Proof

/-- The operation a command word names (R93). -/
inductive HostOp where
  | init | crc32c | crc32cSw | crc32cHw | vote | detect | rdwcHw | rdwcSw
  deriving DecidableEq, Repr

/-- The host opcode map, `CW[7:0]` (R93). -/
def HostOp.code : HostOp → BitVec 8
  | .init => 0x01#8
  | .crc32c => 0x02#8
  | .crc32cSw => 0x03#8
  | .crc32cHw => 0x04#8
  | .vote => 0x05#8
  | .detect => 0x06#8
  | .rdwcHw => 0x07#8
  | .rdwcSw => 0x08#8

/-- The rows of R93. -/
def HostOp.rows : List HostOp := [.init, .crc32c, .crc32cSw, .crc32cHw, .vote, .detect, .rdwcHw, .rdwcSw]

/-- The row of R93 with this code; none for `0x00` and `0x09` to `0xFF` (R96). -/
def HostOp.ofCode (op : BitVec 8) : Option HostOp := HostOp.rows.find? (fun h => h.code == op)

/-- The operation a micro-operation word names (R98). -/
inductive MicroOp where
  | tblbit | tblent | chinit | swstep | hwstep8 | hwstep64 | chfin
  deriving DecidableEq, Repr

/-- The micro-operation map, `UW[3:0]` (R98). -/
def MicroOp.code : MicroOp → BitVec 4
  | .tblbit => 0x1#4
  | .tblent => 0x2#4
  | .chinit => 0x3#4
  | .swstep => 0x4#4
  | .hwstep8 => 0x5#4
  | .hwstep64 => 0x6#4
  | .chfin => 0x7#4

/-- The rows of R98. -/
def MicroOp.rows : List MicroOp := [.tblbit, .tblent, .chinit, .swstep, .hwstep8, .hwstep64, .chfin]

/-- The row of R98 with this code; none for `0x0` and `0x8` to `0xF`. -/
def MicroOp.ofCode (uop : BitVec 4) : Option MicroOp := MicroOp.rows.find? (fun u => u.code == uop)

/-- `UW[5:4]`: 0, 1 or 2 (R98). -/
def Channel.code : Channel → BitVec 2
  | .c0 => 0#2
  | .c1 => 1#2
  | .c2 => 2#2

/-- The channel with this code; none for the reserved code 3. -/
def Channel.ofCode (ch : BitVec 2) : Option Channel := Channel.all.find? (fun c => c.code == ch)

/-- Why a word spells no instruction (R96, R98). -/
inductive DecodeError where
  /-- `OP = 0x00` or `0x09` to `0xFF` (R96). -/
  | reservedOpcode (op : BitVec 8)
  /-- `DATA` does not have exactly `LEN` bytes, `LEN <= MAX_INPUT_SIZE` (R96). -/
  | malformedData (len : Word) (bytes : Nat)
  /-- `UOP = 0x0` or `0x8` to `0xF` (R98). -/
  | reservedMicroOp (uop : BitVec 4)
  /-- `CH = 3` of an operation on a channel (R98). -/
  | reservedChannel
  deriving DecidableEq, Repr

/-- `CW[7:0]` (R92). -/
def cwOp (cw : BitVec 104) : BitVec 8 := cw.extractLsb' 0 8

/-- `CW[39:8]` (R92): `SEED` of format HB, `R0` of format HV (R94). -/
def cwA (cw : BitVec 104) : Word := cw.extractLsb' 8 32

/-- `CW[71:40]` (R92): `LEN` of format HB, `R1` of format HV (R94). -/
def cwB (cw : BitVec 104) : Word := cw.extractLsb' 40 32

/-- `CW[103:72]` (R92): `R2` of format HV (R94). -/
def cwC (cw : BitVec 104) : Word := cw.extractLsb' 72 32

/-- `UW[3:0]` (R98). -/
def uwOp (uw : BitVec 6) : BitVec 4 := uw.extractLsb' 0 4

/-- `UW[5:4]` (R98). -/
def uwCh (uw : BitVec 6) : BitVec 2 := uw.extractLsb' 4 2

/-- The operands of a format-HB command, or why there is no command (R94, R96). Above the length bound `DATA` is
immaterial and is dropped. -/
def decodeBuffer (mk : Word → Word → List Byte → Instr) (p : Presentation) : Except DecodeError Instr :=
  let len := cwB p.cw
  if len.toNat ≤ Config.maxInputSize then
    if p.data.length = len.toNat then .ok (mk (cwA p.cw) len p.data)
    else .error (.malformedData len p.data.length)
  else .ok (mk (cwA p.cw) len [])

/-- The host command the two ports carry (R92 to R96). `DATA` is absent for formats H0 and HV and is not looked at. -/
def decodeCommand (p : Presentation) : Except DecodeError Instr :=
  match HostOp.ofCode (cwOp p.cw) with
  | none => .error (.reservedOpcode (cwOp p.cw))
  | some .init => .ok .init
  | some .crc32c => decodeBuffer .crc32c p
  | some .crc32cSw => decodeBuffer .crc32cSw p
  | some .crc32cHw => decodeBuffer .crc32cHw p
  | some .vote => .ok (.vote (cwA p.cw) (cwB p.cw) (cwC p.cw))
  | some .detect => .ok .detect
  | some .rdwcHw => .ok .rdwcHw
  | some .rdwcSw => .ok .rdwcSw

/-- The channel operand of a micro-operation (R98). -/
def decodeChannel (mk : Channel → Instr) (uw : BitVec 6) : Except DecodeError Instr :=
  match Channel.ofCode (uwCh uw) with
  | none => .error .reservedChannel
  | some c => .ok (mk c)

/-- The micro-operation a 6-bit word carries (R98). -/
def decodeMicro (uw : BitVec 6) : Except DecodeError Instr :=
  match MicroOp.ofCode (uwOp uw) with
  | none => .error (.reservedMicroOp (uwOp uw))
  | some .tblbit => .ok .tblbit
  | some .tblent => .ok .tblent
  | some .chinit => decodeChannel .chinit uw
  | some .swstep => decodeChannel .swstep uw
  | some .hwstep8 => decodeChannel .hwstep8 uw
  | some .hwstep64 => decodeChannel .hwstep64 uw
  | some .chfin => decodeChannel .chfin uw

/-- The two kinds of instruction word: a command on the host's ports, a micro-operation word inside the block. -/
inductive Encoded where
  | command (p : Presentation)
  | micro (uw : BitVec 6)
  deriving DecidableEq, Repr

/-- The decoder on either kind of word. -/
def decode : Encoded → Except DecodeError Instr
  | .command p => decodeCommand p
  | .micro uw => decodeMicro uw

/-- `CW = (C, B, A, OP)` with `C` most significant (R92), and `DATA`. -/
def encodeCommand (h : HostOp) (a b c : Word) (data : List Byte) : Encoded :=
  .command { cw := c ++ b ++ a ++ h.code, data := data }

/-- `UW = (CH, UOP)` with `CH` most significant (R98). -/
def encodeMicro (u : MicroOp) (ch : BitVec 2) : Encoded := .micro (ch ++ u.code)

/-- The words of an instruction, ignored fields zero (R92, R93, R98). -/
def encode : Instr → Encoded
  | .init => encodeCommand .init 0#32 0#32 0#32 []
  | .crc32c seed len data => encodeCommand .crc32c seed len 0#32 data
  | .crc32cSw seed len data => encodeCommand .crc32cSw seed len 0#32 data
  | .crc32cHw seed len data => encodeCommand .crc32cHw seed len 0#32 data
  | .vote r0 r1 r2 => encodeCommand .vote r0 r1 r2 []
  | .detect => encodeCommand .detect 0#32 0#32 0#32 []
  | .rdwcHw => encodeCommand .rdwcHw 0#32 0#32 0#32 []
  | .rdwcSw => encodeCommand .rdwcSw 0#32 0#32 0#32 []
  | .tblbit => encodeMicro .tblbit 0#2
  | .tblent => encodeMicro .tblent 0#2
  | .chinit c => encodeMicro .chinit c.code
  | .swstep c => encodeMicro .swstep c.code
  | .hwstep8 c => encodeMicro .hwstep8 c.code
  | .hwstep64 c => encodeMicro .hwstep64 c.code
  | .chfin c => encodeMicro .chfin c.code

/-- The presentation whose command word is `w` and whose `DATA` bytes, which stand above the word's 104 bits, are all
zero: `LEN` of them where the command has a buffer within the bound, none otherwise. -/
def zeroDataPresentation (w : Nat) : Presentation :=
  let cw := BitVec.ofNat 104 w
  let hasData := match HostOp.ofCode (cwOp cw) with
    | some .crc32c => true
    | some .crc32cSw => true
    | some .crc32cHw => true
    | _ => false
  let len := (cwB cw).toNat
  { cw := cw, data := if hasData && len ≤ Config.maxInputSize then List.replicate len 0#8 else [] }

/-- A table row's word, numbered as the opcode table numbers it: 104 bits are a command word, 8 bits (the 6 of `UW` in
whole bytes, the upper two zero) a micro-operation word. -/
def tableWord (nbits w : Nat) : Option Encoded :=
  if nbits = 104 then
    if w < 2 ^ 104 then some (.command (zeroDataPresentation w)) else none
  else if nbits = 8 ∨ nbits = 6 then
    if w < 2 ^ 6 then some (.micro (BitVec.ofNat 6 w)) else none
  else none

/-- The instruction the decoder reads from a table row's word. -/
def decodeTableWord (nbits w : Nat) : Option Instr :=
  match tableWord nbits w with
  | none => none
  | some e => (decode e).toOption

end Sys2Proof
end

