-- ==== Sys2Proof/Machine/State.lean ====
section
/-! DEFINITION. Everything the spec gives the block to hold (10_state.md R21 to R30), the ports and the inputs that
reach it (30_encoding.md R91), and its value after reset (R34). -/

namespace Sys2Proof.Machine

/-- `TOP`, the phase of the whole block (R26). -/
inductive Top where
  | idle | gen | run | voting | halted
  deriving DecidableEq, Repr

/-- `ENG`, the engine selected for the call in progress (R26). -/
inductive Engine where
  | sw | hw
  deriving DecidableEq, Repr

/-- `CHP[c]`, the phase of one channel within the call (R26). -/
inductive ChPhase where
  | chIdle | chRun | chDone
  deriving DecidableEq, Repr

/-- Which of the two loops of `INIT` the generator is in, or past both (40_table_generator.md R122). The model's own
field: the spec names the loop indexes `GC`, `GI` and not the loop (log entry 6). -/
inductive GenPhase where
  | build | check | finish
  deriving DecidableEq, Repr

/-- `STATUS` (R27), field by field. Bit 7 is reserved and reads 0; `Status.word` is the port. -/
structure Status where
  initDone : Bool
  valid : Bool
  halt : Bool
  cause : Cause
  busy : Bool
  deriving DecidableEq, Repr

/-- `CFG` (R28), field by field. `Cfg.word` is the port. -/
structure Cfg where
  target : Target
  hwEn : Bool
  deriving DecidableEq, Repr

/-- `RSP` (30_encoding.md R95): `RK` with what it carries. `Response.word` is the 40-bit port. -/
inductive Response where
  | done
  | value (v : Word)
  | fatal (cause : Cause)
  deriving DecidableEq, Repr

/-- One draw of the environment's masks: `E_RES[c]` for a checksum command, `E_TBL[c][i]` for an `INIT` (R30). -/
structure Draw where
  eRes : Tri Word
  eTbl : Tri Table
  deriving DecidableEq, Repr

/-- A command on the host's ports with the masks the environment draws for it (R30: one `E_RES[c]` per channel per checksum
command, one `E_TBL[c][i]` per table entry per `INIT`; log entry 16). -/
structure Arrival where
  cmd : Presentation
  draw : Draw
  deriving DecidableEq, Repr

/-- What reaches the block from outside its own sequencing, one per step (R91; log entry 8). -/
inductive Event where
  /-- Nothing reaches the block at this step: it takes its own next step. -/
  | proceed
  /-- `RESET` is asserted (70_reset_and_hazards.md R280). -/
  | reset
  /-- The environment changes its mask ports `E_RES` and `E_TBL` between two commands or inside one (R30). -/
  | masks (eRes : Tri Word) (eTbl : Tri Table)
  /-- The host presents a command now, whatever `STATUS.BUSY` (R91, R102). -/
  | command (a : Arrival)
  /-- The channel schedule has the sequencer issue this micro-operation word next (00_scope.md R7, R98). -/
  | uop (uw : BitVec 6)
  deriving DecidableEq, Repr

/-- The block and what stands at its ports. -/
structure State where
  /-- `TBL[c][i]` (R21). -/
  tbl : Tri Table
  /-- `ACC[c]` (R22). -/
  acc : Tri Word
  /-- `RES[c]` (R23). -/
  res : Tri Word
  /-- `CKSUM` (R24). -/
  cksum : Word
  /-- `SEED` (R25). -/
  seed : Word
  /-- `LEN`, a natural number (R25). -/
  len : Nat
  /-- `BUF` (R25). -/
  buf : List Byte
  /-- `TOP` (R26). -/
  top : Top
  /-- `ENG` (R26). -/
  eng : Engine
  /-- `CHP[c]` (R26). -/
  chp : Tri ChPhase
  /-- `POS[c]` (R26). -/
  pos : Tri Nat
  /-- `GC` (R26). -/
  gc : Channel
  /-- `GI` (R26). -/
  gi : Byte
  /-- The generator's loop (the model's own, log entry 6). -/
  gph : GenPhase
  /-- The operand and result of the two pure micro-operations (the model's own, log entry 7). -/
  gx : Word
  /-- `STATUS` (R27). -/
  status : Status
  /-- `CFG` (R28). -/
  cfg : Cfg
  /-- `WCPB_HW` (R29). -/
  wcpbHw : Word
  /-- `WCPB_SW` (R29). -/
  wcpbSw : Word
  /-- The response last given on `RSP`, if any since reset (30_encoding.md R91, R95). -/
  rsp : Option Response
  /-- How many responses have been given: what the free values are applied to (the model's own, log entries 3, 4). -/
  rspCount : Nat
  /-- `E_RES[c]`, the environment's port: the draw for the command in progress (R30). -/
  eRes : Tri Word
  /-- `E_TBL[c][i]`, the environment's port: the draw for the `INIT` in progress (R30). -/
  eTbl : Tri Table
  /-- What happens at the next steps, oldest first (the model's own, log entry 8). -/
  events : List Event
  /-- The commands the host will present, each once the block is idle, oldest first (the model's own, log entry 8). -/
  hostQueue : List Arrival
  deriving DecidableEq, Repr

/-- The block stops. -/
inductive Fault where
  /-- The block is halted by a fatal condition and nothing but `RESET` leaves that state (60_exceptions.md R247). Raised
  by `step` when `TOP = HALTED` and no event is due. Safe: the hardware runs nothing either. -/
  | halted (cause : Cause)
  /-- A table entry is read while `STATUS.INIT_DONE = 0`, when the tables hold no value (10_state.md R33, 93 U12). Raised
  by `SWSTEP`. Safe: no reachable state does it. -/
  | tableHoldsNoValue
  /-- `BufRead(k)` outside the buffer, where it is undefined (20_memory.md R72). Raised by `SWSTEP`, `HWSTEP8`,
  `HWSTEP64`. Safe: no reachable state does it. -/
  | outsideBuffer
  /-- No row of 41_dispatcher.md R149 is enabled while channels run. Raised by `step`. Safe: no reachable state is so. -/
  | noRowEnabled
  deriving DecidableEq, Repr

/-- The spec has no step for the input: it is refused, no state changes and no response is defined (30_encoding.md R96,
R102). -/
inductive Refusal where
  /-- An instruction without a meaning in this model. Raised by `exec`'s arms only. Safe. -/
  | notModelled (mnemonic : String)
  /-- A reserved or malformed word (R96, R98). Raised by `step` on a word the decoder refuses. Safe. -/
  | invalid (why : DecodeError)
  /-- `DATA` is not of `LEN` bytes (R96). Raised by the checksum commands on an ill-formed term. Safe. -/
  | malformedData
  /-- A command while `STATUS.HALT = 1` (R102, R247). Raised by every host command. Safe. -/
  | halted
  /-- A command while `STATUS.BUSY = 1` (R102, R288). Raised by every host command. Safe. -/
  | busy
  /-- `INIT` while `STATUS.INIT_DONE = 1` (R102). Raised by `INIT`. Safe. -/
  | alreadyInitialised
  /-- A checksum command while `STATUS.INIT_DONE = 0` (R102, R284). Raised by the checksum commands. Safe. -/
  | notInitialised
  /-- An instruction of the Hardware Engine where `ARCH = NONE`: the engine does not exist (43_hardware_engine.md R184).
  Raised by `step` on a command sequence that holds one, before anything runs, and by `CRC32C.HW`, `HWSTEP8`, `HWSTEP64`.
  Safe. -/
  | engineAbsent
  /-- `CRC32C.HW` where `ARCH != NONE` and `HW_CAP = 0` (R185). Raised by `CRC32C.HW`. Safe. -/
  | capabilityMissing
  /-- A micro-operation outside the row of R149 that enables it. Raised by the micro-operations on a channel. Safe. -/
  | notEnabled
  deriving DecidableEq, Repr

/-- `STATUS = 0x00` (R34). -/
def Status.reset : Status := { initDone := false, valid := false, halt := false, cause := .none, busy := false }

/-- A table of zeros: what the model gives a table the spec says holds no value (R34; log entry 5). -/
def zeroTable : Table := Vector.replicate 256 0#32

/-- The block right after reset (R34). The spec gives `TOP`, `CHP`, `STATUS`, and `CFG` and the tunables from their
parameters; every other element of the block holds no value there and is zero here (log entry 5). No mask is raised
(R30: "all zero on fault-free hardware") and nothing is presented (log entry 8). -/
def State.reset : State :=
  { tbl := Tri.all zeroTable
    acc := Tri.all 0#32
    res := Tri.all 0#32
    cksum := 0#32
    seed := 0#32
    len := 0
    buf := []
    top := .idle
    eng := .sw
    chp := Tri.all .chIdle
    pos := Tri.all 0
    gc := .c0
    gi := 0#8
    gph := .build
    gx := 0#32
    status := Status.reset
    cfg := { target := Config.target, hwEn := Config.hwEn }
    wcpbHw := Config.wcpbHw
    wcpbSw := Config.wcpbSw
    rsp := none
    rspCount := 0
    eRes := Tri.all 0#32
    eTbl := Tri.all zeroTable
    events := []
    hostQueue := [] }

end Sys2Proof.Machine
end

