-- ==== Sys2Proof/Machine/Crc.lean ====
section
/-! DEFINITION. The pure functions of the block: the bit iteration, the table entry, the three byte and word steps, the
decision rule, and the reference function they are held to. -/

namespace Sys2Proof.Machine

/-- `BitStep(x)` (40_table_generator.md R120). -/
def bitStep (x : Word) : Word := if x.getLsbD 0 then (x >>> 1) ^^^ Config.poly else x >>> 1

/-- `n` bit iterations. -/
def bitSteps : Nat → Word → Word
  | 0, x => x
  | n + 1, x => bitSteps n (bitStep x)

/-- `TblEntry(i)`: eight bit iterations from `zext_32(i)` (R121). -/
def tblEntry (i : Byte) : Word := bitSteps Config.bitIterations (i.setWidth 32)

/-- `T[i]`. Every byte is an index in range (20_memory.md R61). -/
def tableRead (t : Table) (i : Byte) : Word := t[i.toNat]'i.isLt

/-- `T[i] <- v`. -/
def tableWrite (t : Table) (i : Byte) (v : Word) : Table := t.set i.toNat v i.isLt

/-- The table of fault-free hardware: `T[i] = TblEntry(i)` (40_table_generator.md R124). -/
def goodTable : Table := Vector.ofFn (fun i : Fin 256 => tblEntry (BitVec.ofNat 8 i.val))

/-- `(crc ^ zext_32(b)) & 0xFF`, an 8-bit index (42_software_engine.md R161). -/
def swIndex (crc : Word) (b : Byte) : Byte := (crc ^^^ b.setWidth 32).setWidth 8

/-- `SwStep(T, crc, b)` (42_software_engine.md R161). -/
def swStep (t : Table) (crc : Word) (b : Byte) : Word := (crc >>> 8) ^^^ tableRead t (swIndex crc b)

/-- `Hw8(crc, b)` (43_hardware_engine.md R180). -/
def hw8 (crc : Word) (b : Byte) : Word := bitSteps 8 (crc ^^^ b.setWidth 32)

/-- Byte `j` of a 64-bit word, `w[8j+7 : 8j]`. -/
def wordByte (w : BitVec 64) (j : Nat) : Byte := w.extractLsb' (8 * j) 8

/-- `Hw64(crc, w)`: the least significant byte first (43_hardware_engine.md R181). -/
def hw64 (crc : Word) (w : BitVec 64) : Word := (List.range 8).foldl (fun x j => hw8 x (wordByte w j)) crc

/-- `Vote(r0, r1, r2)` (44_tmr_voter.md R210); `none` is `NO_MAJORITY`. -/
def voteOf (r0 r1 r2 : Word) : Option Word :=
  if r0 = r1 then some r0
  else if r0 = r2 then some r0
  else if r1 = r2 then some r1
  else none

/-- One pass of the reference function's inner loop: bit-reflected division, least significant bit first (00_scope.md
R13). -/
def refDivide (crc : Word) : Word :=
  match crc.getLsbD 0 with
  | true => (crc >>> 1) ^^^ Config.poly
  | false => crc >>> 1

/-- The loop body of the reference function: the byte enters the low 8 bits, then eight divisions (R13). -/
def refByte (crc : Word) (b : Byte) : Word :=
  (List.range 8).foldl (fun x _ => refDivide x) (crc ^^^ b.setWidth 32)

/-- `CRC32C(seed, data)`, the reference function every engine is held to (R13). -/
def crc32cRef (seed : Word) (data : List Byte) : Word := ~~~(data.foldl refByte (~~~seed))

end Sys2Proof.Machine
end

