-- ==== Sys2Proof/Machine/Ops.lean ====
section
/-! DEFINITION. The shared operations on the state: the writes of single elements, what a command's acceptance and its
end write, the response, the fatal entry (60_exceptions.md R246) and reset (70_reset_and_hazards.md R280). -/

namespace Sys2Proof.Machine

open Host (Outcome)

/-! ### Writes of one element -/

/-- `TBL[c][i] <- v` (20_memory.md R81 (d)). -/
def State.setEntry (s : State) (c : Channel) (i : Byte) (v : Word) : State :=
  { s with tbl := s.tbl.set c (tableWrite (s.tbl.get c) i v) }

/-- `ACC[c] <- v`. -/
def State.setAcc (s : State) (c : Channel) (v : Word) : State := { s with acc := s.acc.set c v }

/-- `RES[c] <- v`. -/
def State.setRes (s : State) (c : Channel) (v : Word) : State := { s with res := s.res.set c v }

/-- `POS[c] <- n`. -/
def State.setPos (s : State) (c : Channel) (n : Nat) : State := { s with pos := s.pos.set c n }

/-- `CHP[c] <- p`. -/
def State.setChp (s : State) (c : Channel) (p : ChPhase) : State := { s with chp := s.chp.set c p }

/-- The operand or the result of a pure micro-operation (log entry 7). -/
def State.setGx (s : State) (v : Word) : State := { s with gx := v }

/-- Where the generator is: its loop, `GC` and `GI` (10_state.md R26). -/
def State.setGen (s : State) (ph : GenPhase) (c : Channel) (i : Byte) : State := { s with gph := ph, gc := c, gi := i }

/-- `TOP <- t`. -/
def State.setTop (s : State) (t : Top) : State := { s with top := t }

/-- `STATUS.VALID <- 0`, at the acceptance of a checksum or `VOTE` command (10_state.md R27). -/
def State.clearValid (s : State) : State := { s with status := { s.status with valid := false } }

/-- The environment's mask ports take new values (10_state.md R30). -/
def State.setMasks (s : State) (eRes : Tri Word) (eTbl : Tri Table) : State := { s with eRes := eRes, eTbl := eTbl }

/-- The masks drawn for a command stand on the mask ports (10_state.md R30). -/
def State.applyDraw (s : State) (d : Draw) : State := s.setMasks d.eRes d.eTbl

/-- What stands on the mask ports now, as a draw. -/
def State.currentDraw (s : State) : Draw := { eRes := s.eRes, eTbl := s.eTbl }

/-- What is due at the next steps (log entry 8). -/
def State.setEvents (s : State) (es : List Event) : State := { s with events := es }

/-- The commands the host has still to present (log entry 8). -/
def State.setQueue (s : State) (q : List Arrival) : State := { s with hostQueue := q }

/-! ### Responses, the fatal entry, reset -/

/-- `RSP <- r` (30_encoding.md R95). -/
def State.respond (s : State) (r : Response) : State := { s with rsp := some r, rspCount := s.rspCount + 1 }

/-- After a fatal entry the data state holds no value: free values take its place, and the tables' too for
`TABLE_MISMATCH` (60_exceptions.md R246, 93 U13; log entry 4). -/
def State.loseData (s : State) (cause : Cause) : State :=
  { s with
    cksum := Config.lostCksum s.rspCount
    acc := Config.lostAcc s.rspCount
    res := Config.lostRes s.rspCount
    pos := Config.lostPos s.rspCount
    tbl := match cause with
      | .tableMismatch => Config.lostTables s.rspCount
      | .none => s.tbl
      | .inputTooLarge => s.tbl
      | .noMajority => s.tbl }

/-- `STATUS` and `TOP` of `FATAL(cause)` (R246). -/
def State.halt (s : State) (cause : Cause) : State :=
  { s with
    status := { s.status with halt := true, cause := cause, valid := false, busy := false }
    top := .halted }

/-- `raise FATAL(cause)`: taking a fatal condition, as one indivisible step (R246). -/
def State.raiseFatal (s : State) (cause : Cause) : State :=
  ((s.loseData cause).halt cause).respond (.fatal cause)

/-- `RESET`: every element of the block at its reset value, also during a command and also when halted, without a
response (70_reset_and_hazards.md R280, R281). `CFG` and the tunables are parameters and keep their values; what stands
at the environment's ports and is still to be presented is not the block's; the count of responses is no element of the
block (log entry 9). -/
def State.applyReset (s : State) : State :=
  { State.reset with
    cfg := s.cfg
    wcpbHw := s.wcpbHw
    wcpbSw := s.wcpbSw
    rspCount := s.rspCount
    eRes := s.eRes
    eTbl := s.eTbl
    events := s.events
    hostQueue := s.hostQueue }

/-! ### Acceptance and end of a command -/

/-- `INIT` accepted: `BUSY <- 1`, `TOP <- GEN`, `GC`, `GI` start at 0 (41_dispatcher.md R149). -/
def State.beginInit (s : State) : State :=
  { s with status := { s.status with busy := true }, top := .gen, gph := .build, gc := .c0, gi := 0#8 }

/-- `INIT` ends well: `INIT_DONE <- 1`, `BUSY <- 0`, `TOP <- IDLE`, `RSP <- DONE` (40_table_generator.md R122). -/
def State.finishInit (s : State) : State :=
  ({ s with status := { s.status with initDone := true, busy := false }, top := .idle }).respond .done

/-- A checksum command accepted with `LEN` within the bound: `BUSY <- 1`, the operands are latched, `ENG` is chosen and
the channels run (41_dispatcher.md R149). -/
def State.latchCall (s : State) (eng : Engine) (seed : Word) (len : Nat) (data : List Byte) : State :=
  { s with
    status := { s.status with busy := true }
    seed := seed
    len := len
    buf := data
    eng := eng
    top := .run }

/-- The Voter found the majority `v`: `CKSUM <- v`, `VALID <- 1`, every `CHP[c] <- CH_IDLE`, `BUSY <- 0`, `TOP <- IDLE`,
`RSP <- VALUE(v)` (41_dispatcher.md R149, 44_tmr_voter.md R212). -/
def State.commitChecksum (s : State) (v : Word) : State :=
  ({ s with
    cksum := v
    status := { s.status with valid := true, busy := false }
    chp := Tri.all .chIdle
    top := .idle }).respond (.value v)

/-- `Vote` on the three channel results, and what follows from it (R149, rows `VOTING`). -/
def State.applyVote (s : State) : State :=
  match voteOf s.res.c0 s.res.c1 s.res.c2 with
  | some v => s.commitChecksum v
  | none => s.raiseFatal .noMajority

/-! ### Admission (30_encoding.md R102) -/

/-- The condition on every command: `HALT = 0` and `BUSY = 0`. -/
def admitAny (s : State) (k : Outcome State Fault Refusal) : Outcome State Fault Refusal :=
  if s.status.halt then .refused .halted
  else if s.status.busy then .refused .busy
  else k

/-- The condition on the checksum commands: `INIT_DONE = 1` besides. -/
def admitChecksum (s : State) (k : Outcome State Fault Refusal) : Outcome State Fault Refusal :=
  admitAny s (if s.status.initDone then k else .refused .notInitialised)

/-- A checksum command that is admitted: `VALID <- 0`, the length check before anything else (41_dispatcher.md R142),
then the call starts. -/
def startChecksum (eng : Engine) (seed len : Word) (data : List Byte) (s : State) : Outcome State Fault Refusal :=
  if len.toNat > Config.maxInputSize then .next (s.clearValid.raiseFatal .inputTooLarge)
  else if data.length = len.toNat then .next (s.clearValid.latchCall eng seed len.toNat data)
  else .refused .malformedData

end Sys2Proof.Machine
end

