-- ==== Sys2Proof/Machine/Operands.lean ====
section
/-! DEFINITION. How operands are read: the buffer primitives (20_memory.md R65, R72, R81), the table read with its
lifetime, and what the host can read of elements that do not always hold a value (10_state.md R33). -/

namespace Sys2Proof.Machine

/-- `BufRead(k)`: byte `k` of the buffer, undefined outside `0 <= k < LEN` (R72). -/
def bufRead (s : State) (k : Nat) : Option Byte := s.buf[k]?

/-- Eight bytes as one little-endian word, the byte at the lowest index in the least significant byte (R65). -/
def assembleWord (b0 b1 b2 b3 b4 b5 b6 b7 : Byte) : BitVec 64 := b7 ++ b6 ++ b5 ++ b4 ++ b3 ++ b2 ++ b1 ++ b0

/-- `Word64(k)`, defined when `k + 7 < LEN` (R65). -/
def word64 (s : State) (k : Nat) : Option (BitVec 64) :=
  match bufRead s k, bufRead s (k + 1), bufRead s (k + 2), bufRead s (k + 3),
    bufRead s (k + 4), bufRead s (k + 5), bufRead s (k + 6), bufRead s (k + 7) with
  | some b0, some b1, some b2, some b3, some b4, some b5, some b6, some b7 =>
    some (assembleWord b0 b1 b2 b3 b4 b5 b6 b7)
  | _, _, _, _, _, _, _, _ => none

/-- The table of channel `c` while it holds values, that is while `INIT_DONE = 1` (10_state.md R33, 93 U12). -/
def tableOf (s : State) (c : Channel) : Option Table := if s.status.initDone then some (s.tbl.get c) else none

/-- `CKSUM` as the host reads it: it has a value only while `VALID = 1` (10_state.md R24). -/
def State.readCksum (s : State) : Option Word := if s.status.valid then some s.cksum else none

/-- `ACC[c]` has a value from `CHINIT` of a call to the end of that call (10_state.md R22, R33). -/
def State.readAcc (s : State) (c : Channel) : Option Word :=
  if (s.top = .run ∨ s.top = .voting) ∧ s.chp.get c ≠ .chIdle then some (s.acc.get c) else none

/-- `RES[c]` has a value from `CHFIN` of a call to the end of that call (10_state.md R23, R33). -/
def State.readRes (s : State) (c : Channel) : Option Word :=
  if (s.top = .run ∨ s.top = .voting) ∧ s.chp.get c = .chDone then some (s.res.get c) else none

/-! ### The enabling conditions of the micro-operations on a channel (41_dispatcher.md R149) -/

/-- `TOP = RUN` and `CHP[c] = CH_IDLE`: the row of `CHINIT` (R160). -/
def chinitEnabled (s : State) (c : Channel) : Bool := s.top = .run && s.chp.get c = .chIdle

/-- `CHP[c] = CH_RUN`, `ENG = SW`, `POS[c] < LEN`: the row of `SWSTEP` (R161). -/
def swstepEnabled (s : State) (c : Channel) : Bool :=
  s.top = .run && s.chp.get c = .chRun && s.eng = .sw && s.pos.get c < s.len

/-- `CHP[c] = CH_RUN`, `ENG = HW`, `LEN - POS[c] >= 8`: the row of `HWSTEP64` (R181). -/
def hwstep64Enabled (s : State) (c : Channel) : Bool :=
  s.top = .run && s.chp.get c = .chRun && s.eng = .hw && s.pos.get c + Config.wordBytes ≤ s.len

/-- `CHP[c] = CH_RUN`, `ENG = HW`, `0 < LEN - POS[c] < 8`: the row of `HWSTEP8` (R180). -/
def hwstep8Enabled (s : State) (c : Channel) : Bool :=
  s.top = .run && s.chp.get c = .chRun && s.eng = .hw && s.pos.get c < s.len &&
    s.len < s.pos.get c + Config.wordBytes

/-- `CHP[c] = CH_RUN`, `POS[c] = LEN`: the row of `CHFIN` (R162). -/
def chfinEnabled (s : State) (c : Channel) : Bool := s.top = .run && s.chp.get c = .chRun && s.pos.get c = s.len

end Sys2Proof.Machine
end

