-- ==== Sys2Proof/Machine/Flags.lean ====
section
/-! DEFINITION. The words on the output ports `STATUS`, `CFG` and `RSP`, and the selection rule. The block has no
arithmetic flag (10_state.md R27). -/

namespace Sys2Proof.Machine

/-- The codes of the fatal conditions (60_exceptions.md R240). -/
def causeCode : Cause → BitVec 3
  | .none => 0#3
  | .tableMismatch => 1#3
  | .inputTooLarge => 2#3
  | .noMajority => 3#3

/-- The codes of `CFG.ARCH` (10_state.md R28). -/
def archCode : Arch → BitVec 2
  | .none => 0#2
  | .x86Sse42 => 1#2
  | .armCrc => 2#2

/-- The port `STATUS`: `INIT_DONE` in bit 0, `VALID` in bit 1, `HALT` in bit 2, `CAUSE` in bits 5:3, `BUSY` in bit 6, bit
7 reads 0 (10_state.md R27). -/
def Status.word (st : Status) : BitVec 8 :=
  0#1 ++ BitVec.ofBool st.busy ++ causeCode st.cause ++ BitVec.ofBool st.halt ++ BitVec.ofBool st.valid ++
    BitVec.ofBool st.initDone

/-- The port `CFG`: `HW_CAP` in bit 0, `HW_EN` in bit 1, `ARCH` in bits 3:2, bits 7:4 read 0 (10_state.md R28). -/
def Cfg.word (c : Cfg) : BitVec 8 :=
  0#4 ++ archCode c.target.arch ++ BitVec.ofBool c.hwEn ++ BitVec.ofBool c.target.hwCap

/-- `RK` (30_encoding.md R95). -/
def Response.rk : Response → BitVec 2
  | .done => 0#2
  | .value _ => 1#2
  | .fatal _ => 2#2

/-- The field `CAUSE` of a response: the cause code when `RK = 2`, 0 otherwise (R95). -/
def Response.causeField : Response → BitVec 3
  | .done => 0#3
  | .value _ => 0#3
  | .fatal c => causeCode c

/-- The field `VALUE` of the `n`-th response: the result when `RK = 1`, a free value otherwise (R95; log entry 3). -/
def Response.valueField (n : Nat) : Response → Word
  | .done => Config.unspecifiedValue n
  | .value v => v
  | .fatal _ => Config.unspecifiedValue n

/-- The port `RSP` at the `n`-th response: `VALUE` in bits 39:8, 0 in bits 7:5, `CAUSE` in bits 4:2, `RK` in bits 1:0
(R95). -/
def Response.word (n : Nat) (r : Response) : BitVec 40 := r.valueField n ++ 0#3 ++ r.causeField ++ r.rk

/-- The word that stands on `RSP`, if a response has been given since reset. -/
def State.rspWord (s : State) : Option (BitVec 40) := s.rsp.map (fun r => r.word s.rspCount)

/-- `Select()`: a function of `CFG` alone (41_dispatcher.md R140, R143). -/
def selectEngine (c : Cfg) : Engine :=
  if c.target.arch != .none && c.target.hwCap && c.hwEn then .hw else .sw

end Sys2Proof.Machine
end

