-- ==== Sys2Proof/Machine/Dispatcher.lean ====
section
/-! DEFINITION. The Dispatcher: `CRC32C` and `DETECT` (41_dispatcher.md). -/

namespace Sys2Proof.Machine

open Host (Outcome)

/-- `CRC32C` (R141): the engine is the one `Select()` gives, chosen once per call (R143, R148). -/
def execCrc32c (seed len : Word) (data : List Byte) (s : State) : Outcome State Fault Refusal :=
  admitChecksum s (startChecksum (selectEngine s.cfg) seed len data s)

/-- `zext_32( Select() == HW ? 1 : 0 )` (R140). -/
def detectAnswer : Engine → Word
  | .hw => 1#32
  | .sw => 0#32

/-- `DETECT` (R140): answers 1 when the Hardware Engine would be selected, else 0; no state is written. -/
def execDetect (s : State) : Outcome State Fault Refusal :=
  admitAny s (.next (s.respond (.value (detectAnswer (selectEngine s.cfg)))))

end Sys2Proof.Machine
end

