-- ==== Sys2Proof/Machine/HardwareEngine.lean ====
section
/-! DEFINITION. The Hardware Engine: `CRC32C.HW`, `HWSTEP8`, `HWSTEP64` (43_hardware_engine.md). It reads no table. -/

namespace Sys2Proof.Machine

open Host (Outcome)

/-- `CRC32C.HW` (R183): admitted only where the engine exists (R184) and the capability is there (R185); `HW_EN` does not
gate it (30_encoding.md R102). -/
def execCrc32cHw (seed len : Word) (data : List Byte) (s : State) : Outcome State Fault Refusal :=
  admitChecksum s
    (if s.cfg.target.arch = .none then .refused .engineAbsent
     else if s.cfg.target.hwCap then startChecksum .hw seed len data s
     else .refused .capabilityMissing)

/-- `HWSTEP8` (R180). It is no micro-operation where the engine does not exist (R184). -/
def execHwstep8 (c : Channel) (s : State) : Outcome State Fault Refusal :=
  if s.cfg.target.arch = .none then .refused .engineAbsent
  else if hwstep8Enabled s c then
    match bufRead s (s.pos.get c) with
    | none => .fault .outsideBuffer
    | some b => .next ((s.setAcc c (hw8 (s.acc.get c) b)).setPos c (s.pos.get c + 1))
  else .refused .notEnabled

/-- `HWSTEP64` (R181). It is no micro-operation where the engine does not exist (R184). -/
def execHwstep64 (c : Channel) (s : State) : Outcome State Fault Refusal :=
  if s.cfg.target.arch = .none then .refused .engineAbsent
  else if hwstep64Enabled s c then
    match word64 s (s.pos.get c) with
    | none => .fault .outsideBuffer
    | some w => .next ((s.setAcc c (hw64 (s.acc.get c) w)).setPos c (s.pos.get c + Config.wordBytes))
  else .refused .notEnabled

end Sys2Proof.Machine
end

