-- ==== Sys2Proof/Machine/SoftwareEngine.lean ====
section
/-! DEFINITION. The Software Engine: `CRC32C.SW`, `SWSTEP`, and `CHINIT`, `CHFIN` of both engines (42_software_engine.md). -/

namespace Sys2Proof.Machine

open Host (Outcome)

/-- `CRC32C.SW` (R163): the Software Engine whatever `CFG`. -/
def execCrc32cSw (seed len : Word) (data : List Byte) (s : State) : Outcome State Fault Refusal :=
  admitChecksum s (startChecksum .sw seed len data s)

/-- `CHINIT` (R160). -/
def execChinit (c : Channel) (s : State) : Outcome State Fault Refusal :=
  if chinitEnabled s c then .next (((s.setAcc c (~~~s.seed)).setPos c 0).setChp c .chRun)
  else .refused .notEnabled

/-- `SWSTEP` (R161): channel `c` reads its own copy of the table and no other. -/
def execSwstep (c : Channel) (s : State) : Outcome State Fault Refusal :=
  if swstepEnabled s c then
    match bufRead s (s.pos.get c), tableOf s c with
    | none, _ => .fault .outsideBuffer
    | some _, none => .fault .tableHoldsNoValue
    | some b, some t => .next ((s.setAcc c (swStep t (s.acc.get c) b)).setPos c (s.pos.get c + 1))
  else .refused .notEnabled

/-- `CHFIN` (R162): the environment's mask enters the result as it is latched. -/
def execChfin (c : Channel) (s : State) : Outcome State Fault Refusal :=
  if chfinEnabled s c then .next ((s.setRes c (~~~(s.acc.get c) ^^^ s.eRes.get c)).setChp c .chDone)
  else .refused .notEnabled

end Sys2Proof.Machine
end

