-- ==== Sys2Proof/Machine/TableGenerator.lean ====
section
/-! DEFINITION. The CRC Table Generator: `INIT`, `TBLENT`, `TBLBIT` and the generator's own steps (40_table_generator.md). -/

namespace Sys2Proof.Machine

open Host (Outcome)

/-- `INIT` (R122): admitted once after reset; the generator starts. -/
def execInit (s : State) : Outcome State Fault Refusal :=
  admitAny s (if s.status.initDone then .refused .alreadyInitialised else .next s.beginInit)

/-- `TBLBIT` (R120): one bit iteration of its operand. Pure: it touches no element of the block and nothing enables it (log
entry 7). -/
def execTblbit (s : State) : Outcome State Fault Refusal := .next (s.setGx (bitStep s.gx))

/-- `TBLENT` (R121): the table entry of its operand byte. Pure, as `TBLBIT` (log entry 7). -/
def execTblent (s : State) : Outcome State Fault Refusal := .next (s.setGx (tblEntry (s.gx.setWidth 8)))

/-- The generator is in the building loop, the one place where `INIT` runs `TBLENT` (R122). -/
def State.building (s : State) : Bool := s.top = .gen && s.gph = .build

/-- The operand of the building loop's `TBLENT` is `GI`, which holds a value while `TOP = GEN` (R122, 10_state.md R26). -/
def State.supplyIndex (s : State) : State := s.setGx (s.gi.setWidth 32)

/-- The pair `(c, i)` that follows in a loop over `c` up to 2 and `i` in 0 to 255, or none after the last (R122). -/
def nextIndex : Channel → Byte → Option (Channel × Byte)
  | c, i =>
    if i = 255#8 then
      match c with
      | .c0 => some (.c1, 0#8)
      | .c1 => some (.c2, 0#8)
      | .c2 => none
    else some (c, i + 1#8)

/-- After an entry of the building loop; the checking loop starts at channel 1 (R122). -/
def State.afterBuild (s : State) : State :=
  match nextIndex s.gc s.gi with
  | some (c, i) => s.setGen .build c i
  | none => s.setGen .check .c1 0#8

/-- After a comparison of the checking loop (R122). -/
def State.afterCheck (s : State) : State :=
  match nextIndex s.gc s.gi with
  | some (c, i) => s.setGen .check c i
  | none => s.setGen .finish .c2 255#8

/-- The table write of the building loop: `TBL[GC][GI] <- TblEntry(GI) ^ E_TBL[GC][GI]`, the entry being the result of
`TBLENT` (R122, 10_state.md R30). -/
def State.storeEntry (s : State) : State :=
  (s.setEntry s.gc s.gi (s.gx ^^^ tableRead (s.eTbl.get s.gc) s.gi)).afterBuild

/-- One comparison of the self-check, with channel 0 as the reference (R122, R123). -/
def State.checkEntry (s : State) : State :=
  if tableRead (s.tbl.get s.gc) s.gi = tableRead s.tbl.c0 s.gi then s.afterCheck else s.raiseFatal .tableMismatch

end Sys2Proof.Machine
end

