-- ==== Sys2Proof/Machine/Tunables.lean ====
section
/-! DEFINITION. The two exported tunables (45_tunables.md). -/

namespace Sys2Proof.Machine

open Host (Outcome)

/-- `RDWC.HW` (R230). -/
def execRdwcHw (s : State) : Outcome State Fault Refusal := admitAny s (.next (s.respond (.value s.wcpbHw)))

/-- `RDWC.SW` (R231). -/
def execRdwcSw (s : State) : Outcome State Fault Refusal := admitAny s (.next (s.respond (.value s.wcpbSw)))

end Sys2Proof.Machine
end

