-- ==== Sys2Proof/Machine/Voter.lean ====
section
/-! DEFINITION. The `VOTE` command (44_tmr_voter.md). The Voter inside a checksum command is `State.applyVote`. -/

namespace Sys2Proof.Machine

open Host (Outcome)

/-- `RES` loaded from the operands of `VOTE`; `E_RES` is not applied (R211). -/
def State.loadResults (s : State) (r0 r1 r2 : Word) : State := { s with res := ⟨r0, r1, r2⟩ }

/-- `VOTE` (R211): the decision rule on three supplied values, in one step. -/
def execVote (r0 r1 r2 : Word) (s : State) : Outcome State Fault Refusal :=
  admitAny s (.next (s.clearValid.loadResults r0 r1 r2).applyVote)

end Sys2Proof.Machine
end

