-- ==== Sys2Proof/Machine/Dispatch.lean ====
section
/-! DEFINITION. One arm per constructor of `Instr`. -/

namespace Sys2Proof.Machine

open Host (Outcome)

def exec (i : Instr) (s : State) : Host.Outcome State Fault Refusal :=
  match i with
  | .init => Sys2Proof.Machine.execInit s
  | .crc32c seed len data => Sys2Proof.Machine.execCrc32c seed len data s
  | .crc32cSw seed len data => Sys2Proof.Machine.execCrc32cSw seed len data s
  | .crc32cHw seed len data => Sys2Proof.Machine.execCrc32cHw seed len data s
  | .vote r0 r1 r2 => Sys2Proof.Machine.execVote r0 r1 r2 s
  | .detect => Sys2Proof.Machine.execDetect s
  | .rdwcHw => Sys2Proof.Machine.execRdwcHw s
  | .rdwcSw => Sys2Proof.Machine.execRdwcSw s
  | .tblbit => Sys2Proof.Machine.execTblbit s
  | .tblent => Sys2Proof.Machine.execTblent s
  | .chinit c => Sys2Proof.Machine.execChinit c s
  | .swstep c => Sys2Proof.Machine.execSwstep c s
  | .hwstep8 c => Sys2Proof.Machine.execHwstep8 c s
  | .hwstep64 c => Sys2Proof.Machine.execHwstep64 c s
  | .chfin c => Sys2Proof.Machine.execChfin c s

end Sys2Proof.Machine
end

