-- ==== Sys2Proof/Machine/Sequencer.lean ====
section
/-! DEFINITION. The sequencer: what runs next (41_dispatcher.md R149), and where the next instruction word stands. -/

namespace Sys2Proof.Machine

open Host (Outcome)

/-- The host presents a command, with the masks drawn for it: it is decoded and run, or refused (30_encoding.md R96, R102;
10_state.md R30). -/
def present (a : Arrival) (s : State) : Outcome State Fault Refusal :=
  match decodeCommand a.cmd with
  | .ok i => exec i (s.applyDraw a.draw)
  | .error e => .refused (.invalid e)

/-- What the sequencer does before the micro-operation: in the building loop of `INIT` it gives `TBLENT` its operand `GI`
(R149, row `GEN`). -/
def beforeMicro (i : Instr) (s : State) : State := if i = .tblent ∧ s.building = true then s.supplyIndex else s

/-- What the sequencer does after the micro-operation: in the building loop of `INIT` a `TBLENT` is followed by the table
write (R149, row `GEN`). -/
def afterMicro (i : Instr) (s : State) : State := if i = .tblent ∧ s.building = true then s.storeEntry else s

/-- The sequencer runs the micro-operation `i`. Nothing runs while the block is halted (60_exceptions.md R247). -/
def runMicro (i : Instr) (s : State) : Outcome State Fault Refusal :=
  if s.top = .halted then .fault (.halted s.status.cause)
  else match exec i (beforeMicro i s) with
    | .next t => .next (afterMicro i t)
    | .fault f => .fault f
    | .refused r => .refused r

/-- The sequencer issues the micro-operation word `uw` (30_encoding.md R98). -/
def issue (uw : BitVec 6) (s : State) : Outcome State Fault Refusal :=
  match decodeMicro uw with
  | .ok i => runMicro i s
  | .error e => .refused (.invalid e)

/-- The one micro-operation R149 enables on channel `c`, if any. -/
def enabledMicro (s : State) (c : Channel) : Option Instr :=
  if chinitEnabled s c then some (.chinit c)
  else if swstepEnabled s c then some (.swstep c)
  else if hwstep64Enabled s c then some (.hwstep64 c)
  else if hwstep8Enabled s c then some (.hwstep8 c)
  else if chfinEnabled s c then some (.chfin c)
  else none

/-- The sequencer's own choice where the schedule names none: the lowest channel that can go on (R164, log entry 10). -/
def nextMicro (s : State) : Option Instr := Channel.all.findSome? (enabledMicro s)

/-- `CHP[0] = CHP[1] = CHP[2] = CH_DONE` (R149). -/
def allDone (s : State) : Bool := s.chp.c0 = .chDone && s.chp.c1 = .chDone && s.chp.c2 = .chDone

/-- One step of `TOP = RUN` (R149). -/
def runChannels (s : State) : Outcome State Fault Refusal :=
  match nextMicro s with
  | some i => runMicro i s
  | none => if allDone s then .next (s.setTop .voting) else .fault .noRowEnabled

/-- One step of `TOP = GEN` (R149). -/
def generate (s : State) : Outcome State Fault Refusal :=
  match s.gph with
  | .build => runMicro .tblent s
  | .check => .next s.checkEntry
  | .finish => .next s.finishInit

/-- One step of the block when nothing is due from outside: the host presents its next command once the block is idle
(70_reset_and_hazards.md R288), the block works on the command in progress, or it is halted. -/
def advance (s : State) : Outcome State Fault Refusal :=
  match s.top with
  | .idle =>
    match s.hostQueue with
    | [] => .next s
    | a :: rest => present a (s.setQueue rest)
  | .gen => generate s
  | .run => runChannels s
  | .voting => .next s.applyVote
  | .halted => .fault (.halted s.status.cause)

/-- An event that is due. -/
def occur (e : Event) (s : State) : Outcome State Fault Refusal :=
  match e with
  | .proceed => advance s
  | .reset => .next s.applyReset
  | .masks eRes eTbl => .next (s.setMasks eRes eTbl)
  | .command a => present a s
  | .uop uw => issue uw s

/-- One step of a well-formed command sequence: the event that is due, or the block's own next step (log entry 8). -/
def takeNext (s : State) : Outcome State Fault Refusal :=
  match s.events with
  | e :: rest => occur e (s.setEvents rest)
  | [] => advance s

/-! ### The static check of 43_hardware_engine.md R184 -/

/-- The instruction a pending event carries, if any. -/
def Event.instr? : Event → Option Instr
  | .proceed => none
  | .reset => none
  | .masks _ _ => none
  | .command a => (decodeCommand a.cmd).toOption
  | .uop uw => (decodeMicro uw).toOption

/-- The command sequence still to run: every instruction that is due or queued. -/
def State.sequence (s : State) : List Instr :=
  s.events.filterMap Event.instr? ++ s.hostQueue.filterMap (fun a => (decodeCommand a.cmd).toOption)

/-- The command sequence is well-formed for the configuration (R184). -/
def State.sequenceExists (s : State) : Bool := sequenceExistsIn s.cfg.target s.sequence

/-! ### Placing an instruction word (log entry 11) -/

/-- A call in progress with engine `eng`, after a successful `INIT`: what the sequencer needs to select a micro-operation
of a channel. -/
def State.inCall (s : State) (eng : Engine) : State :=
  { s with
    top := .run
    eng := eng
    status := { initDone := true, valid := false, halt := false, cause := .none, busy := true } }

/-- A running channel `c` with exactly `n` bytes, zeros, still to consume. -/
def State.withBytesLeft (s : State) (c : Channel) (n : Nat) : State :=
  ({ s with len := n, buf := List.replicate n 0#8 }.setPos c 0).setChp c .chRun

/-- A configuration that has the Hardware Engine, with the capability. -/
def State.withEngine (s : State) : State := { s with cfg := { s.cfg with target := .x86Sse42 true } }

/-- Not halted: nothing runs while the block is halted. -/
def State.unhalted (s : State) : State :=
  if s.top = .halted then { s with top := .idle, status := { s.status with halt := false, cause := .none } } else s

/-- The block where the word of `i` is the next to run: unchanged for a host command, which the host presents, and for the
two pure micro-operations, but for a halt. An instruction of the Hardware Engine needs a configuration that has it
(R184). -/
def State.selecting (s : State) : Instr → State
  | .init => s
  | .crc32c _ _ _ => s
  | .crc32cSw _ _ _ => s
  | .crc32cHw _ _ _ => if s.status.initDone && s.cfg.target.arch != .none then s else s.withEngine
  | .vote _ _ _ => s
  | .detect => s
  | .rdwcHw => s
  | .rdwcSw => s
  | .tblbit => s.unhalted
  | .tblent => s.unhalted
  | .chinit c => if chinitEnabled s c then s else (s.inCall s.eng).setChp c .chIdle
  | .swstep c => if swstepEnabled s c && s.status.initDone && (s.buf.length == s.len) then s
    else (s.inCall .sw).withBytesLeft c 1
  | .hwstep8 c => if hwstep8Enabled s c && (s.buf.length == s.len) && s.cfg.target.arch != .none then s
    else (s.withEngine.inCall .hw).withBytesLeft c 1
  | .hwstep64 c => if hwstep64Enabled s c && (s.buf.length == s.len) && s.cfg.target.arch != .none then s
    else (s.withEngine.inCall .hw).withBytesLeft c Config.wordBytes
  | .chfin c => if chfinEnabled s c then s else (s.inCall s.eng).withBytesLeft c 0

/-- The word of an instruction placed where the next step takes it from. -/
def State.placeWord (s : State) (e : Encoded) : State :=
  let t := match decode e with
    | .ok i => s.selecting i
    | .error _ => s
  match e with
  | .command p => t.setEvents (.command { cmd := p, draw := t.currentDraw } :: t.events)
  | .micro uw => t.setEvents (.uop uw :: t.events)

end Sys2Proof.Machine
end

