-- ==== Sys2Proof/Machine/Step.lean ====
section
/-! DEFINITION. One step of the machine, and where the next instruction word stands. -/

namespace Sys2Proof.Machine

open Host (Outcome)

/-- One step. A command sequence that is ill-formed for the configuration is refused before anything runs
(43_hardware_engine.md R184). -/
def step (s : State) : Host.Outcome State Fault Refusal :=
  if s.sequenceExists then takeNext s else .refused .engineAbsent

/-- `s` with an opcode-table row's word placed so that the next step runs it (log entry 11). -/
def State.withFetchWord (s : State) (nbits w : Nat) : State :=
  match tableWord nbits w with
  | some e => s.placeWord e
  | none => s

end Sys2Proof.Machine
end

