-- ==== Sys2Proof/Safety.lean ====
section
/-! DEFINITION. What counts as a safe run, and the conditions that rule out the states no run reaches: the terms the
claims are written in. -/

namespace Sys2Proof.Machine

/-! ### How a run ends (70_reset_and_hazards.md R293) -/

/-- The run has ended well: the last command answered `DONE` or `VALUE`, `BUSY = 0`, `HALT = 0`. -/
def State.EndedWell (s : State) : Prop :=
  (s.rsp = some .done ∨ ∃ v, s.rsp = some (.value v)) ∧ s.status.busy = false ∧ s.status.halt = false

/-- The run has ended badly: `HALT = 1`. -/
def State.EndedBadly (s : State) : Prop := s.status.halt = true

/-- No event is due, and what the host has still to present is well-formed for the configuration (43_hardware_engine.md
R184): the block follows its own sequence. -/
def State.Undisturbed (s : State) : Prop := s.events = [] ∧ s.sequenceExists = true

/-- Every event still due is a micro-operation the channel schedule names, or nothing: nothing reaches the block from
outside. -/
def State.OnlyScheduled (s : State) : Prop := ∀ e ∈ s.events, e = .proceed ∨ ∃ uw, e = .uop uw

/-- Nothing reaches the block at this step, which is its own; `rest` is then still due. -/
def State.Proceeds (s : State) (rest : List Event) : Prop := s.events = .proceed :: rest ∨ (s.events = [] ∧ rest = [])

/-- The command the next step presents, if it presents one: one that is due, or the host's next one where the idle block
takes its own step. -/
def State.presented (s : State) : Option Presentation :=
  match s.events with
  | .command a :: _ => some a.cmd
  | .uop _ :: _ => none
  | .masks _ _ :: _ => none
  | .reset :: _ => none
  | .proceed :: _ => if s.top = .idle then s.hostQueue.head?.map Arrival.cmd else none
  | [] => if s.top = .idle then s.hostQueue.head?.map Arrival.cmd else none

/-- The tables of fault-free hardware after `INIT` (40_table_generator.md R124). -/
def State.GoodTables (s : State) : Prop := s.tbl = Tri.all goodTable

/-- The block is idle, initialised and not halted: every checksum command but `CRC32C.HW` is admitted (30_encoding.md R102). -/
def State.Ready (s : State) : Prop :=
  s.top = .idle ∧ s.chp = Tri.all .chIdle ∧ s.status.initDone = true ∧ s.status.halt = false ∧ s.status.busy = false ∧
    s.status.cause = .none

/-- The result channel `c` ends with when the fault-free result is `g`: the environment's mask has entered it
(42_software_engine.md R162). -/
def State.upset (s : State) (g : Word) (c : Channel) : Word := g ^^^ s.eRes.get c

/-! ### Admission of host commands (30_encoding.md R102) -/

/-- The condition under which the block has a step for an instruction: R102 for the host commands, the enabling row of
41_dispatcher.md R149 for the micro-operations of a channel; the two pure micro-operations have none. -/
def Admitted (s : State) : Instr → Prop
  | .init => s.status.halt = false ∧ s.status.busy = false ∧ s.status.initDone = false
  | .crc32c _ _ _ => s.status.halt = false ∧ s.status.busy = false ∧ s.status.initDone = true
  | .crc32cSw _ _ _ => s.status.halt = false ∧ s.status.busy = false ∧ s.status.initDone = true
  | .crc32cHw _ _ _ => s.status.halt = false ∧ s.status.busy = false ∧ s.status.initDone = true ∧
      s.cfg.target.arch ≠ .none ∧ s.cfg.target.hwCap = true
  | .vote _ _ _ => s.status.halt = false ∧ s.status.busy = false
  | .detect => s.status.halt = false ∧ s.status.busy = false
  | .rdwcHw => s.status.halt = false ∧ s.status.busy = false
  | .rdwcSw => s.status.halt = false ∧ s.status.busy = false
  | .tblbit => True
  | .tblent => True
  | .chinit c => chinitEnabled s c = true
  | .swstep c => swstepEnabled s c = true
  | .hwstep8 c => s.cfg.target.arch ≠ .none ∧ hwstep8Enabled s c = true
  | .hwstep64 c => s.cfg.target.arch ≠ .none ∧ hwstep64Enabled s c = true
  | .chfin c => chfinEnabled s c = true

/-- A host command, not a micro-operation (R93). -/
def isHostCommand : Instr → Bool
  | .init => true
  | .crc32c _ _ _ => true
  | .crc32cSw _ _ _ => true
  | .crc32cHw _ _ _ => true
  | .vote _ _ _ => true
  | .detect => true
  | .rdwcHw => true
  | .rdwcSw => true
  | .tblbit => false
  | .tblent => false
  | .chinit _ => false
  | .swstep _ => false
  | .hwstep8 _ => false
  | .hwstep64 _ => false
  | .chfin _ => false

/-- The channel a micro-operation works on (30_encoding.md R98). -/
def channelOf : Instr → Option Channel
  | .init => none
  | .crc32c _ _ _ => none
  | .crc32cSw _ _ _ => none
  | .crc32cHw _ _ _ => none
  | .vote _ _ _ => none
  | .detect => none
  | .rdwcHw => none
  | .rdwcSw => none
  | .tblbit => none
  | .tblent => none
  | .chinit c => some c
  | .swstep c => some c
  | .hwstep8 c => some c
  | .hwstep64 c => some c
  | .chfin c => some c

/-! ### Invariants -/

/-- `STATUS`, the sequencer and the operands agree (10_state.md R26, R27; 41_dispatcher.md R149). -/
structure ControlInv (s : State) : Prop where
  /-- `BUSY` says that `TOP` is `GEN`, `RUN` or `VOTING` (R27). -/
  busy_iff : s.status.busy = true ↔ s.top = .gen ∨ s.top = .run ∨ s.top = .voting
  /-- `HALT` says that `TOP` is `HALTED` (R246). -/
  halt_iff : s.status.halt = true ↔ s.top = .halted
  /-- `CAUSE` is 0 exactly when `HALT = 0` (R27, R240). -/
  cause_iff : s.status.cause = .none ↔ s.status.halt = false
  /-- `VALID` is 0 while a checksum is computed and once halted (R27). -/
  valid_only : s.status.valid = true → s.top = .idle ∨ s.top = .gen
  /-- A call runs only after `INIT` (R77). -/
  call_after_init : s.top = .run ∨ s.top = .voting → s.status.initDone = true
  /-- The generator runs only before `INIT_DONE` (R102). -/
  gen_before_done : s.top = .gen → s.status.initDone = false
  /-- A running call has its whole buffer, within the bound (R25, R142). -/
  buffer_whole : s.top = .run → s.buf.length = s.len ∧ s.len ≤ Config.maxInputSize
  /-- Channels are idle outside a call. -/
  channels_idle : s.top = .idle ∨ s.top = .gen → s.chp = Tri.all .chIdle
  /-- The Voter runs only when all three channels are done (R212). -/
  channels_done : s.top = .voting → s.chp = Tri.all .chDone
  /-- `POS[c]` stays within `LEN` (R26). -/
  pos_within : s.top = .run → ∀ c, s.chp.get c ≠ .chIdle → s.pos.get c ≤ s.len
  /-- The Hardware Engine is selected only where it exists and the CPU has it (R143, R184, R185). -/
  engine_exists : s.top = .run → s.eng = .hw → s.cfg.target.arch ≠ .none ∧ s.cfg.target.hwCap = true

/-- The place of the pair `(c, i)` in a loop over channels and then indexes (40_table_generator.md R122). -/
def entryPlace (c : Channel) (i : Byte) : Nat :=
  (match c with
    | .c0 => 0
    | .c1 => 256
    | .c2 => 512) + i.toNat

/-- The tables of channels 1 and 2 equal channel 0's: all of them once `INIT` is done, the ones already compared while it
checks (10_state.md R21, 40_table_generator.md R122, R123). -/
structure TableInv (s : State) : Prop where
  equal_after_init : s.status.initDone = true → ∀ c, s.tbl.get c = s.tbl.c0
  check_from_one : s.top = .gen → s.gph = .check → s.gc ≠ .c0
  equal_so_far : s.top = .gen → s.gph = .check → ∀ c i, c ≠ .c0 → entryPlace c i < entryPlace s.gc s.gi →
    tableRead (s.tbl.get c) i = tableRead s.tbl.c0 i
  equal_at_finish : s.top = .gen → s.gph = .finish → ∀ c, s.tbl.get c = s.tbl.c0

/-- The accumulator a channel must hold after consuming the bytes `bs` from the seed: byte steps in ascending order, by
the table of the channel or by the 8-bit form (42_software_engine.md R164, 43_hardware_engine.md R182). -/
def accAfter (s : State) (c : Channel) (bs : List Byte) : Word :=
  match s.eng with
  | .sw => bs.foldl (swStep (s.tbl.get c)) (~~~s.seed)
  | .hw => bs.foldl hw8 (~~~s.seed)

/-- Every started channel's accumulator is that of the bytes it has consumed, and a channel that is done has consumed them
all (R164, R182). -/
structure AccumulatorInv (s : State) : Prop where
  acc_of_consumed : s.top = .run → ∀ c, s.chp.get c ≠ .chIdle → s.acc.get c = accAfter s c (s.buf.take (s.pos.get c))
  done_consumed_all : s.top = .run → ∀ c, s.chp.get c = .chDone → s.pos.get c = s.len

/-- How many micro-operations one channel takes over `len` bytes (70_reset_and_hazards.md R292): `CHINIT`, the steps,
`CHFIN`. -/
def channelSteps (eng : Engine) (len : Nat) : Nat :=
  match eng with
  | .sw => len + 2
  | .hw => len / 8 + len % 8 + 2

/-- The steps of a whole checksum command after its acceptance: three channels, the passage to the Voter, the Voter. -/
def callSteps (eng : Engine) (len : Nat) : Nat := 3 * channelSteps eng len + 2

/-- The steps of `INIT` after its acceptance: 768 `TBLENT`, 512 comparisons (R292), and its completion. -/
def initSteps : Nat := 768 + 512 + 1

end Sys2Proof.Machine
end

