-- ==== Sys2Proof/Certificates/Slice0/Obligations.lean ====
section
/-! DEFINITION. The statements for the provers. Each docstring names the rules of the spec it formalises; a model's choice
is named with its log entry. -/

open Sys2Proof Sys2Proof.Machine

/-! ### Encoding -/

/-- Words written out from the spec's encodings (30_encoding.md R92, R93, R98; 95_test_vectors.md) decode to the commands
and micro-operations they stand for. -/
def Obligations.WordsOfTheSpecDecode : Prop :=
  decodeCommand { cw := 0x33333333222222221111111101#104, data := [] } = .ok .init ∧
  decodeCommand { cw := 0x0000000000000004DEADBEEF02#104, data := [0x74#8, 0x65#8, 0x73#8, 0x74#8] } =
    .ok (.crc32c 0xDEADBEEF#32 4#32 [0x74#8, 0x65#8, 0x73#8, 0x74#8]) ∧
  decodeCommand { cw := 0x00000000000000010000000003#104, data := [0x61#8] } = .ok (.crc32cSw 0#32 1#32 [0x61#8]) ∧
  decodeCommand { cw := 0x00000000000000000000000004#104, data := [] } = .ok (.crc32cHw 0#32 0#32 []) ∧
  decodeCommand { cw := 0x00000000001000010000000002#104, data := [] } = .ok (.crc32c 0#32 0x00100001#32 []) ∧
  decodeCommand { cw := 0xE3069282E3069283DEADBEEF05#104, data := [] } =
    .ok (.vote 0xDEADBEEF#32 0xE3069283#32 0xE3069282#32) ∧
  decodeCommand { cw := 0x00000000000000000000000006#104, data := [] } = .ok .detect ∧
  decodeCommand { cw := 0x00000000000000000000000007#104, data := [] } = .ok .rdwcHw ∧
  decodeCommand { cw := 0x00000000000000000000000008#104, data := [] } = .ok .rdwcSw ∧
  decodeMicro 0b110001#6 = .ok .tblbit ∧ decodeMicro 0b000010#6 = .ok .tblent ∧
  decodeMicro 0b010011#6 = .ok (.chinit .c1) ∧ decodeMicro 0b100100#6 = .ok (.swstep .c2) ∧
  decodeMicro 0b000101#6 = .ok (.hwstep8 .c0) ∧ decodeMicro 0b010110#6 = .ok (.hwstep64 .c1) ∧
  decodeMicro 0b100111#6 = .ok (.chfin .c2)

/-- Decode and encode agree on every well-formed instruction, with every operand value (R92, R93, R94, R98). -/
def Obligations.DecodeOfEncodeIsTheInstruction : Prop :=
  ∀ i : Instr, i.wf = true → decode (encode i) = .ok i

/-- Whatever decodes is well formed: no word with a bad `DATA` length and no word of channel 3 gets through (R94, R96). -/
def Obligations.DecodedInstructionIsWellFormed : Prop :=
  ∀ (e : Encoded) (i : Instr), decode e = .ok i → i.wf = true

/-- Two presentations spell the same command exactly when they agree on `OP` and on every field that `OP`'s format uses
(R92); `DATA` counts for format HB within the length bound only (R94). -/
def Obligations.IgnoredFieldsAreIgnoredAndNoOthers : Prop :=
  ∀ (p q : Presentation) (i : Instr), decodeCommand p = .ok i →
    (decodeCommand q = .ok i ↔
      cwOp q.cw = cwOp p.cw ∧
      match i with
      | .crc32c seed len data | .crc32cSw seed len data | .crc32cHw seed len data =>
        cwA q.cw = seed ∧ cwB q.cw = len ∧ (len.toNat ≤ 1048576 → q.data = data)
      | .vote r0 r1 r2 => cwA q.cw = r0 ∧ cwB q.cw = r1 ∧ cwC q.cw = r2
      | _ => True)

/-- R96: a reserved opcode, or a format-HB command whose `DATA` is not of `LEN` bytes, spells no command; presented, now or
as the host's next one at the idle block, it is refused by name: no step, so no state change, no response, and no
no-operation. R98: a reserved micro-operation word that is issued is refused in the same way. The refusals' names and the two
ways of presenting are the model's (log entries 8, 19). (What else is pending must be well-formed for the configuration,
R184, log entry 18.) -/
def Obligations.ReservedAndMalformedCommandsAreRefused : Prop :=
  (∀ p : Presentation,
    (cwOp p.cw = 0x00#8 ∨ 0x09#8 ≤ cwOp p.cw → decodeCommand p = .error (.reservedOpcode (cwOp p.cw))) ∧
    (cwOp p.cw = 0x02#8 ∨ cwOp p.cw = 0x03#8 ∨ cwOp p.cw = 0x04#8 →
      (cwB p.cw).toNat ≤ 1048576 → p.data.length ≠ (cwB p.cw).toNat →
      decodeCommand p = .error (.malformedData (cwB p.cw) p.data.length))) ∧
  (∀ (s : State) (a : Arrival) (e : DecodeError) (rest : List Event), decodeCommand a.cmd = .error e →
    s.sequenceExists = true →
    (s.events = .command a :: rest → step s = .refused (.invalid e)) ∧
    (∀ q : List Arrival, s.Proceeds rest → s.top = .idle → s.hostQueue = a :: q → step s = .refused (.invalid e))) ∧
  (∀ (s : State) (uw : BitVec 6) (e : DecodeError) (rest : List Event), decodeMicro uw = .error e →
    s.sequenceExists = true → s.events = .uop uw :: rest → step s = .refused (.invalid e))

/-- R98: `UOP = 0x0` and `0x8` to `0xF` are reserved, and so is `CH = 3` of an operation on a channel; the two pure
operations ignore `CH`. -/
def Obligations.MicroOperationWordsDecodeByTheMap : Prop :=
  ∀ uw : BitVec 6,
    (uwOp uw = 0x0#4 ∨ 0x8#4 ≤ uwOp uw → decodeMicro uw = .error (.reservedMicroOp (uwOp uw))) ∧
    (0x3#4 ≤ uwOp uw → uwOp uw ≤ 0x7#4 → uwCh uw = 3#2 → decodeMicro uw = .error .reservedChannel) ∧
    (uwOp uw = 0x1#4 → decodeMicro uw = .ok .tblbit) ∧
    (uwOp uw = 0x2#4 → decodeMicro uw = .ok .tblent) ∧
    (∀ c : Channel, uwCh uw = c.code →
      (uwOp uw = 0x3#4 → decodeMicro uw = .ok (.chinit c)) ∧
      (uwOp uw = 0x4#4 → decodeMicro uw = .ok (.swstep c)) ∧
      (uwOp uw = 0x5#4 → decodeMicro uw = .ok (.hwstep8 c)) ∧
      (uwOp uw = 0x6#4 → decodeMicro uw = .ok (.hwstep64 c)) ∧
      (uwOp uw = 0x7#4 → decodeMicro uw = .ok (.chfin c)))

/-! ### A step runs the decoded instruction -/

/-- A command presented now, and one the host presents to the idle block, is run by `exec` on the state without it and with
the masks drawn for it (R30). A micro-operation the schedule issues, and one the sequencer selects itself, is run by `exec`
too; in the building loop of `INIT` a `TBLENT` is given `GI` as its operand and followed by the table write (41_dispatcher.md
R149). The event list, the host's queue, the default order and the place of a pure operand are the model's (log entries 7, 8,
10, 16). The sequence pending must be well-formed for the configuration (R184). -/
def Obligations.StepRunsTheDecodedInstruction : Prop :=
  ∀ (s : State) (i : Instr) (rest : List Event), s.sequenceExists = true →
    (∀ a : Arrival, s.events = .command a :: rest → decodeCommand a.cmd = .ok i →
      step s = exec i { s with events := rest, eRes := a.draw.eRes, eTbl := a.draw.eTbl }) ∧
    (∀ (a : Arrival) (q : List Arrival), s.Proceeds rest → s.top = .idle → s.hostQueue = a :: q →
      decodeCommand a.cmd = .ok i →
      step s = exec i { s with events := rest, hostQueue := q, eRes := a.draw.eRes, eTbl := a.draw.eTbl }) ∧
    (∀ uw : BitVec 6, s.events = .uop uw :: rest → decodeMicro uw = .ok i → s.top ≠ .halted →
      ¬ (i = .tblent ∧ s.top = .gen ∧ s.gph = .build) → step s = exec i { s with events := rest }) ∧
    (s.Proceeds rest → s.top = .run → nextMicro s = some i → step s = exec i { s with events := rest }) ∧
    ((∃ uw, s.events = .uop uw :: rest ∧ decodeMicro uw = .ok .tblent) ∨ s.Proceeds rest →
      s.top = .gen → s.gph = .build →
      ∀ t, exec .tblent { s with events := rest, gx := s.gi.setWidth 32 } = .next t → step s = .next t.storeEntry)

/-- A word placed by `withFetchWord` is what the next step runs, from every state whose pending sequence is well-formed: a
command word is given to `exec` in that state (`CRC32C.HW` in a configuration that has the engine), a micro-operation word in
the state where the sequencer selects it, and it completes there (the model's own means, log entry 11). -/
def Obligations.PlacedWordIsRunNext : Prop :=
  ∀ (s : State) (w : Nat) (i : Instr), s.sequenceExists = true →
    (decodeTableWord 104 w = some i → step (s.withFetchWord 104 w) = exec i (s.selecting i) ∧
      ((∀ seed len data, i ≠ .crc32cHw seed len data) → s.selecting i = s)) ∧
    (decodeTableWord 8 w = some i → ∃ t, exec i (beforeMicro i (s.selecting i)) = .next t ∧
      step (s.withFetchWord 8 w) = .next (afterMicro i t))

/-! ### Reset -/

/-- R34: what the spec gives a value at reset has it, and what it gives none reads as none: the tables, the accumulators,
the results, `CKSUM`. -/
def Obligations.ResetValuesOfTheSpec : Prop :=
  (∀ c, tableOf State.reset c = none ∧ State.reset.readAcc c = none ∧ State.reset.readRes c = none) ∧
  State.reset.readCksum = none ∧
  State.reset.top = .idle ∧ (∀ c, State.reset.chp.get c = .chIdle) ∧
  State.reset.status = { initDone := false, valid := false, halt := false, cause := .none, busy := false } ∧
  State.reset.status.word = 0x00#8 ∧
  State.reset.cfg = { target := Config.target, hwEn := Config.hwEn } ∧
  State.reset.wcpbHw = Config.wcpbHw ∧ State.reset.wcpbSw = Config.wcpbSw ∧
  Config.poly = 0x82F63B78#32 ∧ Config.maxInputSize = 1048576 ∧ Config.wordBytes = 8

/-- R280, R281: asserting `RESET` in any state, also during a command and also when halted, gives `STATUS = 0x00`, `TOP =
IDLE`, idle channels, tables that hold no value, no response; `CFG` and the tunables keep their values (log entry 9). (The
sequence pending must be well-formed for the configuration, R184.) -/
def Obligations.ResetEventFromAnyState : Prop :=
  ∀ (s : State) (rest : List Event), s.sequenceExists = true → s.events = .reset :: rest →
    ∃ t, step s = .next t ∧ t.status.word = 0x00#8 ∧ t.top = .idle ∧ t.chp = Tri.all .chIdle ∧
      (∀ c, tableOf t c = none) ∧ t.readCksum = none ∧ (∀ c, t.readAcc c = none ∧ t.readRes c = none) ∧
      t.rsp = none ∧ t.cfg = s.cfg ∧ t.wcpbHw = s.wcpbHw ∧ t.wcpbSw = s.wcpbSw ∧ t.events = rest ∧
      t.hostQueue = s.hostQueue ∧ t.eRes = s.eRes ∧ t.eTbl = s.eTbl

/-! ### Admission -/

/-- R102: a well-formed host command has a step exactly when the table of R102 admits it (`Admitted`); otherwise it is
refused: no state changes and no response is given. -/
def Obligations.AdmittedExactlyWhenTheSpecSays : Prop :=
  ∀ (s : State) (i : Instr), i.wf = true → isHostCommand i = true →
    ((∃ t, exec i s = .next t) ↔ Admitted s i) ∧ ((∃ r, exec i s = .refused r) ↔ ¬ Admitted s i)

/-- R149: a micro-operation of a channel has a step exactly in its enabling row, given that the buffer and the tables hold
what it reads; those of the Hardware Engine only where the engine exists (R184). -/
def Obligations.EnabledExactlyInItsRow : Prop :=
  ∀ (s : State) (c : Channel), s.buf.length = s.len → s.status.initDone = true →
    ((∃ t, exec (.chinit c) s = .next t) ↔ s.top = .run ∧ s.chp.get c = .chIdle) ∧
    ((∃ t, exec (.swstep c) s = .next t) ↔
      s.top = .run ∧ s.chp.get c = .chRun ∧ s.eng = .sw ∧ s.pos.get c < s.len) ∧
    ((∃ t, exec (.hwstep64 c) s = .next t) ↔
      s.cfg.target.arch ≠ .none ∧ s.top = .run ∧ s.chp.get c = .chRun ∧ s.eng = .hw ∧ s.len - s.pos.get c ≥ 8) ∧
    ((∃ t, exec (.hwstep8 c) s = .next t) ↔
      s.cfg.target.arch ≠ .none ∧ s.top = .run ∧ s.chp.get c = .chRun ∧ s.eng = .hw ∧ 0 < s.len - s.pos.get c ∧ s.len - s.pos.get c < 8) ∧
    ((∃ t, exec (.chfin c) s = .next t) ↔ s.top = .run ∧ s.chp.get c = .chRun ∧ s.pos.get c = s.len)

/-- R102, R184, R185, R247, R288: what is not admitted is refused by the name of the condition that fails. -/
def Obligations.RefusedByTheConditionThatFails : Prop :=
  ∀ (s : State) (i : Instr) (seed len : Word) (data : List Byte), isHostCommand i = true →
    (s.status.halt = true → exec i s = .refused .halted) ∧
    (s.status.halt = false → s.status.busy = true → exec i s = .refused .busy) ∧
    (s.status.halt = false → s.status.busy = false →
      (s.status.initDone = true → exec .init s = .refused .alreadyInitialised) ∧
      (s.status.initDone = false →
        exec (.crc32c seed len data) s = .refused .notInitialised ∧
        exec (.crc32cSw seed len data) s = .refused .notInitialised ∧
        exec (.crc32cHw seed len data) s = .refused .notInitialised) ∧
      (s.status.initDone = true → s.cfg.target.arch = .none →
        exec (.crc32cHw seed len data) s = .refused .engineAbsent) ∧
      (s.status.initDone = true → s.cfg.target.arch ≠ .none → s.cfg.target.hwCap = false →
        exec (.crc32cHw seed len data) s = .refused .capabilityMissing))

/-- Outside its enabling row a micro-operation on a channel is refused, and one of the absent Hardware Engine everywhere
(R184); where it would read a table or a buffer byte that holds no value it faults (41_dispatcher.md R149; 10_state.md R33;
20_memory.md R72). -/
def Obligations.MicroOperationStops : Prop :=
  ∀ (s : State) (c : Channel),
    (chinitEnabled s c = false → exec (.chinit c) s = .refused .notEnabled) ∧
    (swstepEnabled s c = false → exec (.swstep c) s = .refused .notEnabled) ∧
    (s.cfg.target.arch = .none →
      exec (.hwstep8 c) s = .refused .engineAbsent ∧ exec (.hwstep64 c) s = .refused .engineAbsent) ∧
    (s.cfg.target.arch ≠ .none → hwstep8Enabled s c = false → exec (.hwstep8 c) s = .refused .notEnabled) ∧
    (s.cfg.target.arch ≠ .none → hwstep64Enabled s c = false → exec (.hwstep64 c) s = .refused .notEnabled) ∧
    (chfinEnabled s c = false → exec (.chfin c) s = .refused .notEnabled) ∧
    (swstepEnabled s c = true → s.buf.length ≤ s.pos.get c → exec (.swstep c) s = .fault .outsideBuffer) ∧
    (swstepEnabled s c = true → s.pos.get c < s.buf.length → s.status.initDone = false →
      exec (.swstep c) s = .fault .tableHoldsNoValue) ∧
    (s.cfg.target.arch ≠ .none → hwstep8Enabled s c = true → s.buf.length ≤ s.pos.get c →
      exec (.hwstep8 c) s = .fault .outsideBuffer) ∧
    (s.cfg.target.arch ≠ .none → hwstep64Enabled s c = true → s.buf.length < s.pos.get c + 8 →
      exec (.hwstep64 c) s = .fault .outsideBuffer)

/-! ### The CRC Table Generator -/

/-- R120, R121: `TBLBIT` is one bit iteration and `TBLENT` eight of them from the zero-extended byte; both are pure, so
no element of the block changes (that the operand and the result stand in the model's field `gx`, the byte in its low 8
bits, is log entry 7). -/
def Obligations.PureMicroOperations : Prop :=
  ∀ s : State,
    exec .tblbit s = .next { s with
      gx := if s.gx.getLsbD 0 = true then (s.gx >>> 1) ^^^ 0x82F63B78#32 else s.gx >>> 1 } ∧
    exec .tblent s = .next { s with
      gx := bitStep (bitStep (bitStep (bitStep (bitStep (bitStep (bitStep (bitStep ((s.gx.setWidth 8).setWidth 32)))))))) }

/-- R125: (a) `TblEntry` is linear over exclusive or, so the table follows from the eight entries listed; (b) eight bit
iterations of `x ^ zext_32(b)` are one table-driven step. (c), that an entry depends on its index alone, is the type of
`TblEntry`. -/
def Obligations.LawsOfTheTable : Prop :=
  (∀ a b : Byte, tblEntry (a ^^^ b) = tblEntry a ^^^ tblEntry b) ∧
  tblEntry 0x01#8 = 0xF26B8303#32 ∧ tblEntry 0x02#8 = 0xE13B70F7#32 ∧ tblEntry 0x04#8 = 0xC79A971F#32 ∧
  tblEntry 0x08#8 = 0x8AD958CF#32 ∧ tblEntry 0x10#8 = 0x105EC76F#32 ∧ tblEntry 0x20#8 = 0x20BD8EDE#32 ∧
  tblEntry 0x40#8 = 0x417B1DBC#32 ∧ tblEntry 0x80#8 = 0x82F63B78#32 ∧
  (∀ (x : Word) (b : Byte),
    bitSteps 8 (x ^^^ b.setWidth 32) = (x >>> 8) ^^^ tblEntry (((x ^^^ b.setWidth 32) &&& 0xFF#32).setWidth 8))

/-- R149, R122: `INIT` is accepted and the generator starts at entry `(0, 0)`; nothing else changes. -/
def Obligations.InitStartsTheGenerator : Prop :=
  ∀ s : State, s.status.halt = false → s.status.busy = false → s.status.initDone = false →
    exec .init s = .next { s with
      status := { s.status with busy := true }, top := .gen, gph := .build, gc := .c0, gi := 0#8 }

/-- R122: in the building loop a step writes one entry, `TblEntry(GI) ^ E_TBL[GC][GI]`, and no other, and goes to the next
index, after 255 to the next channel, after entry `(2, 255)` to the checking loop at `(1, 0)`; in the checking loop it
compares one entry with channel 0's and goes on in the same way, after `(2, 255)` to the completion; then `INIT` completes.
That the building loop runs whole before the checking loop, and that the completion is a step, is log entry 6; what the fatal
entry keeps is log entries 4 and 15. -/
def Obligations.GeneratorSteps : Prop :=
  ∀ (s : State) (rest : List Event), s.sequenceExists = true → s.Proceeds rest → s.top = .gen →
    (s.gph = .build → ∃ t, step s = .next t ∧
      (∀ c i, tableRead (t.tbl.get c) i =
        if c = s.gc ∧ i = s.gi then tblEntry s.gi ^^^ tableRead (s.eTbl.get s.gc) s.gi else tableRead (s.tbl.get c) i) ∧
      t = { s with events := rest, tbl := t.tbl, gx := tblEntry s.gi, gph := t.gph, gc := t.gc, gi := t.gi } ∧
      (s.gi ≠ 255#8 → t.gph = .build ∧ t.gc = s.gc ∧ t.gi = s.gi + 1#8) ∧
      (s.gi = 255#8 → s.gc = .c0 → t.gph = .build ∧ t.gc = .c1 ∧ t.gi = 0#8) ∧
      (s.gi = 255#8 → s.gc = .c1 → t.gph = .build ∧ t.gc = .c2 ∧ t.gi = 0#8) ∧
      (s.gi = 255#8 → s.gc = .c2 → t.gph = .check ∧ t.gc = .c1 ∧ t.gi = 0#8)) ∧
    (s.gph = .check → tableRead (s.tbl.get s.gc) s.gi ≠ tableRead s.tbl.c0 s.gi →
      step s = .next (State.raiseFatal { s with events := rest } .tableMismatch)) ∧
    (s.gph = .check → tableRead (s.tbl.get s.gc) s.gi = tableRead s.tbl.c0 s.gi → ∃ t, step s = .next t ∧
      t = { s with events := rest, gph := t.gph, gc := t.gc, gi := t.gi } ∧
      (s.gi ≠ 255#8 → t.gph = .check ∧ t.gc = s.gc ∧ t.gi = s.gi + 1#8) ∧
      (s.gi = 255#8 → s.gc = .c0 → t.gph = .check ∧ t.gc = .c1 ∧ t.gi = 0#8) ∧
      (s.gi = 255#8 → s.gc = .c1 → t.gph = .check ∧ t.gc = .c2 ∧ t.gi = 0#8) ∧
      (s.gi = 255#8 → s.gc = .c2 → t.gph = .finish)) ∧
    (s.gph = .finish → step s = .next { s with
      events := rest, status := { s.status with initDone := true, busy := false }, top := .idle, rsp := some .done,
      rspCount := s.rspCount + 1 })

/-- R122: from an admitted `INIT`, left to itself (log entries 8, 18), with masks that agree in all copies of every entry, the block answers
`DONE` after exactly 768 + 512 + 1 steps; every entry is the formula's with its mask, `VALID` and `CKSUM` are not touched,
and nothing of a call, of the configuration or of the ports changes. -/
def Obligations.InitRunBuildsTheTables : Prop :=
  ∀ s : State, s.status.halt = false → s.status.busy = false → s.status.initDone = false → s.Undisturbed →
    (∀ c i, tableRead (s.eTbl.get c) i = tableRead s.eTbl.c0 i) →
    ∃ t u : State, exec .init s = .next t ∧ Host.Core.run core 1281 t = .next u ∧
      (∀ c i, tableRead (u.tbl.get c) i = tblEntry i ^^^ tableRead (s.eTbl.get c) i) ∧
      u = { s with
        tbl := u.tbl, gx := u.gx, gph := u.gph, gc := u.gc, gi := u.gi
        status := { s.status with initDone := true, busy := false }
        top := .idle
        rsp := some .done
        rspCount := s.rspCount + 1 }

/-- R122, R123, R243: from an admitted `INIT` (R102), left to itself (no event due, what the host has still to present
well-formed for the configuration: log entries 8, 18), if some entry's mask of channel 1 or 2 differs from channel 0's, `INIT`
ends in `FATAL(TABLE_MISMATCH)` within the same number of steps, with `INIT_DONE` still 0. -/
def Obligations.InitRunReportsAMismatch : Prop :=
  ∀ s : State, s.status.halt = false → s.status.busy = false → s.status.initDone = false → s.Undisturbed →
    (∃ c i, tableRead (s.eTbl.get c) i ≠ tableRead s.eTbl.c0 i) →
    ∃ (t : State) (n : Nat) (u : State), exec .init s = .next t ∧ n ≤ 1281 ∧ Host.Core.run core n t = .next u ∧
      u.top = .halted ∧ u.rsp = some (.fatal .tableMismatch) ∧
      u.status = { initDone := false, valid := false, halt := true, cause := .tableMismatch, busy := false }

/-! ### Micro-operations of a channel: result and frame -/

/-- R160: `CHINIT`: its word, its enabling condition, its effect and nothing else. -/
def Obligations.ChinitStartsTheChannel : Prop :=
  ∀ (s : State) (c : Channel),
    decodeMicro (c.code ++ 0x3#4) = .ok (.chinit c) ∧
    (s.top = .run → s.chp.get c = .chIdle →
      exec (.chinit c) s = .next { s with
        acc := s.acc.set c (s.seed ^^^ 0xFFFFFFFF#32), pos := s.pos.set c 0, chp := s.chp.set c .chRun }) ∧
    (¬ (s.top = .run ∧ s.chp.get c = .chIdle) → exec (.chinit c) s = .refused .notEnabled)

/-- R161: `SWSTEP`: its word, its enabling condition; it consumes the byte at `POS[c]` through the channel's own table,
which must hold values (R33), and does nothing else. -/
def Obligations.SwstepConsumesOneByte : Prop :=
  ∀ (s : State) (c : Channel) (b : Byte),
    decodeMicro (c.code ++ 0x4#4) = .ok (.swstep c) ∧
    (s.top = .run → s.chp.get c = .chRun → s.eng = .sw → s.pos.get c < s.len →
      s.buf[s.pos.get c]? = some b → s.status.initDone = true →
      exec (.swstep c) s = .next { s with
        acc := s.acc.set c ((s.acc.get c >>> 8) ^^^
          tableRead (s.tbl.get c) (((s.acc.get c ^^^ b.setWidth 32) &&& 0xFF#32).setWidth 8))
        pos := s.pos.set c (s.pos.get c + 1) }) ∧
    (¬ (s.top = .run ∧ s.chp.get c = .chRun ∧ s.eng = .sw ∧ s.pos.get c < s.len) →
      exec (.swstep c) s = .refused .notEnabled)

/-- R180: `HWSTEP8`: its word, its enabling condition; it consumes the byte at `POS[c]` by eight bit iterations, without a
table, and does nothing else; on the fault-free table `Hw8` is `SwStep`. Where `ARCH = NONE` it does not exist (R184). -/
def Obligations.HwstepEightConsumesOneByte : Prop :=
  ∀ (s : State) (c : Channel) (b : Byte),
    decodeMicro (c.code ++ 0x5#4) = .ok (.hwstep8 c) ∧
    (s.cfg.target.arch ≠ .none →
      s.top = .run → s.chp.get c = .chRun → s.eng = .hw → s.len - s.pos.get c < 8 → s.pos.get c < s.len →
      s.buf[s.pos.get c]? = some b →
      exec (.hwstep8 c) s = .next { s with
        acc := s.acc.set c (bitSteps 8 (s.acc.get c ^^^ b.setWidth 32))
        pos := s.pos.set c (s.pos.get c + 1) }) ∧
    (s.cfg.target.arch ≠ .none →
      ¬ (s.top = .run ∧ s.chp.get c = .chRun ∧ s.eng = .hw ∧ s.len - s.pos.get c < 8 ∧ s.pos.get c < s.len) →
      exec (.hwstep8 c) s = .refused .notEnabled) ∧
    (s.cfg.target.arch = .none → exec (.hwstep8 c) s = .refused .engineAbsent) ∧
    (∀ crc : Word, hw8 crc b = swStep goodTable crc b)

/-- R65: `Word64(k)` is little-endian: byte `j` of the word is the byte at index `k + j`; it is defined exactly where the
eight bytes are. -/
def Obligations.WordAssemblyIsLittleEndian : Prop :=
  ∀ (s : State) (k : Nat),
    (∀ w, word64 s k = some w → ∀ j, j < 8 → bufRead s (k + j) = some (w.extractLsb' (8 * j) 8)) ∧
    ((∃ w, word64 s k = some w) ↔ k + 7 < s.buf.length)

/-- R181: `HWSTEP64`: its word, its enabling condition; it consumes the eight bytes from `POS[c]`, read as one
little-endian word (R65), by `Hw64`, and does nothing else. `Hw64` takes the word's bytes through `Hw8`, the least
significant first; equally, by the spec's definition without the byte loop, it is 64 bit iterations of the word
exclusive-ored with the zero-extended accumulator, which leave the upper half zero. Where `ARCH = NONE` it does not exist
(R184). -/
def Obligations.HwstepSixtyFourConsumesAWord : Prop :=
  ∀ (s : State) (c : Channel) (b0 b1 b2 b3 b4 b5 b6 b7 : Byte),
    decodeMicro (c.code ++ 0x6#4) = .ok (.hwstep64 c) ∧
    (s.cfg.target.arch ≠ .none →
      s.top = .run → s.chp.get c = .chRun → s.eng = .hw → s.len - s.pos.get c ≥ 8 →
      s.buf[s.pos.get c]? = some b0 → s.buf[s.pos.get c + 1]? = some b1 → s.buf[s.pos.get c + 2]? = some b2 →
      s.buf[s.pos.get c + 3]? = some b3 → s.buf[s.pos.get c + 4]? = some b4 → s.buf[s.pos.get c + 5]? = some b5 →
      s.buf[s.pos.get c + 6]? = some b6 → s.buf[s.pos.get c + 7]? = some b7 →
      exec (.hwstep64 c) s = .next { s with
        acc := s.acc.set c (hw8 (hw8 (hw8 (hw8 (hw8 (hw8 (hw8 (hw8 (s.acc.get c) b0) b1) b2) b3) b4) b5) b6) b7)
        pos := s.pos.set c (s.pos.get c + 8) }) ∧
    (s.cfg.target.arch ≠ .none →
      ¬ (s.top = .run ∧ s.chp.get c = .chRun ∧ s.eng = .hw ∧ s.len - s.pos.get c ≥ 8) →
      exec (.hwstep64 c) s = .refused .notEnabled) ∧
    (s.cfg.target.arch = .none → exec (.hwstep64 c) s = .refused .engineAbsent) ∧
    (∀ crc : Word,
      (List.range 64).foldl
        (fun (x : BitVec 64) _ => (x >>> 1) ^^^ (if x.getLsbD 0 = true then (0x82F63B78#32).setWidth 64 else 0#64))
        (crc.setWidth 64 ^^^ (b7 ++ b6 ++ b5 ++ b4 ++ b3 ++ b2 ++ b1 ++ b0 : BitVec 64)) =
      (hw8 (hw8 (hw8 (hw8 (hw8 (hw8 (hw8 (hw8 crc b0) b1) b2) b3) b4) b5) b6) b7).setWidth 64)

/-- R162: `CHFIN`: its word, its enabling condition; it latches the complemented accumulator with the environment's mask
and does nothing else. -/
def Obligations.ChfinLatchesTheResult : Prop :=
  ∀ (s : State) (c : Channel),
    decodeMicro (c.code ++ 0x7#4) = .ok (.chfin c) ∧
    (s.top = .run → s.chp.get c = .chRun → s.pos.get c = s.len →
      exec (.chfin c) s = .next { s with
        res := s.res.set c ((~~~(s.acc.get c)) ^^^ s.eRes.get c), chp := s.chp.set c .chDone }) ∧
    (¬ (s.top = .run ∧ s.chp.get c = .chRun ∧ s.pos.get c = s.len) → exec (.chfin c) s = .refused .notEnabled)

/-- R165: with fault-free tables and no mask, `CHFIN` leaves `CRC32C(SEED, BUF)` in `RES[c]`: on either engine and under
every schedule, for the accumulator is what the bytes consumed make it (the invariant `AccumulatorInv`). -/
def Obligations.ChannelEndsWithTheReference : Prop :=
  ∀ (s : State) (c : Channel), AccumulatorInv s → s.GoodTables → s.eRes.get c = 0#32 → s.buf.length = s.len →
    s.top = .run → s.chp.get c = .chRun → s.pos.get c = s.len →
    ∃ t, exec (.chfin c) s = .next t ∧ t.res.get c = crc32cRef s.seed s.buf

/-- R149: the rows of one channel exclude each other: at most one micro-operation of a channel has a step. -/
def Obligations.OneRowPerChannel : Prop :=
  ∀ (s t u : State) (i j : Instr) (c : Channel), channelOf i = some c → channelOf j = some c →
    exec i s = .next t → exec j s = .next u → i = j

/-- R76: micro-operations of different channels commute: neither disables the other, and both orders end in the same
state. -/
def Obligations.ChannelsAreIsolated : Prop :=
  ∀ (s t u : State) (i j : Instr) (c d : Channel), channelOf i = some c → channelOf j = some d → c ≠ d →
    exec i s = .next t → exec j s = .next u → ∃ v, exec j t = .next v ∧ exec i u = .next v

/-! ### The checksum commands: acceptance, the length check, the whole call -/

/-- R149, R141, R163, R183: an admitted checksum command within the bound clears `VALID`, sets `BUSY`, latches its
operands and starts the channels on the engine that the command, or `Select()`, names; nothing else changes. -/
def Obligations.ChecksumCommandsStartACall : Prop :=
  ∀ (s : State) (seed len : Word) (data : List Byte), s.status.halt = false → s.status.busy = false →
    s.status.initDone = true → len.toNat ≤ 1048576 → data.length = len.toNat →
    (exec (.crc32cSw seed len data) s = .next { s with
      status := { s.status with valid := false, busy := true }, top := .run, eng := .sw, seed := seed,
      len := len.toNat, buf := data }) ∧
    (s.cfg.target.arch ≠ .none → s.cfg.target.hwCap = true →
      exec (.crc32cHw seed len data) s = .next { s with
        status := { s.status with valid := false, busy := true }, top := .run, eng := .hw, seed := seed,
        len := len.toNat, buf := data }) ∧
    (exec (.crc32c seed len data) s = .next { s with
      status := { s.status with valid := false, busy := true }, top := .run
      eng := if s.cfg.target.arch ≠ .none ∧ s.cfg.target.hwCap = true ∧ s.cfg.hwEn = true then .hw else .sw
      seed := seed, len := len.toNat, buf := data })

/-- R241: above 1,048,576 bytes an admitted checksum command ends in `FATAL(INPUT_TOO_LARGE)` whatever the masks, the
configuration and `DATA`; no channel starts, `ENG` and the operand latches are not written (R142, R149). At 1,048,576
bytes, and below, it is not raised. That the fatal entry keeps `SEED`, `LEN`, `BUF`, `ENG`, `CHP`, `GC`, `GI` and the tables
is the model's choice (log entry 15). -/
def Obligations.InputTooLargeIsFatal : Prop :=
  ∀ (s : State) (seed len : Word) (data : List Byte) (i : Instr), s.status.halt = false → s.status.busy = false →
    s.status.initDone = true →
    (i = .crc32c seed len data ∨ i = .crc32cSw seed len data ∨
      (i = .crc32cHw seed len data ∧ s.cfg.target.arch ≠ .none ∧ s.cfg.target.hwCap = true)) →
    (len.toNat > 1048576 → ∃ t, exec i s = .next t ∧
      t.status = { initDone := true, valid := false, halt := true, cause := .inputTooLarge, busy := false } ∧
      t.rsp = some (.fatal .inputTooLarge) ∧
      t = { s with
        status := t.status, top := .halted, rsp := t.rsp, rspCount := s.rspCount + 1
        cksum := t.cksum, acc := t.acc, res := t.res, pos := t.pos }) ∧
    (len.toNat ≤ 1048576 → data.length = len.toNat →
      ∃ t, exec i s = .next t ∧ t.top = .run ∧ t.status.halt = false ∧ t.rsp = s.rsp)

/-- R163, R165, R212, R213, R214: a whole `CRC32C.SW` on fault-free tables, left to itself, under every value of the upset
masks: after exactly `3 (LEN + 2) + 2` steps the block has answered the majority of the three upset copies of
`CRC32C(SEED, DATA)`, or is halted by `NO_MAJORITY`. The tables, the configuration and the inputs are untouched (R146; at
`NO_MAJORITY` the tables are log entry 15). The run's order and what it leaves out are log entries 8 and 10. -/
def Obligations.SoftwareCallAnswersTheVote : Prop :=
  ∀ (s : State) (seed len : Word) (data : List Byte) (g : Word), s.Ready → s.Undisturbed → s.GoodTables →
    len.toNat ≤ 1048576 → data.length = len.toNat → g = crc32cRef seed data →
    ∃ t u : State, exec (.crc32cSw seed len data) s = .next t ∧
      Host.Core.run core (3 * (len.toNat + 2) + 2) t = .next u ∧
      (∀ v, voteOf (s.upset g .c0) (s.upset g .c1) (s.upset g .c2) = some v →
        u.Ready ∧ u.status.valid = true ∧ u.cksum = v ∧ u.rsp = some (.value v)) ∧
      (voteOf (s.upset g .c0) (s.upset g .c1) (s.upset g .c2) = none →
        u.top = .halted ∧ u.rsp = some (.fatal .noMajority) ∧
        u.status = { initDone := true, valid := false, halt := true, cause := .noMajority, busy := false }) ∧
      u.tbl = s.tbl ∧ u.cfg = s.cfg ∧ u.wcpbHw = s.wcpbHw ∧ u.wcpbSw = s.wcpbSw ∧ u.gx = s.gx ∧
      u.rspCount = s.rspCount + 1 ∧ u.eRes = s.eRes ∧ u.eTbl = s.eTbl ∧ u.events = [] ∧ u.hostQueue = s.hostQueue

/-- R183, R182, R186, R212: a whole `CRC32C.HW`, where admitted, under every value of the masks and whatever the tables
hold: the same answer after exactly `3 (LEN / 8 + LEN mod 8 + 2) + 2` steps (log entries 8, 10, 15 as there). -/
def Obligations.HardwareCallAnswersTheVote : Prop :=
  ∀ (s : State) (seed len : Word) (data : List Byte) (g : Word), s.Ready → s.Undisturbed →
    s.cfg.target.arch ≠ .none → s.cfg.target.hwCap = true →
    len.toNat ≤ 1048576 → data.length = len.toNat → g = crc32cRef seed data →
    ∃ t u : State, exec (.crc32cHw seed len data) s = .next t ∧
      Host.Core.run core (3 * (len.toNat / 8 + len.toNat % 8 + 2) + 2) t = .next u ∧
      (∀ v, voteOf (s.upset g .c0) (s.upset g .c1) (s.upset g .c2) = some v →
        u.Ready ∧ u.status.valid = true ∧ u.cksum = v ∧ u.rsp = some (.value v)) ∧
      (voteOf (s.upset g .c0) (s.upset g .c1) (s.upset g .c2) = none →
        u.top = .halted ∧ u.rsp = some (.fatal .noMajority) ∧
        u.status = { initDone := true, valid := false, halt := true, cause := .noMajority, busy := false }) ∧
      u.tbl = s.tbl ∧ u.cfg = s.cfg ∧ u.wcpbHw = s.wcpbHw ∧ u.wcpbSw = s.wcpbSw ∧ u.gx = s.gx ∧
      u.rspCount = s.rspCount + 1 ∧ u.eRes = s.eRes ∧ u.eTbl = s.eTbl ∧ u.events = [] ∧ u.hostQueue = s.hostQueue

/-- R141, R144, R147: on fault-free hardware a whole `CRC32C` answers `CRC32C(SEED, DATA)` whatever the configuration, so
whichever engine runs; the answer is a function of the seed and the buffer alone. The run is the model's default one (log
entries 8, 10). -/
def Obligations.DispatchedCallAnswersTheReference : Prop :=
  ∀ (s : State) (seed len : Word) (data : List Byte), s.Ready → s.Undisturbed → s.GoodTables →
    s.eRes = Tri.all 0#32 → len.toNat ≤ 1048576 → data.length = len.toNat →
    ∃ t u : State, exec (.crc32c seed len data) s = .next t ∧
      Host.Core.run core (callSteps t.eng len.toNat) t = .next u ∧
      u.Ready ∧ u.rsp = some (.value (crc32cRef seed data)) ∧ u.readCksum = some (crc32cRef seed data) ∧
      u.tbl = s.tbl ∧ u.cfg = s.cfg

/-- R214 (b): a fault in at most one channel is masked: if two of the three masks are zero, every admitted checksum command
answers `CRC32C(SEED, DATA)`. R214 holds under every schedule; the run here, its order and its number of steps are the
model's default ones, with no event (log entries 8, 10). -/
def Obligations.SingleUpsetIsMasked : Prop :=
  ∀ (s : State) (seed len : Word) (data : List Byte) (i : Instr) (c d : Channel), s.Ready → s.Undisturbed →
    s.GoodTables → c ≠ d → s.eRes.get c = 0#32 → s.eRes.get d = 0#32 →
    len.toNat ≤ 1048576 → data.length = len.toNat →
    (i = .crc32c seed len data ∨ i = .crc32cSw seed len data ∨
      (i = .crc32cHw seed len data ∧ s.cfg.target.arch ≠ .none ∧ s.cfg.target.hwCap = true)) →
    ∃ t u : State, exec i s = .next t ∧ Host.Core.run core (callSteps t.eng len.toNat) t = .next u ∧
      u.EndedWell ∧ u.readCksum = some (crc32cRef seed data) ∧ u.rsp = some (.value (crc32cRef seed data))

/-- R186: with fault-free tables and zero masks `CRC32C.HW` and `CRC32C.SW` answer the same value, `CRC32C(SEED, DATA)`,
for `Hw8` is `SwStep` on the fault-free table and `Hw64` is eight `Hw8` in ascending byte order. The two whole runs and their
numbers of steps are the model's default ones, with no event (log entries 8, 10). -/
def Obligations.EnginesAnswerTheSame : Prop :=
  (∀ (crc : Word) (b : Byte), hw8 crc b = swStep goodTable crc b) ∧
  (∀ (s : State) (k : Nat) (w : BitVec 64) (crc : Word), word64 s k = some w →
    hw64 crc w = ((s.buf.drop k).take 8).foldl hw8 crc) ∧
  ∀ (s : State) (seed len : Word) (data : List Byte), s.Ready → s.Undisturbed → s.GoodTables →
    s.eRes = Tri.all 0#32 → s.cfg.target.arch ≠ .none → s.cfg.target.hwCap = true →
    len.toNat ≤ 1048576 → data.length = len.toNat →
    ∃ t u t' u' : State, exec (.crc32cHw seed len data) s = .next t ∧
      Host.Core.run core (callSteps .hw len.toNat) t = .next u ∧
      exec (.crc32cSw seed len data) s = .next t' ∧
      Host.Core.run core (callSteps .sw len.toNat) t' = .next u' ∧
      u.rsp = some (.value (crc32cRef seed data)) ∧ u'.rsp = some (.value (crc32cRef seed data))

/-- R145: the checksum of `A` given as the seed for `B` is the checksum of `A || B`, for every seed and all byte strings,
and so two whole calls of the machine answer it, the host carrying the value; those runs and their numbers of steps are the
model's default ones, with no event (log entries 8, 10). -/
def Obligations.SeedChainsTwoCalls : Prop :=
  (∀ (seed : Word) (a b : List Byte), crc32cRef (crc32cRef seed a) b = crc32cRef seed (a ++ b)) ∧
  ∀ (s : State) (seed lenA lenB : Word) (dataA dataB : List Byte), s.Ready → s.Undisturbed → s.GoodTables →
    s.eRes = Tri.all 0#32 → lenA.toNat ≤ 1048576 → lenB.toNat ≤ 1048576 →
    dataA.length = lenA.toNat → dataB.length = lenB.toNat →
    ∃ (t u : State) (v : Word) (t' u' : State), exec (.crc32c seed lenA dataA) s = .next t ∧
      Host.Core.run core (callSteps t.eng lenA.toNat) t = .next u ∧ u.rsp = some (.value v) ∧
      exec (.crc32c v lenB dataB) u = .next t' ∧
      Host.Core.run core (callSteps t'.eng lenB.toNat) t' = .next u' ∧
      u'.rsp = some (.value (crc32cRef seed (dataA ++ dataB)))

/-- R164, R76: every schedule yields the same three results: from one state of a running call, two runs under any two lists
of scheduled micro-operations (and steps left to the block) that reach the Voter hold the same `RES` (the schedule as a list
is log entry 8). -/
def Obligations.ScheduleDoesNotMatter : Prop :=
  ∀ (s u u' : State) (e e' : List Event) (n n' : Nat), ControlInv s → AccumulatorInv s → s.top = .run →
    s.hostQueue = [] → (∀ x ∈ e, x = .proceed ∨ ∃ uw, x = .uop uw) → (∀ x ∈ e', x = .proceed ∨ ∃ uw, x = .uop uw) →
    Host.Core.run core n { s with events := e } = .next u → u.top = .voting →
    Host.Core.run core n' { s with events := e' } = .next u' → u'.top = .voting →
    u.res = u'.res

/-- R292: an accepted checksum command ends under every schedule: every run of at least as many steps as the schedule names
entries and the call has steps either stands idle or halted, or has gone on past the halt of a `NO_MAJORITY`, where the block
has no step of its own (60_exceptions.md R247), or was refused a micro-operation word that the schedule names out of its row.
No other fault happens in the call, and without such words it is not refused. The schedule as a list, and that the host
presents nothing (its queue is empty), are log entry 8. -/
def Obligations.EveryCallEnds : Prop :=
  ∀ (s : State) (n : Nat), ControlInv s → s.top = .run → s.hostQueue = [] →
    (∀ x ∈ s.events, x = .proceed ∨ ∃ uw, x = .uop uw) → s.events.length + 3 * (s.len + 2) + 2 ≤ n →
    (∃ u, Host.Core.run core n s = .next u ∧ (u.top = .idle ∨ u.top = .halted)) ∨
    Host.Core.run core n s = .fault (.halted .noMajority) ∨
    (∃ r uw, .uop uw ∈ s.events ∧ Host.Core.run core n s = .refused r)

/-! ### The Voter -/

/-- R211: `VOTE`: its word, its admission, `INIT_DONE` not required. With two equal operands it answers their common value:
`RES` loaded without a mask, `CKSUM`, `VALID`, nothing else; with pairwise distinct operands it ends in
`FATAL(NO_MAJORITY)`. That every field but `CKSUM`, `ACC`, `RES`, `POS` is kept across that fatal entry is the model's choice
(log entry 15). -/
def Obligations.VoteAnswersTheMajority : Prop :=
  ∀ (s : State) (r0 r1 r2 : Word),
    (∀ data, decodeCommand { cw := r2 ++ r1 ++ r0 ++ 0x05#8, data := data } = .ok (.vote r0 r1 r2)) ∧
    (¬ (s.status.halt = false ∧ s.status.busy = false) → ∃ r, exec (.vote r0 r1 r2) s = .refused r) ∧
    (s.status.halt = false → s.status.busy = false →
      (∀ v, r0 = v ∧ r1 = v ∨ r0 = v ∧ r2 = v ∨ r1 = v ∧ r2 = v →
        s.top = .idle → s.chp = Tri.all .chIdle →
        exec (.vote r0 r1 r2) s = .next { s with
          res := ⟨r0, r1, r2⟩, cksum := v, status := { s.status with valid := true }, rsp := some (.value v),
          rspCount := s.rspCount + 1 }) ∧
      (r0 ≠ r1 → r0 ≠ r2 → r1 ≠ r2 →
        ∃ t, exec (.vote r0 r1 r2) s = .next t ∧ t.rsp = some (.fatal .noMajority) ∧
          t.status = { s.status with halt := true, cause := .noMajority, valid := false, busy := false } ∧
          t = { s with
            status := t.status, top := .halted, rsp := t.rsp, rspCount := s.rspCount + 1
            cksum := t.cksum, acc := t.acc, res := t.res, pos := t.pos }))

/-- R210: the decision rule gives the value that two operands share, `NO_MAJORITY` exactly when they are pairwise distinct,
never a value that is not an operand, and does not depend on the order of the operands. -/
def Obligations.VoteIsTheMajority : Prop :=
  ∀ r0 r1 r2 : Word,
    (∀ v, voteOf r0 r1 r2 = some v ↔ r0 = v ∧ r1 = v ∨ r0 = v ∧ r2 = v ∨ r1 = v ∧ r2 = v) ∧
    (voteOf r0 r1 r2 = none ↔ r0 ≠ r1 ∧ r0 ≠ r2 ∧ r1 ≠ r2) ∧
    (∀ v, voteOf r0 r1 r2 = some v → v = r0 ∨ v = r1 ∨ v = r2) ∧
    voteOf r0 r1 r2 = voteOf r1 r0 r2 ∧ voteOf r0 r1 r2 = voteOf r0 r2 r1

/-- R212, R149: inside a checksum command the Voter decides on `RES` once the block is in `VOTING`, which it enters only when
all three channels are done. That `SEED`, `LEN`, `BUF`, `POS`, `ENG` (and `ACC`, `RES`, `GC`, `GI`) keep their fields across the
step that ends the call is the model's choice and no rule's (log entry 14; at `NO_MAJORITY`, where `POS`, `ACC`, `RES` become
free values, log entries 4 and 15). That nothing else reaches the block is log entry 8. -/
def Obligations.VoterInsideACall : Prop :=
  ∀ (s : State) (rest : List Event), s.sequenceExists = true → s.Proceeds rest →
    (s.top = .run → s.chp = Tri.all .chDone → step s = .next { s with events := rest, top := .voting }) ∧
    (s.top = .voting → ∀ v, voteOf s.res.c0 s.res.c1 s.res.c2 = some v →
      step s = .next { s with
        events := rest, cksum := v, status := { s.status with valid := true, busy := false }, chp := Tri.all .chIdle
        top := .idle, rsp := some (.value v), rspCount := s.rspCount + 1 }) ∧
    (s.top = .voting → voteOf s.res.c0 s.res.c1 s.res.c2 = none →
      step s = .next (State.raiseFatal { s with events := rest } .noMajority)) ∧
    (∀ t, s.top = .run → step s = .next t → t.top = .voting → s.chp = Tri.all .chDone)

/-! ### The probe and the tunables -/

/-- R140: `DETECT`: its word, its admission; it answers 1 exactly when the family exists, the CPU exposes it and it is not
disabled, else 0; only `RSP` changes. `Select()` is a function of `CFG` alone, which no step changes. -/
def Obligations.DetectAnswersTheSelection : Prop :=
  ∀ s : State,
    (∀ (a b c : Word) (data : List Byte), decodeCommand { cw := c ++ b ++ a ++ 0x06#8, data := data } = .ok .detect) ∧
    (¬ (s.status.halt = false ∧ s.status.busy = false) → ∃ r, exec .detect s = .refused r) ∧
    (s.status.halt = false → s.status.busy = false →
      exec .detect s = .next { s with
        rsp := some (.value (if s.cfg.target.arch ≠ .none ∧ s.cfg.target.hwCap = true ∧ s.cfg.hwEn = true
          then 1#32 else 0#32))
        rspCount := s.rspCount + 1 }) ∧
    (∀ t, step s = .next t → t.cfg = s.cfg)

/-- R230, R231: the reads of the tunables: their words, their admission; each is answered as it is, whatever `ARCH`; only
`RSP` changes. -/
def Obligations.TunablesAreAnswered : Prop :=
  ∀ s : State,
    (∀ (a b c : Word) (data : List Byte),
      decodeCommand { cw := c ++ b ++ a ++ 0x07#8, data := data } = .ok .rdwcHw ∧
      decodeCommand { cw := c ++ b ++ a ++ 0x08#8, data := data } = .ok .rdwcSw) ∧
    (¬ (s.status.halt = false ∧ s.status.busy = false) →
      (∃ r, exec .rdwcHw s = .refused r) ∧ ∃ r, exec .rdwcSw s = .refused r) ∧
    (s.status.halt = false → s.status.busy = false →
      exec .rdwcHw s = .next { s with rsp := some (.value s.wcpbHw), rspCount := s.rspCount + 1 } ∧
      exec .rdwcSw s = .next { s with rsp := some (.value s.wcpbSw), rspCount := s.rspCount + 1 })

/-! ### The words on the ports -/

/-- R28: the bits of `CFG`; `HW_CAP = 1` requires `ARCH != NONE`; no step changes it, not even reset. -/
def Obligations.CfgIsAConstantWord : Prop :=
  (∀ c : Cfg,
    (c.word.getLsbD 0 = c.target.hwCap) ∧ (c.word.getLsbD 1 = c.hwEn) ∧
    (c.target.arch = .none → c.word.extractLsb' 2 2 = 0#2) ∧
    (c.target.arch = .x86Sse42 → c.word.extractLsb' 2 2 = 1#2) ∧
    (c.target.arch = .armCrc → c.word.extractLsb' 2 2 = 2#2) ∧
    (c.word.extractLsb' 4 4 = 0#4) ∧ (c.target.hwCap = true → c.target.arch ≠ .none)) ∧
  ∀ s t : State, step s = .next t → t.cfg = s.cfg

/-- R95, R240: the fields of `RSP`, with the cause codes as numbers. -/
def Obligations.ResponseBits : Prop :=
  ∀ (n : Nat) (v : Word),
    (Response.word n .done).extractLsb' 0 8 = 0x00#8 ∧
    (Response.word n (.value v)).extractLsb' 0 8 = 0x01#8 ∧ (Response.word n (.value v)).extractLsb' 8 32 = v ∧
    (∀ cause : Cause,
      (Response.word n (.fatal cause)).extractLsb' 0 2 = 2#2 ∧ (Response.word n (.fatal cause)).extractLsb' 5 3 = 0#3) ∧
    (Response.word n (.fatal .tableMismatch)).extractLsb' 2 3 = 1#3 ∧
    (Response.word n (.fatal .inputTooLarge)).extractLsb' 2 3 = 2#3 ∧
    (Response.word n (.fatal .noMajority)).extractLsb' 2 3 = 3#3

/-! ### Rules of the whole machine -/

/-- R246: a step that halts the block is a fatal entry: it sets `HALT` and `CAUSE`, clears `VALID` and `BUSY`, answers
`FATAL(cause)`, and changes nothing else but what then holds no value (`CKSUM`, `ACC`, `RES`, `POS`, and for
`TABLE_MISMATCH` the tables). The cause tells where it was raised (R240, R248). That the other fields keep their values is the
model's choice, where R246 would let them become unspecified (log entry 15). -/
def Obligations.FatalEntry : Prop :=
  ∀ s t : State, ControlInv s → step s = .next t → s.status.halt = false → t.status.halt = true →
    t.status = { s.status with halt := true, cause := t.status.cause, valid := false, busy := false } ∧
    t.top = .halted ∧ t.rsp = some (.fatal t.status.cause) ∧ t.readCksum = none ∧
    (t.status.cause ≠ .tableMismatch → t.tbl = s.tbl) ∧
    t = { s with
      status := t.status, top := .halted, rsp := t.rsp, rspCount := s.rspCount + 1
      cksum := t.cksum, acc := t.acc, res := t.res, pos := t.pos, tbl := t.tbl
      events := t.events, hostQueue := t.hostQueue, eRes := t.eRes, eTbl := t.eTbl } ∧
    ((t.status.cause = .tableMismatch ∧ s.top = .gen ∧ s.gph = .check) ∨
      (t.status.cause = .inputTooLarge ∧ s.top = .idle) ∨
      (t.status.cause = .noMajority ∧ (s.top = .voting ∨ s.top = .idle)))

/-- R247: once halted, no command is admitted, nothing runs (the block's own step and every micro-operation word that is
issued end in the fault that names the cause, log entry 12), nothing but `RESET` leaves the halted state, and `STATUS` keeps
the first and only cause. That the response still stands on `RSP` is the model's choice (log entry 17). -/
def Obligations.HaltedUntilReset : Prop :=
  ∀ s : State, ControlInv s → s.status.halt = true →
    (∀ i : Instr, isHostCommand i = true → exec i s = .refused .halted) ∧
    (∀ rest, s.sequenceExists = true → s.Proceeds rest → step s = .fault (.halted s.status.cause)) ∧
    (∀ uw i rest, s.sequenceExists = true → s.events = .uop uw :: rest → decodeMicro uw = .ok i →
      step s = .fault (.halted s.status.cause)) ∧
    (∀ t, step s = .next t → (∀ rest, s.events ≠ .reset :: rest) →
      t.status = s.status ∧ t.top = .halted ∧ t.rsp = s.rsp ∧ t.readCksum = none)

/-- R27: the bits of `STATUS`, with the cause codes of R240 as numbers, and what sets and clears each. `INIT_DONE`: set by
`INIT` completing and by nothing else, cleared by reset only. `VALID`: set by the Voter finding a majority and by nothing else,
cleared by an acceptance, a fatal entry and reset and by nothing else; where it stays, `CKSUM` stays or is the value just
answered from `IDLE` (41_dispatcher.md R149: `VOTE` clears and sets it in one step). `HALT` and `CAUSE`: set by a fatal
entry, cleared by reset only. `BUSY` says that `TOP` is `GEN`, `RUN` or `VOTING`: set by an acceptance, cleared by completion
or a fatal entry. -/
def Obligations.StatusBitsChangeOnlyAsTheSpecSays : Prop :=
  (∀ st : Status,
    st.word.getLsbD 0 = st.initDone ∧ st.word.getLsbD 1 = st.valid ∧ st.word.getLsbD 2 = st.halt ∧
    (st.cause = .none → st.word.extractLsb' 3 3 = 0#3) ∧ (st.cause = .tableMismatch → st.word.extractLsb' 3 3 = 1#3) ∧
    (st.cause = .inputTooLarge → st.word.extractLsb' 3 3 = 2#3) ∧ (st.cause = .noMajority → st.word.extractLsb' 3 3 = 3#3) ∧
    st.word.getLsbD 6 = st.busy ∧ st.word.getLsbD 7 = false) ∧
  (∀ (s t : State) (rest : List Event), s.events = .reset :: rest → step s = .next t →
    t.status = { initDone := false, valid := false, halt := false, cause := .none, busy := false }) ∧
  ∀ s t : State, ControlInv s → step s = .next t → (∀ rest, s.events ≠ .reset :: rest) →
    (s.status.initDone = true → t.status.initDone = true) ∧
    (s.status.initDone = false → t.status.initDone = true →
      s.top = .gen ∧ s.gph = .finish ∧ t.top = .idle ∧ t.rsp = some .done) ∧
    (s.status.valid = false → t.status.valid = true →
      (s.top = .voting ∨ s.top = .idle) ∧ t.rsp = some (.value t.cksum) ∧ t.top = .idle) ∧
    (s.status.valid = true → t.status.valid = false → s.top = .idle ∧ t.top = .run ∨ t.top = .halted) ∧
    (s.status.halt = true → t.status.halt = true ∧ t.status.cause = s.status.cause) ∧
    (s.status.halt = false → t.status.halt = true → t.rsp = some (.fatal t.status.cause)) ∧
    (t.status.halt = false → t.status.cause = .none) ∧
    (s.status.busy = false → t.status.busy = true → s.top = .idle ∧ (t.top = .gen ∨ t.top = .run)) ∧
    (s.status.busy = true → t.status.busy = false → t.top = .idle ∨ t.top = .halted) ∧
    (t.status.busy = true ↔ t.top = .gen ∨ t.top = .run ∨ t.top = .voting) ∧
    (s.top = .gen → t.top = .idle → t.status.initDone = true ∧ t.status.busy = false ∧ t.rsp = some .done) ∧
    (s.top = .voting → t.top = .idle →
      t.status.valid = true ∧ t.status.busy = false ∧ t.rsp = some (.value t.cksum)) ∧
    (s.top = .idle → t.top = .run → t.status.valid = false ∧ t.status.busy = true) ∧
    (s.top = .idle → t.top = .gen → t.status.valid = s.status.valid ∧ t.status.busy = true) ∧
    (t.top = .halted →
      t.status.halt = true ∧ t.status.cause ≠ .none ∧ t.status.valid = false ∧ t.status.busy = false) ∧
    (s.status.valid = true → t.status.valid = true →
      t.cksum = s.cksum ∨
        s.top = .idle ∧ t.rsp = some (.value t.cksum) ∧ t.rspCount = s.rspCount + 1)

/-- R29, R232: no step changes a tunable, not even reset, and no other field's change depends on them: the same step of a
state that differs in the tunables alone ends in a state that differs in the tunables and, where the command presented was the
read of one of them, in `RSP`. -/
def Obligations.TunablesAffectNothing : Prop :=
  ∀ (s t : State) (wh ws : Word), step s = .next t →
    t.wcpbHw = s.wcpbHw ∧ t.wcpbSw = s.wcpbSw ∧
    ∃ u, step { s with wcpbHw := wh, wcpbSw := ws } = .next u ∧
      u = { t with wcpbHw := wh, wcpbSw := ws, rsp := u.rsp } ∧
      (u.rsp = t.rsp ∨
        ∃ p : Presentation, s.presented = some p ∧
          ((decodeCommand p = .ok .rdwcHw ∧ t.rsp = some (.value s.wcpbHw) ∧ u.rsp = some (.value wh)) ∨
            (decodeCommand p = .ok .rdwcSw ∧ t.rsp = some (.value s.wcpbSw) ∧ u.rsp = some (.value ws))))

/-- R21, R256: after `INIT` no step but a reset writes a table entry. That a fatal entry leaves the tables as they are is the
model's choice, where R246 would let them become unspecified (log entry 15). -/
def Obligations.TablesAreImmutableAfterInit : Prop :=
  ∀ s t : State, ControlInv s → s.status.initDone = true → step s = .next t → (∀ rest, s.events ≠ .reset :: rest) →
    t.tbl = s.tbl

/-- R25: the operand latches are constant from acceptance until the call completes, and so is the engine, chosen once per
call (41_dispatcher.md R148, R149). That the step which ends the call, into `IDLE` or `HALTED`, leaves them as they are too is
the model's choice (log entries 14, 15). -/
def Obligations.OperandsAreConstantDuringACall : Prop :=
  ∀ s t : State, ControlInv s → s.top = .run ∨ s.top = .voting → step s = .next t →
    (∀ rest, s.events ≠ .reset :: rest) →
    t.seed = s.seed ∧ t.len = s.len ∧ t.buf = s.buf ∧ t.eng = s.eng

/-- R288, R250: the host's next command is taken only when the block is idle and nothing else reaches it (the queue is the
model's, log entry 8). -/
def Obligations.HostWaitsForTheBlock : Prop :=
  ∀ s t : State, step s = .next t → t.hostQueue ≠ s.hostQueue →
    s.top = .idle ∧ (∃ rest, s.Proceeds rest) ∧ s.status.busy = false ∧ s.status.halt = false

/-- R149, R292: no step of a consistent state is stuck: the block, left to itself and not halted, always has a next state;
no access of it leaves the buffer or meets a table without values (R33, R61, R68, R81). Idle, with nothing to present, it stays
as it is (log entry 8). -/
def Obligations.NothingIsStuck : Prop :=
  ∀ (s : State) (rest : List Event), s.sequenceExists = true → s.Proceeds rest → s.hostQueue = [] →
    (ControlInv s → s.top ≠ .halted → ∃ t, step s = .next t) ∧
    (s.top = .idle → step s = .next { s with events := rest })

/-! ### Invariants -/

/-- `STATUS`, the sequencer and the operands stay consistent (R26, R27, R77, R149). -/
def Obligations.StepKeepsControl : Prop :=
  ∀ s t : State, ControlInv s → step s = .next t → ControlInv t

/-- They are consistent after reset (R34). -/
def Obligations.ResetIsConsistent : Prop :=
  ControlInv State.reset ∧ TableInv State.reset ∧ AccumulatorInv State.reset

/-- R21: the three tables are equal once `INIT` is done, and as far as `INIT` has compared them. That they stay so across a
fatal entry is the model's choice (log entry 15). -/
def Obligations.StepKeepsTablesEqual : Prop :=
  ∀ s t : State, ControlInv s → TableInv s → step s = .next t → TableInv t

/-- R164, R182, R186: every channel's accumulator is the fold of its byte step over the bytes it has consumed, in ascending
order, on either engine and under every schedule. -/
def Obligations.StepKeepsAccumulators : Prop :=
  ∀ s t : State, ControlInv s → AccumulatorInv s → step s = .next t → AccumulatorInv t

/-! ### The static check and the masks -/

/-- R184: where `ARCH = NONE` a command sequence that holds `CRC32C.HW` (or names `HWSTEP8` or `HWSTEP64`) is refused before
anything runs, and the two micro-operations have no step; every other sequence is well-formed. `CRC32C` selects the Software
Engine there. The sequence is what is due and what the host has still to present (the model's own, log entry 18). -/
def Obligations.IllFormedSequencesAreRefused : Prop :=
  ∀ s : State,
    (∀ i : Instr, i ∈ s.sequence ↔
      (∃ a : Arrival, (.command a ∈ s.events ∨ a ∈ s.hostQueue) ∧ decodeCommand a.cmd = .ok i) ∨
      (∃ uw : BitVec 6, .uop uw ∈ s.events ∧ decodeMicro uw = .ok i)) ∧
    (s.cfg.target.arch = .none →
      (∀ (c : Channel) (seed len : Word) (data : List Byte),
        .crc32cHw seed len data ∈ s.sequence ∨ .hwstep8 c ∈ s.sequence ∨ .hwstep64 c ∈ s.sequence →
        ∀ n : Nat, Host.Core.run core (n + 1) s = .refused .engineAbsent) ∧
      (∀ c : Channel, exec (.hwstep8 c) s = .refused .engineAbsent ∧ exec (.hwstep64 c) s = .refused .engineAbsent) ∧
      selectEngine s.cfg = .sw) ∧
    (s.cfg.target.arch ≠ .none ∨
      (∀ (c : Channel) (seed len : Word) (data : List Byte),
        .crc32cHw seed len data ∉ s.sequence ∧ .hwstep8 c ∉ s.sequence ∧ .hwstep64 c ∉ s.sequence) →
      step s = takeNext s)

/-- R30: the masks are the environment's: a change of the mask ports replaces `E_RES` and `E_TBL` and changes nothing else;
and no step replaces a mask but such a change and the presenting of a command, which brings the draw made for it. How the
draws reach the block is the model's (log entries 8, 16). -/
def Obligations.MaskPortsAreTheEnvironments : Prop :=
  ∀ s : State,
    (∀ (eRes : Tri Word) (eTbl : Tri Table) (rest : List Event), s.sequenceExists = true →
      s.events = .masks eRes eTbl :: rest → step s = .next { s with events := rest, eRes := eRes, eTbl := eTbl }) ∧
    (∀ t : State, step s = .next t →
      (t.eRes = s.eRes ∧ t.eTbl = s.eTbl) ∨
      (∃ rest, s.events = .masks t.eRes t.eTbl :: rest) ∨
      (∃ (a : Arrival) (rest : List Event), (t.eRes = a.draw.eRes ∧ t.eTbl = a.draw.eTbl) ∧
        (s.events = .command a :: rest ∨
          (s.Proceeds rest ∧ s.top = .idle ∧ ∃ q, s.hostQueue = a :: q))))
end

