-- ==== Sys2Proof/Laws/State.lean ====
section
/-! SUPPORT. One lemma per field and update of the state, each true by unfolding, so that no proof unfolds a record
update; the laws of the threefold copies. -/

namespace Sys2Proof

/-! ### Threefold copies -/

@[simp] theorem Tri.get_set_same {α : Type} (t : Tri α) (c : Channel) (v : α) : (t.set c v).get c = v := by
  cases c <;> rfl

theorem Tri.get_set_other {α : Type} (t : Tri α) {c d : Channel} (v : α) (h : d ≠ c) : (t.set c v).get d = t.get d := by
  cases c <;> cases d <;> first | rfl | exact absurd rfl h

theorem Tri.get_set {α : Type} (t : Tri α) (c d : Channel) (v : α) :
    (t.set c v).get d = if d = c then v else t.get d := by
  cases c <;> cases d <;> rfl

@[simp] theorem Tri.get_all {α : Type} (v : α) (c : Channel) : (Tri.all v).get c = v := by cases c <;> rfl

/-- Two threefold values with equal copies are equal. -/
theorem Tri.ext_get {α : Type} {t u : Tri α} (h : ∀ c, t.get c = u.get c) : t = u := by
  cases t; cases u
  have h0 := h .c0
  have h1 := h .c1
  have h2 := h .c2
  simp only [Tri.get] at h0 h1 h2
  subst h0 h1 h2
  rfl

theorem Tri.set_comm {α : Type} (t : Tri α) {c d : Channel} (v w : α) (h : c ≠ d) :
    (t.set c v).set d w = (t.set d w).set c v := by
  cases c <;> cases d <;> first | rfl | exact absurd rfl h

@[simp] theorem Tri.set_set {α : Type} (t : Tri α) (c : Channel) (v w : α) : (t.set c v).set c w = t.set c w := by
  cases c <;> rfl

@[simp] theorem Tri.set_get {α : Type} (t : Tri α) (c : Channel) : t.set c (t.get c) = t := by cases c <;> rfl

namespace Machine

/-! ### `State.setEntry` -/

@[simp] theorem State.setEntry_tbl (s : State) (c : Channel) (i : Byte) (v : Word) :
    (s.setEntry c i v).tbl = s.tbl.set c (tableWrite (s.tbl.get c) i v) := rfl
@[simp] theorem State.setEntry_acc (s : State) (c : Channel) (i : Byte) (v : Word) :
    (s.setEntry c i v).acc = s.acc := rfl
@[simp] theorem State.setEntry_res (s : State) (c : Channel) (i : Byte) (v : Word) :
    (s.setEntry c i v).res = s.res := rfl
@[simp] theorem State.setEntry_cksum (s : State) (c : Channel) (i : Byte) (v : Word) :
    (s.setEntry c i v).cksum = s.cksum := rfl
@[simp] theorem State.setEntry_seed (s : State) (c : Channel) (i : Byte) (v : Word) :
    (s.setEntry c i v).seed = s.seed := rfl
@[simp] theorem State.setEntry_len (s : State) (c : Channel) (i : Byte) (v : Word) :
    (s.setEntry c i v).len = s.len := rfl
@[simp] theorem State.setEntry_buf (s : State) (c : Channel) (i : Byte) (v : Word) :
    (s.setEntry c i v).buf = s.buf := rfl
@[simp] theorem State.setEntry_top (s : State) (c : Channel) (i : Byte) (v : Word) :
    (s.setEntry c i v).top = s.top := rfl
@[simp] theorem State.setEntry_eng (s : State) (c : Channel) (i : Byte) (v : Word) :
    (s.setEntry c i v).eng = s.eng := rfl
@[simp] theorem State.setEntry_chp (s : State) (c : Channel) (i : Byte) (v : Word) :
    (s.setEntry c i v).chp = s.chp := rfl
@[simp] theorem State.setEntry_pos (s : State) (c : Channel) (i : Byte) (v : Word) :
    (s.setEntry c i v).pos = s.pos := rfl
@[simp] theorem State.setEntry_gc (s : State) (c : Channel) (i : Byte) (v : Word) : (s.setEntry c i v).gc = s.gc := rfl
@[simp] theorem State.setEntry_gi (s : State) (c : Channel) (i : Byte) (v : Word) : (s.setEntry c i v).gi = s.gi := rfl
@[simp] theorem State.setEntry_gph (s : State) (c : Channel) (i : Byte) (v : Word) :
    (s.setEntry c i v).gph = s.gph := rfl
@[simp] theorem State.setEntry_gx (s : State) (c : Channel) (i : Byte) (v : Word) : (s.setEntry c i v).gx = s.gx := rfl
@[simp] theorem State.setEntry_status (s : State) (c : Channel) (i : Byte) (v : Word) :
    (s.setEntry c i v).status = s.status := rfl
@[simp] theorem State.setEntry_cfg (s : State) (c : Channel) (i : Byte) (v : Word) :
    (s.setEntry c i v).cfg = s.cfg := rfl
@[simp] theorem State.setEntry_wcpbHw (s : State) (c : Channel) (i : Byte) (v : Word) :
    (s.setEntry c i v).wcpbHw = s.wcpbHw := rfl
@[simp] theorem State.setEntry_wcpbSw (s : State) (c : Channel) (i : Byte) (v : Word) :
    (s.setEntry c i v).wcpbSw = s.wcpbSw := rfl
@[simp] theorem State.setEntry_rsp (s : State) (c : Channel) (i : Byte) (v : Word) :
    (s.setEntry c i v).rsp = s.rsp := rfl
@[simp] theorem State.setEntry_rspCount (s : State) (c : Channel) (i : Byte) (v : Word) :
    (s.setEntry c i v).rspCount = s.rspCount := rfl
@[simp] theorem State.setEntry_eRes (s : State) (c : Channel) (i : Byte) (v : Word) :
    (s.setEntry c i v).eRes = s.eRes := rfl
@[simp] theorem State.setEntry_eTbl (s : State) (c : Channel) (i : Byte) (v : Word) :
    (s.setEntry c i v).eTbl = s.eTbl := rfl
@[simp] theorem State.setEntry_events (s : State) (c : Channel) (i : Byte) (v : Word) :
    (s.setEntry c i v).events = s.events := rfl
@[simp] theorem State.setEntry_hostQueue (s : State) (c : Channel) (i : Byte) (v : Word) :
    (s.setEntry c i v).hostQueue = s.hostQueue := rfl

/-! ### `State.setAcc` -/

@[simp] theorem State.setAcc_tbl (s : State) (c : Channel) (v : Word) : (s.setAcc c v).tbl = s.tbl := rfl
@[simp] theorem State.setAcc_acc (s : State) (c : Channel) (v : Word) : (s.setAcc c v).acc = s.acc.set c v := rfl
@[simp] theorem State.setAcc_res (s : State) (c : Channel) (v : Word) : (s.setAcc c v).res = s.res := rfl
@[simp] theorem State.setAcc_cksum (s : State) (c : Channel) (v : Word) : (s.setAcc c v).cksum = s.cksum := rfl
@[simp] theorem State.setAcc_seed (s : State) (c : Channel) (v : Word) : (s.setAcc c v).seed = s.seed := rfl
@[simp] theorem State.setAcc_len (s : State) (c : Channel) (v : Word) : (s.setAcc c v).len = s.len := rfl
@[simp] theorem State.setAcc_buf (s : State) (c : Channel) (v : Word) : (s.setAcc c v).buf = s.buf := rfl
@[simp] theorem State.setAcc_top (s : State) (c : Channel) (v : Word) : (s.setAcc c v).top = s.top := rfl
@[simp] theorem State.setAcc_eng (s : State) (c : Channel) (v : Word) : (s.setAcc c v).eng = s.eng := rfl
@[simp] theorem State.setAcc_chp (s : State) (c : Channel) (v : Word) : (s.setAcc c v).chp = s.chp := rfl
@[simp] theorem State.setAcc_pos (s : State) (c : Channel) (v : Word) : (s.setAcc c v).pos = s.pos := rfl
@[simp] theorem State.setAcc_gc (s : State) (c : Channel) (v : Word) : (s.setAcc c v).gc = s.gc := rfl
@[simp] theorem State.setAcc_gi (s : State) (c : Channel) (v : Word) : (s.setAcc c v).gi = s.gi := rfl
@[simp] theorem State.setAcc_gph (s : State) (c : Channel) (v : Word) : (s.setAcc c v).gph = s.gph := rfl
@[simp] theorem State.setAcc_gx (s : State) (c : Channel) (v : Word) : (s.setAcc c v).gx = s.gx := rfl
@[simp] theorem State.setAcc_status (s : State) (c : Channel) (v : Word) : (s.setAcc c v).status = s.status := rfl
@[simp] theorem State.setAcc_cfg (s : State) (c : Channel) (v : Word) : (s.setAcc c v).cfg = s.cfg := rfl
@[simp] theorem State.setAcc_wcpbHw (s : State) (c : Channel) (v : Word) : (s.setAcc c v).wcpbHw = s.wcpbHw := rfl
@[simp] theorem State.setAcc_wcpbSw (s : State) (c : Channel) (v : Word) : (s.setAcc c v).wcpbSw = s.wcpbSw := rfl
@[simp] theorem State.setAcc_rsp (s : State) (c : Channel) (v : Word) : (s.setAcc c v).rsp = s.rsp := rfl
@[simp] theorem State.setAcc_rspCount (s : State) (c : Channel) (v : Word) : (s.setAcc c v).rspCount = s.rspCount := rfl
@[simp] theorem State.setAcc_eRes (s : State) (c : Channel) (v : Word) : (s.setAcc c v).eRes = s.eRes := rfl
@[simp] theorem State.setAcc_eTbl (s : State) (c : Channel) (v : Word) : (s.setAcc c v).eTbl = s.eTbl := rfl
@[simp] theorem State.setAcc_events (s : State) (c : Channel) (v : Word) : (s.setAcc c v).events = s.events := rfl
@[simp] theorem State.setAcc_hostQueue (s : State) (c : Channel) (v : Word) :
    (s.setAcc c v).hostQueue = s.hostQueue := rfl

/-! ### `State.setRes` -/

@[simp] theorem State.setRes_tbl (s : State) (c : Channel) (v : Word) : (s.setRes c v).tbl = s.tbl := rfl
@[simp] theorem State.setRes_acc (s : State) (c : Channel) (v : Word) : (s.setRes c v).acc = s.acc := rfl
@[simp] theorem State.setRes_res (s : State) (c : Channel) (v : Word) : (s.setRes c v).res = s.res.set c v := rfl
@[simp] theorem State.setRes_cksum (s : State) (c : Channel) (v : Word) : (s.setRes c v).cksum = s.cksum := rfl
@[simp] theorem State.setRes_seed (s : State) (c : Channel) (v : Word) : (s.setRes c v).seed = s.seed := rfl
@[simp] theorem State.setRes_len (s : State) (c : Channel) (v : Word) : (s.setRes c v).len = s.len := rfl
@[simp] theorem State.setRes_buf (s : State) (c : Channel) (v : Word) : (s.setRes c v).buf = s.buf := rfl
@[simp] theorem State.setRes_top (s : State) (c : Channel) (v : Word) : (s.setRes c v).top = s.top := rfl
@[simp] theorem State.setRes_eng (s : State) (c : Channel) (v : Word) : (s.setRes c v).eng = s.eng := rfl
@[simp] theorem State.setRes_chp (s : State) (c : Channel) (v : Word) : (s.setRes c v).chp = s.chp := rfl
@[simp] theorem State.setRes_pos (s : State) (c : Channel) (v : Word) : (s.setRes c v).pos = s.pos := rfl
@[simp] theorem State.setRes_gc (s : State) (c : Channel) (v : Word) : (s.setRes c v).gc = s.gc := rfl
@[simp] theorem State.setRes_gi (s : State) (c : Channel) (v : Word) : (s.setRes c v).gi = s.gi := rfl
@[simp] theorem State.setRes_gph (s : State) (c : Channel) (v : Word) : (s.setRes c v).gph = s.gph := rfl
@[simp] theorem State.setRes_gx (s : State) (c : Channel) (v : Word) : (s.setRes c v).gx = s.gx := rfl
@[simp] theorem State.setRes_status (s : State) (c : Channel) (v : Word) : (s.setRes c v).status = s.status := rfl
@[simp] theorem State.setRes_cfg (s : State) (c : Channel) (v : Word) : (s.setRes c v).cfg = s.cfg := rfl
@[simp] theorem State.setRes_wcpbHw (s : State) (c : Channel) (v : Word) : (s.setRes c v).wcpbHw = s.wcpbHw := rfl
@[simp] theorem State.setRes_wcpbSw (s : State) (c : Channel) (v : Word) : (s.setRes c v).wcpbSw = s.wcpbSw := rfl
@[simp] theorem State.setRes_rsp (s : State) (c : Channel) (v : Word) : (s.setRes c v).rsp = s.rsp := rfl
@[simp] theorem State.setRes_rspCount (s : State) (c : Channel) (v : Word) : (s.setRes c v).rspCount = s.rspCount := rfl
@[simp] theorem State.setRes_eRes (s : State) (c : Channel) (v : Word) : (s.setRes c v).eRes = s.eRes := rfl
@[simp] theorem State.setRes_eTbl (s : State) (c : Channel) (v : Word) : (s.setRes c v).eTbl = s.eTbl := rfl
@[simp] theorem State.setRes_events (s : State) (c : Channel) (v : Word) : (s.setRes c v).events = s.events := rfl
@[simp] theorem State.setRes_hostQueue (s : State) (c : Channel) (v : Word) :
    (s.setRes c v).hostQueue = s.hostQueue := rfl

/-! ### `State.setPos` -/

@[simp] theorem State.setPos_tbl (s : State) (c : Channel) (n : Nat) : (s.setPos c n).tbl = s.tbl := rfl
@[simp] theorem State.setPos_acc (s : State) (c : Channel) (n : Nat) : (s.setPos c n).acc = s.acc := rfl
@[simp] theorem State.setPos_res (s : State) (c : Channel) (n : Nat) : (s.setPos c n).res = s.res := rfl
@[simp] theorem State.setPos_cksum (s : State) (c : Channel) (n : Nat) : (s.setPos c n).cksum = s.cksum := rfl
@[simp] theorem State.setPos_seed (s : State) (c : Channel) (n : Nat) : (s.setPos c n).seed = s.seed := rfl
@[simp] theorem State.setPos_len (s : State) (c : Channel) (n : Nat) : (s.setPos c n).len = s.len := rfl
@[simp] theorem State.setPos_buf (s : State) (c : Channel) (n : Nat) : (s.setPos c n).buf = s.buf := rfl
@[simp] theorem State.setPos_top (s : State) (c : Channel) (n : Nat) : (s.setPos c n).top = s.top := rfl
@[simp] theorem State.setPos_eng (s : State) (c : Channel) (n : Nat) : (s.setPos c n).eng = s.eng := rfl
@[simp] theorem State.setPos_chp (s : State) (c : Channel) (n : Nat) : (s.setPos c n).chp = s.chp := rfl
@[simp] theorem State.setPos_pos (s : State) (c : Channel) (n : Nat) : (s.setPos c n).pos = s.pos.set c n := rfl
@[simp] theorem State.setPos_gc (s : State) (c : Channel) (n : Nat) : (s.setPos c n).gc = s.gc := rfl
@[simp] theorem State.setPos_gi (s : State) (c : Channel) (n : Nat) : (s.setPos c n).gi = s.gi := rfl
@[simp] theorem State.setPos_gph (s : State) (c : Channel) (n : Nat) : (s.setPos c n).gph = s.gph := rfl
@[simp] theorem State.setPos_gx (s : State) (c : Channel) (n : Nat) : (s.setPos c n).gx = s.gx := rfl
@[simp] theorem State.setPos_status (s : State) (c : Channel) (n : Nat) : (s.setPos c n).status = s.status := rfl
@[simp] theorem State.setPos_cfg (s : State) (c : Channel) (n : Nat) : (s.setPos c n).cfg = s.cfg := rfl
@[simp] theorem State.setPos_wcpbHw (s : State) (c : Channel) (n : Nat) : (s.setPos c n).wcpbHw = s.wcpbHw := rfl
@[simp] theorem State.setPos_wcpbSw (s : State) (c : Channel) (n : Nat) : (s.setPos c n).wcpbSw = s.wcpbSw := rfl
@[simp] theorem State.setPos_rsp (s : State) (c : Channel) (n : Nat) : (s.setPos c n).rsp = s.rsp := rfl
@[simp] theorem State.setPos_rspCount (s : State) (c : Channel) (n : Nat) : (s.setPos c n).rspCount = s.rspCount := rfl
@[simp] theorem State.setPos_eRes (s : State) (c : Channel) (n : Nat) : (s.setPos c n).eRes = s.eRes := rfl
@[simp] theorem State.setPos_eTbl (s : State) (c : Channel) (n : Nat) : (s.setPos c n).eTbl = s.eTbl := rfl
@[simp] theorem State.setPos_events (s : State) (c : Channel) (n : Nat) : (s.setPos c n).events = s.events := rfl
@[simp] theorem State.setPos_hostQueue (s : State) (c : Channel) (n : Nat) :
    (s.setPos c n).hostQueue = s.hostQueue := rfl

/-! ### `State.setChp` -/

@[simp] theorem State.setChp_tbl (s : State) (c : Channel) (p : ChPhase) : (s.setChp c p).tbl = s.tbl := rfl
@[simp] theorem State.setChp_acc (s : State) (c : Channel) (p : ChPhase) : (s.setChp c p).acc = s.acc := rfl
@[simp] theorem State.setChp_res (s : State) (c : Channel) (p : ChPhase) : (s.setChp c p).res = s.res := rfl
@[simp] theorem State.setChp_cksum (s : State) (c : Channel) (p : ChPhase) : (s.setChp c p).cksum = s.cksum := rfl
@[simp] theorem State.setChp_seed (s : State) (c : Channel) (p : ChPhase) : (s.setChp c p).seed = s.seed := rfl
@[simp] theorem State.setChp_len (s : State) (c : Channel) (p : ChPhase) : (s.setChp c p).len = s.len := rfl
@[simp] theorem State.setChp_buf (s : State) (c : Channel) (p : ChPhase) : (s.setChp c p).buf = s.buf := rfl
@[simp] theorem State.setChp_top (s : State) (c : Channel) (p : ChPhase) : (s.setChp c p).top = s.top := rfl
@[simp] theorem State.setChp_eng (s : State) (c : Channel) (p : ChPhase) : (s.setChp c p).eng = s.eng := rfl
@[simp] theorem State.setChp_chp (s : State) (c : Channel) (p : ChPhase) : (s.setChp c p).chp = s.chp.set c p := rfl
@[simp] theorem State.setChp_pos (s : State) (c : Channel) (p : ChPhase) : (s.setChp c p).pos = s.pos := rfl
@[simp] theorem State.setChp_gc (s : State) (c : Channel) (p : ChPhase) : (s.setChp c p).gc = s.gc := rfl
@[simp] theorem State.setChp_gi (s : State) (c : Channel) (p : ChPhase) : (s.setChp c p).gi = s.gi := rfl
@[simp] theorem State.setChp_gph (s : State) (c : Channel) (p : ChPhase) : (s.setChp c p).gph = s.gph := rfl
@[simp] theorem State.setChp_gx (s : State) (c : Channel) (p : ChPhase) : (s.setChp c p).gx = s.gx := rfl
@[simp] theorem State.setChp_status (s : State) (c : Channel) (p : ChPhase) : (s.setChp c p).status = s.status := rfl
@[simp] theorem State.setChp_cfg (s : State) (c : Channel) (p : ChPhase) : (s.setChp c p).cfg = s.cfg := rfl
@[simp] theorem State.setChp_wcpbHw (s : State) (c : Channel) (p : ChPhase) : (s.setChp c p).wcpbHw = s.wcpbHw := rfl
@[simp] theorem State.setChp_wcpbSw (s : State) (c : Channel) (p : ChPhase) : (s.setChp c p).wcpbSw = s.wcpbSw := rfl
@[simp] theorem State.setChp_rsp (s : State) (c : Channel) (p : ChPhase) : (s.setChp c p).rsp = s.rsp := rfl
@[simp] theorem State.setChp_rspCount (s : State) (c : Channel) (p : ChPhase) :
    (s.setChp c p).rspCount = s.rspCount := rfl
@[simp] theorem State.setChp_eRes (s : State) (c : Channel) (p : ChPhase) : (s.setChp c p).eRes = s.eRes := rfl
@[simp] theorem State.setChp_eTbl (s : State) (c : Channel) (p : ChPhase) : (s.setChp c p).eTbl = s.eTbl := rfl
@[simp] theorem State.setChp_events (s : State) (c : Channel) (p : ChPhase) : (s.setChp c p).events = s.events := rfl
@[simp] theorem State.setChp_hostQueue (s : State) (c : Channel) (p : ChPhase) :
    (s.setChp c p).hostQueue = s.hostQueue := rfl

/-! ### `State.setGx` -/

@[simp] theorem State.supplyIndex_eq (s : State) : s.supplyIndex = s.setGx (s.gi.setWidth 32) := rfl
@[simp] theorem State.setGx_setGx (s : State) (v w : Word) : (s.setGx v).setGx w = s.setGx w := rfl
@[simp] theorem State.setGx_tbl (s : State) (v : Word) : (s.setGx v).tbl = s.tbl := rfl
@[simp] theorem State.setGx_acc (s : State) (v : Word) : (s.setGx v).acc = s.acc := rfl
@[simp] theorem State.setGx_res (s : State) (v : Word) : (s.setGx v).res = s.res := rfl
@[simp] theorem State.setGx_cksum (s : State) (v : Word) : (s.setGx v).cksum = s.cksum := rfl
@[simp] theorem State.setGx_seed (s : State) (v : Word) : (s.setGx v).seed = s.seed := rfl
@[simp] theorem State.setGx_len (s : State) (v : Word) : (s.setGx v).len = s.len := rfl
@[simp] theorem State.setGx_buf (s : State) (v : Word) : (s.setGx v).buf = s.buf := rfl
@[simp] theorem State.setGx_top (s : State) (v : Word) : (s.setGx v).top = s.top := rfl
@[simp] theorem State.setGx_eng (s : State) (v : Word) : (s.setGx v).eng = s.eng := rfl
@[simp] theorem State.setGx_chp (s : State) (v : Word) : (s.setGx v).chp = s.chp := rfl
@[simp] theorem State.setGx_pos (s : State) (v : Word) : (s.setGx v).pos = s.pos := rfl
@[simp] theorem State.setGx_gc (s : State) (v : Word) : (s.setGx v).gc = s.gc := rfl
@[simp] theorem State.setGx_gi (s : State) (v : Word) : (s.setGx v).gi = s.gi := rfl
@[simp] theorem State.setGx_gph (s : State) (v : Word) : (s.setGx v).gph = s.gph := rfl
@[simp] theorem State.setGx_gx (s : State) (v : Word) : (s.setGx v).gx = v := rfl
@[simp] theorem State.setGx_status (s : State) (v : Word) : (s.setGx v).status = s.status := rfl
@[simp] theorem State.setGx_cfg (s : State) (v : Word) : (s.setGx v).cfg = s.cfg := rfl
@[simp] theorem State.setGx_wcpbHw (s : State) (v : Word) : (s.setGx v).wcpbHw = s.wcpbHw := rfl
@[simp] theorem State.setGx_wcpbSw (s : State) (v : Word) : (s.setGx v).wcpbSw = s.wcpbSw := rfl
@[simp] theorem State.setGx_rsp (s : State) (v : Word) : (s.setGx v).rsp = s.rsp := rfl
@[simp] theorem State.setGx_rspCount (s : State) (v : Word) : (s.setGx v).rspCount = s.rspCount := rfl
@[simp] theorem State.setGx_eRes (s : State) (v : Word) : (s.setGx v).eRes = s.eRes := rfl
@[simp] theorem State.setGx_eTbl (s : State) (v : Word) : (s.setGx v).eTbl = s.eTbl := rfl
@[simp] theorem State.setGx_events (s : State) (v : Word) : (s.setGx v).events = s.events := rfl
@[simp] theorem State.setGx_hostQueue (s : State) (v : Word) : (s.setGx v).hostQueue = s.hostQueue := rfl

/-! ### `State.setGen` -/

@[simp] theorem State.setGen_tbl (s : State) (ph : GenPhase) (c : Channel) (i : Byte) :
    (s.setGen ph c i).tbl = s.tbl := rfl
@[simp] theorem State.setGen_acc (s : State) (ph : GenPhase) (c : Channel) (i : Byte) :
    (s.setGen ph c i).acc = s.acc := rfl
@[simp] theorem State.setGen_res (s : State) (ph : GenPhase) (c : Channel) (i : Byte) :
    (s.setGen ph c i).res = s.res := rfl
@[simp] theorem State.setGen_cksum (s : State) (ph : GenPhase) (c : Channel) (i : Byte) :
    (s.setGen ph c i).cksum = s.cksum := rfl
@[simp] theorem State.setGen_seed (s : State) (ph : GenPhase) (c : Channel) (i : Byte) :
    (s.setGen ph c i).seed = s.seed := rfl
@[simp] theorem State.setGen_len (s : State) (ph : GenPhase) (c : Channel) (i : Byte) :
    (s.setGen ph c i).len = s.len := rfl
@[simp] theorem State.setGen_buf (s : State) (ph : GenPhase) (c : Channel) (i : Byte) :
    (s.setGen ph c i).buf = s.buf := rfl
@[simp] theorem State.setGen_top (s : State) (ph : GenPhase) (c : Channel) (i : Byte) :
    (s.setGen ph c i).top = s.top := rfl
@[simp] theorem State.setGen_eng (s : State) (ph : GenPhase) (c : Channel) (i : Byte) :
    (s.setGen ph c i).eng = s.eng := rfl
@[simp] theorem State.setGen_chp (s : State) (ph : GenPhase) (c : Channel) (i : Byte) :
    (s.setGen ph c i).chp = s.chp := rfl
@[simp] theorem State.setGen_pos (s : State) (ph : GenPhase) (c : Channel) (i : Byte) :
    (s.setGen ph c i).pos = s.pos := rfl
@[simp] theorem State.setGen_gc (s : State) (ph : GenPhase) (c : Channel) (i : Byte) : (s.setGen ph c i).gc = c := rfl
@[simp] theorem State.setGen_gi (s : State) (ph : GenPhase) (c : Channel) (i : Byte) : (s.setGen ph c i).gi = i := rfl
@[simp] theorem State.setGen_gph (s : State) (ph : GenPhase) (c : Channel) (i : Byte) :
    (s.setGen ph c i).gph = ph := rfl
@[simp] theorem State.setGen_gx (s : State) (ph : GenPhase) (c : Channel) (i : Byte) :
    (s.setGen ph c i).gx = s.gx := rfl
@[simp] theorem State.setGen_status (s : State) (ph : GenPhase) (c : Channel) (i : Byte) :
    (s.setGen ph c i).status = s.status := rfl
@[simp] theorem State.setGen_cfg (s : State) (ph : GenPhase) (c : Channel) (i : Byte) :
    (s.setGen ph c i).cfg = s.cfg := rfl
@[simp] theorem State.setGen_wcpbHw (s : State) (ph : GenPhase) (c : Channel) (i : Byte) :
    (s.setGen ph c i).wcpbHw = s.wcpbHw := rfl
@[simp] theorem State.setGen_wcpbSw (s : State) (ph : GenPhase) (c : Channel) (i : Byte) :
    (s.setGen ph c i).wcpbSw = s.wcpbSw := rfl
@[simp] theorem State.setGen_rsp (s : State) (ph : GenPhase) (c : Channel) (i : Byte) :
    (s.setGen ph c i).rsp = s.rsp := rfl
@[simp] theorem State.setGen_rspCount (s : State) (ph : GenPhase) (c : Channel) (i : Byte) :
    (s.setGen ph c i).rspCount = s.rspCount := rfl
@[simp] theorem State.setGen_eRes (s : State) (ph : GenPhase) (c : Channel) (i : Byte) :
    (s.setGen ph c i).eRes = s.eRes := rfl
@[simp] theorem State.setGen_eTbl (s : State) (ph : GenPhase) (c : Channel) (i : Byte) :
    (s.setGen ph c i).eTbl = s.eTbl := rfl
@[simp] theorem State.setGen_events (s : State) (ph : GenPhase) (c : Channel) (i : Byte) :
    (s.setGen ph c i).events = s.events := rfl
@[simp] theorem State.setGen_hostQueue (s : State) (ph : GenPhase) (c : Channel) (i : Byte) :
    (s.setGen ph c i).hostQueue = s.hostQueue := rfl

/-! ### `State.setTop` -/

@[simp] theorem State.setTop_tbl (s : State) (t : Top) : (s.setTop t).tbl = s.tbl := rfl
@[simp] theorem State.setTop_acc (s : State) (t : Top) : (s.setTop t).acc = s.acc := rfl
@[simp] theorem State.setTop_res (s : State) (t : Top) : (s.setTop t).res = s.res := rfl
@[simp] theorem State.setTop_cksum (s : State) (t : Top) : (s.setTop t).cksum = s.cksum := rfl
@[simp] theorem State.setTop_seed (s : State) (t : Top) : (s.setTop t).seed = s.seed := rfl
@[simp] theorem State.setTop_len (s : State) (t : Top) : (s.setTop t).len = s.len := rfl
@[simp] theorem State.setTop_buf (s : State) (t : Top) : (s.setTop t).buf = s.buf := rfl
@[simp] theorem State.setTop_top (s : State) (t : Top) : (s.setTop t).top = t := rfl
@[simp] theorem State.setTop_eng (s : State) (t : Top) : (s.setTop t).eng = s.eng := rfl
@[simp] theorem State.setTop_chp (s : State) (t : Top) : (s.setTop t).chp = s.chp := rfl
@[simp] theorem State.setTop_pos (s : State) (t : Top) : (s.setTop t).pos = s.pos := rfl
@[simp] theorem State.setTop_gc (s : State) (t : Top) : (s.setTop t).gc = s.gc := rfl
@[simp] theorem State.setTop_gi (s : State) (t : Top) : (s.setTop t).gi = s.gi := rfl
@[simp] theorem State.setTop_gph (s : State) (t : Top) : (s.setTop t).gph = s.gph := rfl
@[simp] theorem State.setTop_gx (s : State) (t : Top) : (s.setTop t).gx = s.gx := rfl
@[simp] theorem State.setTop_status (s : State) (t : Top) : (s.setTop t).status = s.status := rfl
@[simp] theorem State.setTop_cfg (s : State) (t : Top) : (s.setTop t).cfg = s.cfg := rfl
@[simp] theorem State.setTop_wcpbHw (s : State) (t : Top) : (s.setTop t).wcpbHw = s.wcpbHw := rfl
@[simp] theorem State.setTop_wcpbSw (s : State) (t : Top) : (s.setTop t).wcpbSw = s.wcpbSw := rfl
@[simp] theorem State.setTop_rsp (s : State) (t : Top) : (s.setTop t).rsp = s.rsp := rfl
@[simp] theorem State.setTop_rspCount (s : State) (t : Top) : (s.setTop t).rspCount = s.rspCount := rfl
@[simp] theorem State.setTop_eRes (s : State) (t : Top) : (s.setTop t).eRes = s.eRes := rfl
@[simp] theorem State.setTop_eTbl (s : State) (t : Top) : (s.setTop t).eTbl = s.eTbl := rfl
@[simp] theorem State.setTop_events (s : State) (t : Top) : (s.setTop t).events = s.events := rfl
@[simp] theorem State.setTop_hostQueue (s : State) (t : Top) : (s.setTop t).hostQueue = s.hostQueue := rfl

/-! ### `State.clearValid` -/

@[simp] theorem State.clearValid_tbl (s : State) : s.clearValid.tbl = s.tbl := rfl
@[simp] theorem State.clearValid_acc (s : State) : s.clearValid.acc = s.acc := rfl
@[simp] theorem State.clearValid_res (s : State) : s.clearValid.res = s.res := rfl
@[simp] theorem State.clearValid_cksum (s : State) : s.clearValid.cksum = s.cksum := rfl
@[simp] theorem State.clearValid_seed (s : State) : s.clearValid.seed = s.seed := rfl
@[simp] theorem State.clearValid_len (s : State) : s.clearValid.len = s.len := rfl
@[simp] theorem State.clearValid_buf (s : State) : s.clearValid.buf = s.buf := rfl
@[simp] theorem State.clearValid_top (s : State) : s.clearValid.top = s.top := rfl
@[simp] theorem State.clearValid_eng (s : State) : s.clearValid.eng = s.eng := rfl
@[simp] theorem State.clearValid_chp (s : State) : s.clearValid.chp = s.chp := rfl
@[simp] theorem State.clearValid_pos (s : State) : s.clearValid.pos = s.pos := rfl
@[simp] theorem State.clearValid_gc (s : State) : s.clearValid.gc = s.gc := rfl
@[simp] theorem State.clearValid_gi (s : State) : s.clearValid.gi = s.gi := rfl
@[simp] theorem State.clearValid_gph (s : State) : s.clearValid.gph = s.gph := rfl
@[simp] theorem State.clearValid_gx (s : State) : s.clearValid.gx = s.gx := rfl
@[simp] theorem State.clearValid_status (s : State) : s.clearValid.status = { s.status with valid := false } := rfl
@[simp] theorem State.clearValid_cfg (s : State) : s.clearValid.cfg = s.cfg := rfl
@[simp] theorem State.clearValid_wcpbHw (s : State) : s.clearValid.wcpbHw = s.wcpbHw := rfl
@[simp] theorem State.clearValid_wcpbSw (s : State) : s.clearValid.wcpbSw = s.wcpbSw := rfl
@[simp] theorem State.clearValid_rsp (s : State) : s.clearValid.rsp = s.rsp := rfl
@[simp] theorem State.clearValid_rspCount (s : State) : s.clearValid.rspCount = s.rspCount := rfl
@[simp] theorem State.clearValid_eRes (s : State) : s.clearValid.eRes = s.eRes := rfl
@[simp] theorem State.clearValid_eTbl (s : State) : s.clearValid.eTbl = s.eTbl := rfl
@[simp] theorem State.clearValid_events (s : State) : s.clearValid.events = s.events := rfl
@[simp] theorem State.clearValid_hostQueue (s : State) : s.clearValid.hostQueue = s.hostQueue := rfl

/-! ### `State.respond` -/

@[simp] theorem State.respond_tbl (s : State) (r : Response) : (s.respond r).tbl = s.tbl := rfl
@[simp] theorem State.respond_acc (s : State) (r : Response) : (s.respond r).acc = s.acc := rfl
@[simp] theorem State.respond_res (s : State) (r : Response) : (s.respond r).res = s.res := rfl
@[simp] theorem State.respond_cksum (s : State) (r : Response) : (s.respond r).cksum = s.cksum := rfl
@[simp] theorem State.respond_seed (s : State) (r : Response) : (s.respond r).seed = s.seed := rfl
@[simp] theorem State.respond_len (s : State) (r : Response) : (s.respond r).len = s.len := rfl
@[simp] theorem State.respond_buf (s : State) (r : Response) : (s.respond r).buf = s.buf := rfl
@[simp] theorem State.respond_top (s : State) (r : Response) : (s.respond r).top = s.top := rfl
@[simp] theorem State.respond_eng (s : State) (r : Response) : (s.respond r).eng = s.eng := rfl
@[simp] theorem State.respond_chp (s : State) (r : Response) : (s.respond r).chp = s.chp := rfl
@[simp] theorem State.respond_pos (s : State) (r : Response) : (s.respond r).pos = s.pos := rfl
@[simp] theorem State.respond_gc (s : State) (r : Response) : (s.respond r).gc = s.gc := rfl
@[simp] theorem State.respond_gi (s : State) (r : Response) : (s.respond r).gi = s.gi := rfl
@[simp] theorem State.respond_gph (s : State) (r : Response) : (s.respond r).gph = s.gph := rfl
@[simp] theorem State.respond_gx (s : State) (r : Response) : (s.respond r).gx = s.gx := rfl
@[simp] theorem State.respond_status (s : State) (r : Response) : (s.respond r).status = s.status := rfl
@[simp] theorem State.respond_cfg (s : State) (r : Response) : (s.respond r).cfg = s.cfg := rfl
@[simp] theorem State.respond_wcpbHw (s : State) (r : Response) : (s.respond r).wcpbHw = s.wcpbHw := rfl
@[simp] theorem State.respond_wcpbSw (s : State) (r : Response) : (s.respond r).wcpbSw = s.wcpbSw := rfl
@[simp] theorem State.respond_rsp (s : State) (r : Response) : (s.respond r).rsp = some r := rfl
@[simp] theorem State.respond_rspCount (s : State) (r : Response) : (s.respond r).rspCount = s.rspCount + 1 := rfl
@[simp] theorem State.respond_eRes (s : State) (r : Response) : (s.respond r).eRes = s.eRes := rfl
@[simp] theorem State.respond_eTbl (s : State) (r : Response) : (s.respond r).eTbl = s.eTbl := rfl
@[simp] theorem State.respond_events (s : State) (r : Response) : (s.respond r).events = s.events := rfl
@[simp] theorem State.respond_hostQueue (s : State) (r : Response) : (s.respond r).hostQueue = s.hostQueue := rfl

/-! ### `State.raiseFatal` -/

@[simp] theorem State.raiseFatal_tbl (s : State) (cause : Cause) (h : cause ≠ .tableMismatch) :
    (s.raiseFatal cause).tbl = s.tbl := by
  cases cause <;> first | rfl | exact absurd rfl h
@[simp] theorem State.raiseFatal_acc (s : State) (cause : Cause) :
    (s.raiseFatal cause).acc = Config.lostAcc s.rspCount := rfl
@[simp] theorem State.raiseFatal_res (s : State) (cause : Cause) :
    (s.raiseFatal cause).res = Config.lostRes s.rspCount := rfl
@[simp] theorem State.raiseFatal_cksum (s : State) (cause : Cause) :
    (s.raiseFatal cause).cksum = Config.lostCksum s.rspCount := rfl
@[simp] theorem State.raiseFatal_seed (s : State) (cause : Cause) : (s.raiseFatal cause).seed = s.seed := rfl
@[simp] theorem State.raiseFatal_len (s : State) (cause : Cause) : (s.raiseFatal cause).len = s.len := rfl
@[simp] theorem State.raiseFatal_buf (s : State) (cause : Cause) : (s.raiseFatal cause).buf = s.buf := rfl
@[simp] theorem State.raiseFatal_top (s : State) (cause : Cause) : (s.raiseFatal cause).top = .halted := rfl
@[simp] theorem State.raiseFatal_eng (s : State) (cause : Cause) : (s.raiseFatal cause).eng = s.eng := rfl
@[simp] theorem State.raiseFatal_chp (s : State) (cause : Cause) : (s.raiseFatal cause).chp = s.chp := rfl
@[simp] theorem State.raiseFatal_pos (s : State) (cause : Cause) :
    (s.raiseFatal cause).pos = Config.lostPos s.rspCount := rfl
@[simp] theorem State.raiseFatal_gc (s : State) (cause : Cause) : (s.raiseFatal cause).gc = s.gc := rfl
@[simp] theorem State.raiseFatal_gi (s : State) (cause : Cause) : (s.raiseFatal cause).gi = s.gi := rfl
@[simp] theorem State.raiseFatal_gph (s : State) (cause : Cause) : (s.raiseFatal cause).gph = s.gph := rfl
@[simp] theorem State.raiseFatal_gx (s : State) (cause : Cause) : (s.raiseFatal cause).gx = s.gx := rfl
@[simp] theorem State.raiseFatal_status (s : State) (cause : Cause) :
    (s.raiseFatal cause).status = { s.status with halt := true, cause := cause, valid := false, busy := false } := rfl
@[simp] theorem State.raiseFatal_cfg (s : State) (cause : Cause) : (s.raiseFatal cause).cfg = s.cfg := rfl
@[simp] theorem State.raiseFatal_wcpbHw (s : State) (cause : Cause) : (s.raiseFatal cause).wcpbHw = s.wcpbHw := rfl
@[simp] theorem State.raiseFatal_wcpbSw (s : State) (cause : Cause) : (s.raiseFatal cause).wcpbSw = s.wcpbSw := rfl
@[simp] theorem State.raiseFatal_rsp (s : State) (cause : Cause) : (s.raiseFatal cause).rsp = some (.fatal cause) := rfl
@[simp] theorem State.raiseFatal_rspCount (s : State) (cause : Cause) :
    (s.raiseFatal cause).rspCount = s.rspCount + 1 := rfl
@[simp] theorem State.raiseFatal_eRes (s : State) (cause : Cause) : (s.raiseFatal cause).eRes = s.eRes := rfl
@[simp] theorem State.raiseFatal_eTbl (s : State) (cause : Cause) : (s.raiseFatal cause).eTbl = s.eTbl := rfl
@[simp] theorem State.raiseFatal_events (s : State) (cause : Cause) : (s.raiseFatal cause).events = s.events := rfl
@[simp] theorem State.raiseFatal_hostQueue (s : State) (cause : Cause) :
    (s.raiseFatal cause).hostQueue = s.hostQueue := rfl

/-! ### `State.applyReset` -/

@[simp] theorem State.applyReset_tbl (s : State) : s.applyReset.tbl = State.reset.tbl := rfl
@[simp] theorem State.applyReset_acc (s : State) : s.applyReset.acc = State.reset.acc := rfl
@[simp] theorem State.applyReset_res (s : State) : s.applyReset.res = State.reset.res := rfl
@[simp] theorem State.applyReset_cksum (s : State) : s.applyReset.cksum = State.reset.cksum := rfl
@[simp] theorem State.applyReset_seed (s : State) : s.applyReset.seed = State.reset.seed := rfl
@[simp] theorem State.applyReset_len (s : State) : s.applyReset.len = State.reset.len := rfl
@[simp] theorem State.applyReset_buf (s : State) : s.applyReset.buf = State.reset.buf := rfl
@[simp] theorem State.applyReset_top (s : State) : s.applyReset.top = State.reset.top := rfl
@[simp] theorem State.applyReset_eng (s : State) : s.applyReset.eng = State.reset.eng := rfl
@[simp] theorem State.applyReset_chp (s : State) : s.applyReset.chp = State.reset.chp := rfl
@[simp] theorem State.applyReset_pos (s : State) : s.applyReset.pos = State.reset.pos := rfl
@[simp] theorem State.applyReset_gc (s : State) : s.applyReset.gc = State.reset.gc := rfl
@[simp] theorem State.applyReset_gi (s : State) : s.applyReset.gi = State.reset.gi := rfl
@[simp] theorem State.applyReset_gph (s : State) : s.applyReset.gph = State.reset.gph := rfl
@[simp] theorem State.applyReset_gx (s : State) : s.applyReset.gx = State.reset.gx := rfl
@[simp] theorem State.applyReset_status (s : State) : s.applyReset.status = State.reset.status := rfl
@[simp] theorem State.applyReset_cfg (s : State) : s.applyReset.cfg = s.cfg := rfl
@[simp] theorem State.applyReset_wcpbHw (s : State) : s.applyReset.wcpbHw = s.wcpbHw := rfl
@[simp] theorem State.applyReset_wcpbSw (s : State) : s.applyReset.wcpbSw = s.wcpbSw := rfl
@[simp] theorem State.applyReset_rsp (s : State) : s.applyReset.rsp = State.reset.rsp := rfl
@[simp] theorem State.applyReset_rspCount (s : State) : s.applyReset.rspCount = s.rspCount := rfl
@[simp] theorem State.applyReset_eRes (s : State) : s.applyReset.eRes = s.eRes := rfl
@[simp] theorem State.applyReset_eTbl (s : State) : s.applyReset.eTbl = s.eTbl := rfl
@[simp] theorem State.applyReset_events (s : State) : s.applyReset.events = s.events := rfl
@[simp] theorem State.applyReset_hostQueue (s : State) : s.applyReset.hostQueue = s.hostQueue := rfl

/-! ### `State.beginInit` -/

@[simp] theorem State.beginInit_tbl (s : State) : s.beginInit.tbl = s.tbl := rfl
@[simp] theorem State.beginInit_acc (s : State) : s.beginInit.acc = s.acc := rfl
@[simp] theorem State.beginInit_res (s : State) : s.beginInit.res = s.res := rfl
@[simp] theorem State.beginInit_cksum (s : State) : s.beginInit.cksum = s.cksum := rfl
@[simp] theorem State.beginInit_seed (s : State) : s.beginInit.seed = s.seed := rfl
@[simp] theorem State.beginInit_len (s : State) : s.beginInit.len = s.len := rfl
@[simp] theorem State.beginInit_buf (s : State) : s.beginInit.buf = s.buf := rfl
@[simp] theorem State.beginInit_top (s : State) : s.beginInit.top = .gen := rfl
@[simp] theorem State.beginInit_eng (s : State) : s.beginInit.eng = s.eng := rfl
@[simp] theorem State.beginInit_chp (s : State) : s.beginInit.chp = s.chp := rfl
@[simp] theorem State.beginInit_pos (s : State) : s.beginInit.pos = s.pos := rfl
@[simp] theorem State.beginInit_gc (s : State) : s.beginInit.gc = .c0 := rfl
@[simp] theorem State.beginInit_gi (s : State) : s.beginInit.gi = 0#8 := rfl
@[simp] theorem State.beginInit_gph (s : State) : s.beginInit.gph = .build := rfl
@[simp] theorem State.beginInit_gx (s : State) : s.beginInit.gx = s.gx := rfl
@[simp] theorem State.beginInit_status (s : State) : s.beginInit.status = { s.status with busy := true } := rfl
@[simp] theorem State.beginInit_cfg (s : State) : s.beginInit.cfg = s.cfg := rfl
@[simp] theorem State.beginInit_wcpbHw (s : State) : s.beginInit.wcpbHw = s.wcpbHw := rfl
@[simp] theorem State.beginInit_wcpbSw (s : State) : s.beginInit.wcpbSw = s.wcpbSw := rfl
@[simp] theorem State.beginInit_rsp (s : State) : s.beginInit.rsp = s.rsp := rfl
@[simp] theorem State.beginInit_rspCount (s : State) : s.beginInit.rspCount = s.rspCount := rfl
@[simp] theorem State.beginInit_eRes (s : State) : s.beginInit.eRes = s.eRes := rfl
@[simp] theorem State.beginInit_eTbl (s : State) : s.beginInit.eTbl = s.eTbl := rfl
@[simp] theorem State.beginInit_events (s : State) : s.beginInit.events = s.events := rfl
@[simp] theorem State.beginInit_hostQueue (s : State) : s.beginInit.hostQueue = s.hostQueue := rfl

/-! ### `State.finishInit` -/

@[simp] theorem State.finishInit_tbl (s : State) : s.finishInit.tbl = s.tbl := rfl
@[simp] theorem State.finishInit_acc (s : State) : s.finishInit.acc = s.acc := rfl
@[simp] theorem State.finishInit_res (s : State) : s.finishInit.res = s.res := rfl
@[simp] theorem State.finishInit_cksum (s : State) : s.finishInit.cksum = s.cksum := rfl
@[simp] theorem State.finishInit_seed (s : State) : s.finishInit.seed = s.seed := rfl
@[simp] theorem State.finishInit_len (s : State) : s.finishInit.len = s.len := rfl
@[simp] theorem State.finishInit_buf (s : State) : s.finishInit.buf = s.buf := rfl
@[simp] theorem State.finishInit_top (s : State) : s.finishInit.top = .idle := rfl
@[simp] theorem State.finishInit_eng (s : State) : s.finishInit.eng = s.eng := rfl
@[simp] theorem State.finishInit_chp (s : State) : s.finishInit.chp = s.chp := rfl
@[simp] theorem State.finishInit_pos (s : State) : s.finishInit.pos = s.pos := rfl
@[simp] theorem State.finishInit_gc (s : State) : s.finishInit.gc = s.gc := rfl
@[simp] theorem State.finishInit_gi (s : State) : s.finishInit.gi = s.gi := rfl
@[simp] theorem State.finishInit_gph (s : State) : s.finishInit.gph = s.gph := rfl
@[simp] theorem State.finishInit_gx (s : State) : s.finishInit.gx = s.gx := rfl
@[simp] theorem State.finishInit_status (s : State) :
    s.finishInit.status = { s.status with initDone := true, busy := false } := rfl
@[simp] theorem State.finishInit_cfg (s : State) : s.finishInit.cfg = s.cfg := rfl
@[simp] theorem State.finishInit_wcpbHw (s : State) : s.finishInit.wcpbHw = s.wcpbHw := rfl
@[simp] theorem State.finishInit_wcpbSw (s : State) : s.finishInit.wcpbSw = s.wcpbSw := rfl
@[simp] theorem State.finishInit_rsp (s : State) : s.finishInit.rsp = some .done := rfl
@[simp] theorem State.finishInit_rspCount (s : State) : s.finishInit.rspCount = s.rspCount + 1 := rfl
@[simp] theorem State.finishInit_eRes (s : State) : s.finishInit.eRes = s.eRes := rfl
@[simp] theorem State.finishInit_eTbl (s : State) : s.finishInit.eTbl = s.eTbl := rfl
@[simp] theorem State.finishInit_events (s : State) : s.finishInit.events = s.events := rfl
@[simp] theorem State.finishInit_hostQueue (s : State) : s.finishInit.hostQueue = s.hostQueue := rfl

/-! ### `State.latchCall` -/

@[simp] theorem State.latchCall_tbl (s : State) (eng : Engine) (seed : Word) (len : Nat) (data : List Byte) :
    (s.latchCall eng seed len data).tbl = s.tbl := rfl
@[simp] theorem State.latchCall_acc (s : State) (eng : Engine) (seed : Word) (len : Nat) (data : List Byte) :
    (s.latchCall eng seed len data).acc = s.acc := rfl
@[simp] theorem State.latchCall_res (s : State) (eng : Engine) (seed : Word) (len : Nat) (data : List Byte) :
    (s.latchCall eng seed len data).res = s.res := rfl
@[simp] theorem State.latchCall_cksum (s : State) (eng : Engine) (seed : Word) (len : Nat) (data : List Byte) :
    (s.latchCall eng seed len data).cksum = s.cksum := rfl
@[simp] theorem State.latchCall_seed (s : State) (eng : Engine) (seed : Word) (len : Nat) (data : List Byte) :
    (s.latchCall eng seed len data).seed = seed := rfl
@[simp] theorem State.latchCall_len (s : State) (eng : Engine) (seed : Word) (len : Nat) (data : List Byte) :
    (s.latchCall eng seed len data).len = len := rfl
@[simp] theorem State.latchCall_buf (s : State) (eng : Engine) (seed : Word) (len : Nat) (data : List Byte) :
    (s.latchCall eng seed len data).buf = data := rfl
@[simp] theorem State.latchCall_top (s : State) (eng : Engine) (seed : Word) (len : Nat) (data : List Byte) :
    (s.latchCall eng seed len data).top = .run := rfl
@[simp] theorem State.latchCall_eng (s : State) (eng : Engine) (seed : Word) (len : Nat) (data : List Byte) :
    (s.latchCall eng seed len data).eng = eng := rfl
@[simp] theorem State.latchCall_chp (s : State) (eng : Engine) (seed : Word) (len : Nat) (data : List Byte) :
    (s.latchCall eng seed len data).chp = s.chp := rfl
@[simp] theorem State.latchCall_pos (s : State) (eng : Engine) (seed : Word) (len : Nat) (data : List Byte) :
    (s.latchCall eng seed len data).pos = s.pos := rfl
@[simp] theorem State.latchCall_gc (s : State) (eng : Engine) (seed : Word) (len : Nat) (data : List Byte) :
    (s.latchCall eng seed len data).gc = s.gc := rfl
@[simp] theorem State.latchCall_gi (s : State) (eng : Engine) (seed : Word) (len : Nat) (data : List Byte) :
    (s.latchCall eng seed len data).gi = s.gi := rfl
@[simp] theorem State.latchCall_gph (s : State) (eng : Engine) (seed : Word) (len : Nat) (data : List Byte) :
    (s.latchCall eng seed len data).gph = s.gph := rfl
@[simp] theorem State.latchCall_gx (s : State) (eng : Engine) (seed : Word) (len : Nat) (data : List Byte) :
    (s.latchCall eng seed len data).gx = s.gx := rfl
@[simp] theorem State.latchCall_status (s : State) (eng : Engine) (seed : Word) (len : Nat) (data : List Byte) :
    (s.latchCall eng seed len data).status = { s.status with busy := true } := rfl
@[simp] theorem State.latchCall_cfg (s : State) (eng : Engine) (seed : Word) (len : Nat) (data : List Byte) :
    (s.latchCall eng seed len data).cfg = s.cfg := rfl
@[simp] theorem State.latchCall_wcpbHw (s : State) (eng : Engine) (seed : Word) (len : Nat) (data : List Byte) :
    (s.latchCall eng seed len data).wcpbHw = s.wcpbHw := rfl
@[simp] theorem State.latchCall_wcpbSw (s : State) (eng : Engine) (seed : Word) (len : Nat) (data : List Byte) :
    (s.latchCall eng seed len data).wcpbSw = s.wcpbSw := rfl
@[simp] theorem State.latchCall_rsp (s : State) (eng : Engine) (seed : Word) (len : Nat) (data : List Byte) :
    (s.latchCall eng seed len data).rsp = s.rsp := rfl
@[simp] theorem State.latchCall_rspCount (s : State) (eng : Engine) (seed : Word) (len : Nat) (data : List Byte) :
    (s.latchCall eng seed len data).rspCount = s.rspCount := rfl
@[simp] theorem State.latchCall_eRes (s : State) (eng : Engine) (seed : Word) (len : Nat) (data : List Byte) :
    (s.latchCall eng seed len data).eRes = s.eRes := rfl
@[simp] theorem State.latchCall_eTbl (s : State) (eng : Engine) (seed : Word) (len : Nat) (data : List Byte) :
    (s.latchCall eng seed len data).eTbl = s.eTbl := rfl
@[simp] theorem State.latchCall_events (s : State) (eng : Engine) (seed : Word) (len : Nat) (data : List Byte) :
    (s.latchCall eng seed len data).events = s.events := rfl
@[simp] theorem State.latchCall_hostQueue (s : State) (eng : Engine) (seed : Word) (len : Nat) (data : List Byte) :
    (s.latchCall eng seed len data).hostQueue = s.hostQueue := rfl

/-! ### `State.commitChecksum` -/

@[simp] theorem State.commitChecksum_tbl (s : State) (v : Word) : (s.commitChecksum v).tbl = s.tbl := rfl
@[simp] theorem State.commitChecksum_acc (s : State) (v : Word) : (s.commitChecksum v).acc = s.acc := rfl
@[simp] theorem State.commitChecksum_res (s : State) (v : Word) : (s.commitChecksum v).res = s.res := rfl
@[simp] theorem State.commitChecksum_cksum (s : State) (v : Word) : (s.commitChecksum v).cksum = v := rfl
@[simp] theorem State.commitChecksum_seed (s : State) (v : Word) : (s.commitChecksum v).seed = s.seed := rfl
@[simp] theorem State.commitChecksum_len (s : State) (v : Word) : (s.commitChecksum v).len = s.len := rfl
@[simp] theorem State.commitChecksum_buf (s : State) (v : Word) : (s.commitChecksum v).buf = s.buf := rfl
@[simp] theorem State.commitChecksum_top (s : State) (v : Word) : (s.commitChecksum v).top = .idle := rfl
@[simp] theorem State.commitChecksum_eng (s : State) (v : Word) : (s.commitChecksum v).eng = s.eng := rfl
@[simp] theorem State.commitChecksum_chp (s : State) (v : Word) : (s.commitChecksum v).chp = Tri.all .chIdle := rfl
@[simp] theorem State.commitChecksum_pos (s : State) (v : Word) : (s.commitChecksum v).pos = s.pos := rfl
@[simp] theorem State.commitChecksum_gc (s : State) (v : Word) : (s.commitChecksum v).gc = s.gc := rfl
@[simp] theorem State.commitChecksum_gi (s : State) (v : Word) : (s.commitChecksum v).gi = s.gi := rfl
@[simp] theorem State.commitChecksum_gph (s : State) (v : Word) : (s.commitChecksum v).gph = s.gph := rfl
@[simp] theorem State.commitChecksum_gx (s : State) (v : Word) : (s.commitChecksum v).gx = s.gx := rfl
@[simp] theorem State.commitChecksum_status (s : State) (v : Word) :
    (s.commitChecksum v).status = { s.status with valid := true, busy := false } := rfl
@[simp] theorem State.commitChecksum_cfg (s : State) (v : Word) : (s.commitChecksum v).cfg = s.cfg := rfl
@[simp] theorem State.commitChecksum_wcpbHw (s : State) (v : Word) : (s.commitChecksum v).wcpbHw = s.wcpbHw := rfl
@[simp] theorem State.commitChecksum_wcpbSw (s : State) (v : Word) : (s.commitChecksum v).wcpbSw = s.wcpbSw := rfl
@[simp] theorem State.commitChecksum_rsp (s : State) (v : Word) : (s.commitChecksum v).rsp = some (.value v) := rfl
@[simp] theorem State.commitChecksum_rspCount (s : State) (v : Word) :
    (s.commitChecksum v).rspCount = s.rspCount + 1 := rfl
@[simp] theorem State.commitChecksum_eRes (s : State) (v : Word) : (s.commitChecksum v).eRes = s.eRes := rfl
@[simp] theorem State.commitChecksum_eTbl (s : State) (v : Word) : (s.commitChecksum v).eTbl = s.eTbl := rfl
@[simp] theorem State.commitChecksum_events (s : State) (v : Word) : (s.commitChecksum v).events = s.events := rfl
@[simp] theorem State.commitChecksum_hostQueue (s : State) (v : Word) :
    (s.commitChecksum v).hostQueue = s.hostQueue := rfl

/-! ### `State.loadResults` -/

@[simp] theorem State.loadResults_tbl (s : State) (r0 r1 r2 : Word) : (s.loadResults r0 r1 r2).tbl = s.tbl := rfl
@[simp] theorem State.loadResults_acc (s : State) (r0 r1 r2 : Word) : (s.loadResults r0 r1 r2).acc = s.acc := rfl
@[simp] theorem State.loadResults_res (s : State) (r0 r1 r2 : Word) : (s.loadResults r0 r1 r2).res = ⟨r0, r1, r2⟩ := rfl
@[simp] theorem State.loadResults_cksum (s : State) (r0 r1 r2 : Word) : (s.loadResults r0 r1 r2).cksum = s.cksum := rfl
@[simp] theorem State.loadResults_seed (s : State) (r0 r1 r2 : Word) : (s.loadResults r0 r1 r2).seed = s.seed := rfl
@[simp] theorem State.loadResults_len (s : State) (r0 r1 r2 : Word) : (s.loadResults r0 r1 r2).len = s.len := rfl
@[simp] theorem State.loadResults_buf (s : State) (r0 r1 r2 : Word) : (s.loadResults r0 r1 r2).buf = s.buf := rfl
@[simp] theorem State.loadResults_top (s : State) (r0 r1 r2 : Word) : (s.loadResults r0 r1 r2).top = s.top := rfl
@[simp] theorem State.loadResults_eng (s : State) (r0 r1 r2 : Word) : (s.loadResults r0 r1 r2).eng = s.eng := rfl
@[simp] theorem State.loadResults_chp (s : State) (r0 r1 r2 : Word) : (s.loadResults r0 r1 r2).chp = s.chp := rfl
@[simp] theorem State.loadResults_pos (s : State) (r0 r1 r2 : Word) : (s.loadResults r0 r1 r2).pos = s.pos := rfl
@[simp] theorem State.loadResults_gc (s : State) (r0 r1 r2 : Word) : (s.loadResults r0 r1 r2).gc = s.gc := rfl
@[simp] theorem State.loadResults_gi (s : State) (r0 r1 r2 : Word) : (s.loadResults r0 r1 r2).gi = s.gi := rfl
@[simp] theorem State.loadResults_gph (s : State) (r0 r1 r2 : Word) : (s.loadResults r0 r1 r2).gph = s.gph := rfl
@[simp] theorem State.loadResults_gx (s : State) (r0 r1 r2 : Word) : (s.loadResults r0 r1 r2).gx = s.gx := rfl
@[simp] theorem State.loadResults_status (s : State) (r0 r1 r2 : Word) :
    (s.loadResults r0 r1 r2).status = s.status := rfl
@[simp] theorem State.loadResults_cfg (s : State) (r0 r1 r2 : Word) : (s.loadResults r0 r1 r2).cfg = s.cfg := rfl
@[simp] theorem State.loadResults_wcpbHw (s : State) (r0 r1 r2 : Word) :
    (s.loadResults r0 r1 r2).wcpbHw = s.wcpbHw := rfl
@[simp] theorem State.loadResults_wcpbSw (s : State) (r0 r1 r2 : Word) :
    (s.loadResults r0 r1 r2).wcpbSw = s.wcpbSw := rfl
@[simp] theorem State.loadResults_rsp (s : State) (r0 r1 r2 : Word) : (s.loadResults r0 r1 r2).rsp = s.rsp := rfl
@[simp] theorem State.loadResults_rspCount (s : State) (r0 r1 r2 : Word) :
    (s.loadResults r0 r1 r2).rspCount = s.rspCount := rfl
@[simp] theorem State.loadResults_eRes (s : State) (r0 r1 r2 : Word) : (s.loadResults r0 r1 r2).eRes = s.eRes := rfl
@[simp] theorem State.loadResults_eTbl (s : State) (r0 r1 r2 : Word) : (s.loadResults r0 r1 r2).eTbl = s.eTbl := rfl
@[simp] theorem State.loadResults_events (s : State) (r0 r1 r2 : Word) :
    (s.loadResults r0 r1 r2).events = s.events := rfl
@[simp] theorem State.loadResults_hostQueue (s : State) (r0 r1 r2 : Word) :
    (s.loadResults r0 r1 r2).hostQueue = s.hostQueue := rfl

/-! ### `State.setMasks` -/

@[simp] theorem State.applyDraw_eq (s : State) (d : Draw) : s.applyDraw d = s.setMasks d.eRes d.eTbl := rfl
@[simp] theorem State.setMasks_tbl (s : State) (eRes : Tri Word) (eTbl : Tri Table) : (s.setMasks eRes eTbl).tbl = s.tbl := rfl
@[simp] theorem State.setMasks_acc (s : State) (eRes : Tri Word) (eTbl : Tri Table) : (s.setMasks eRes eTbl).acc = s.acc := rfl
@[simp] theorem State.setMasks_res (s : State) (eRes : Tri Word) (eTbl : Tri Table) : (s.setMasks eRes eTbl).res = s.res := rfl
@[simp] theorem State.setMasks_cksum (s : State) (eRes : Tri Word) (eTbl : Tri Table) : (s.setMasks eRes eTbl).cksum = s.cksum := rfl
@[simp] theorem State.setMasks_seed (s : State) (eRes : Tri Word) (eTbl : Tri Table) : (s.setMasks eRes eTbl).seed = s.seed := rfl
@[simp] theorem State.setMasks_len (s : State) (eRes : Tri Word) (eTbl : Tri Table) : (s.setMasks eRes eTbl).len = s.len := rfl
@[simp] theorem State.setMasks_buf (s : State) (eRes : Tri Word) (eTbl : Tri Table) : (s.setMasks eRes eTbl).buf = s.buf := rfl
@[simp] theorem State.setMasks_top (s : State) (eRes : Tri Word) (eTbl : Tri Table) : (s.setMasks eRes eTbl).top = s.top := rfl
@[simp] theorem State.setMasks_eng (s : State) (eRes : Tri Word) (eTbl : Tri Table) : (s.setMasks eRes eTbl).eng = s.eng := rfl
@[simp] theorem State.setMasks_chp (s : State) (eRes : Tri Word) (eTbl : Tri Table) : (s.setMasks eRes eTbl).chp = s.chp := rfl
@[simp] theorem State.setMasks_pos (s : State) (eRes : Tri Word) (eTbl : Tri Table) : (s.setMasks eRes eTbl).pos = s.pos := rfl
@[simp] theorem State.setMasks_gc (s : State) (eRes : Tri Word) (eTbl : Tri Table) : (s.setMasks eRes eTbl).gc = s.gc := rfl
@[simp] theorem State.setMasks_gi (s : State) (eRes : Tri Word) (eTbl : Tri Table) : (s.setMasks eRes eTbl).gi = s.gi := rfl
@[simp] theorem State.setMasks_gph (s : State) (eRes : Tri Word) (eTbl : Tri Table) : (s.setMasks eRes eTbl).gph = s.gph := rfl
@[simp] theorem State.setMasks_gx (s : State) (eRes : Tri Word) (eTbl : Tri Table) : (s.setMasks eRes eTbl).gx = s.gx := rfl
@[simp] theorem State.setMasks_status (s : State) (eRes : Tri Word) (eTbl : Tri Table) : (s.setMasks eRes eTbl).status = s.status := rfl
@[simp] theorem State.setMasks_cfg (s : State) (eRes : Tri Word) (eTbl : Tri Table) : (s.setMasks eRes eTbl).cfg = s.cfg := rfl
@[simp] theorem State.setMasks_wcpbHw (s : State) (eRes : Tri Word) (eTbl : Tri Table) : (s.setMasks eRes eTbl).wcpbHw = s.wcpbHw := rfl
@[simp] theorem State.setMasks_wcpbSw (s : State) (eRes : Tri Word) (eTbl : Tri Table) : (s.setMasks eRes eTbl).wcpbSw = s.wcpbSw := rfl
@[simp] theorem State.setMasks_rsp (s : State) (eRes : Tri Word) (eTbl : Tri Table) : (s.setMasks eRes eTbl).rsp = s.rsp := rfl
@[simp] theorem State.setMasks_rspCount (s : State) (eRes : Tri Word) (eTbl : Tri Table) : (s.setMasks eRes eTbl).rspCount = s.rspCount := rfl
@[simp] theorem State.setMasks_eRes (s : State) (eRes : Tri Word) (eTbl : Tri Table) : (s.setMasks eRes eTbl).eRes = eRes := rfl
@[simp] theorem State.setMasks_eTbl (s : State) (eRes : Tri Word) (eTbl : Tri Table) : (s.setMasks eRes eTbl).eTbl = eTbl := rfl
@[simp] theorem State.setMasks_events (s : State) (eRes : Tri Word) (eTbl : Tri Table) : (s.setMasks eRes eTbl).events = s.events := rfl
@[simp] theorem State.setMasks_hostQueue (s : State) (eRes : Tri Word) (eTbl : Tri Table) : (s.setMasks eRes eTbl).hostQueue = s.hostQueue := rfl

/-! ### `State.setEvents` -/

@[simp] theorem State.setEvents_tbl (s : State) (es : List Event) : (s.setEvents es).tbl = s.tbl := rfl
@[simp] theorem State.setEvents_acc (s : State) (es : List Event) : (s.setEvents es).acc = s.acc := rfl
@[simp] theorem State.setEvents_res (s : State) (es : List Event) : (s.setEvents es).res = s.res := rfl
@[simp] theorem State.setEvents_cksum (s : State) (es : List Event) : (s.setEvents es).cksum = s.cksum := rfl
@[simp] theorem State.setEvents_seed (s : State) (es : List Event) : (s.setEvents es).seed = s.seed := rfl
@[simp] theorem State.setEvents_len (s : State) (es : List Event) : (s.setEvents es).len = s.len := rfl
@[simp] theorem State.setEvents_buf (s : State) (es : List Event) : (s.setEvents es).buf = s.buf := rfl
@[simp] theorem State.setEvents_top (s : State) (es : List Event) : (s.setEvents es).top = s.top := rfl
@[simp] theorem State.setEvents_eng (s : State) (es : List Event) : (s.setEvents es).eng = s.eng := rfl
@[simp] theorem State.setEvents_chp (s : State) (es : List Event) : (s.setEvents es).chp = s.chp := rfl
@[simp] theorem State.setEvents_pos (s : State) (es : List Event) : (s.setEvents es).pos = s.pos := rfl
@[simp] theorem State.setEvents_gc (s : State) (es : List Event) : (s.setEvents es).gc = s.gc := rfl
@[simp] theorem State.setEvents_gi (s : State) (es : List Event) : (s.setEvents es).gi = s.gi := rfl
@[simp] theorem State.setEvents_gph (s : State) (es : List Event) : (s.setEvents es).gph = s.gph := rfl
@[simp] theorem State.setEvents_gx (s : State) (es : List Event) : (s.setEvents es).gx = s.gx := rfl
@[simp] theorem State.setEvents_status (s : State) (es : List Event) : (s.setEvents es).status = s.status := rfl
@[simp] theorem State.setEvents_cfg (s : State) (es : List Event) : (s.setEvents es).cfg = s.cfg := rfl
@[simp] theorem State.setEvents_wcpbHw (s : State) (es : List Event) : (s.setEvents es).wcpbHw = s.wcpbHw := rfl
@[simp] theorem State.setEvents_wcpbSw (s : State) (es : List Event) : (s.setEvents es).wcpbSw = s.wcpbSw := rfl
@[simp] theorem State.setEvents_rsp (s : State) (es : List Event) : (s.setEvents es).rsp = s.rsp := rfl
@[simp] theorem State.setEvents_rspCount (s : State) (es : List Event) : (s.setEvents es).rspCount = s.rspCount := rfl
@[simp] theorem State.setEvents_eRes (s : State) (es : List Event) : (s.setEvents es).eRes = s.eRes := rfl
@[simp] theorem State.setEvents_eTbl (s : State) (es : List Event) : (s.setEvents es).eTbl = s.eTbl := rfl
@[simp] theorem State.setEvents_events (s : State) (es : List Event) : (s.setEvents es).events = es := rfl
@[simp] theorem State.setEvents_hostQueue (s : State) (es : List Event) : (s.setEvents es).hostQueue = s.hostQueue := rfl

/-! ### `State.setQueue` -/

@[simp] theorem State.setQueue_tbl (s : State) (q : List Arrival) : (s.setQueue q).tbl = s.tbl := rfl
@[simp] theorem State.setQueue_acc (s : State) (q : List Arrival) : (s.setQueue q).acc = s.acc := rfl
@[simp] theorem State.setQueue_res (s : State) (q : List Arrival) : (s.setQueue q).res = s.res := rfl
@[simp] theorem State.setQueue_cksum (s : State) (q : List Arrival) : (s.setQueue q).cksum = s.cksum := rfl
@[simp] theorem State.setQueue_seed (s : State) (q : List Arrival) : (s.setQueue q).seed = s.seed := rfl
@[simp] theorem State.setQueue_len (s : State) (q : List Arrival) : (s.setQueue q).len = s.len := rfl
@[simp] theorem State.setQueue_buf (s : State) (q : List Arrival) : (s.setQueue q).buf = s.buf := rfl
@[simp] theorem State.setQueue_top (s : State) (q : List Arrival) : (s.setQueue q).top = s.top := rfl
@[simp] theorem State.setQueue_eng (s : State) (q : List Arrival) : (s.setQueue q).eng = s.eng := rfl
@[simp] theorem State.setQueue_chp (s : State) (q : List Arrival) : (s.setQueue q).chp = s.chp := rfl
@[simp] theorem State.setQueue_pos (s : State) (q : List Arrival) : (s.setQueue q).pos = s.pos := rfl
@[simp] theorem State.setQueue_gc (s : State) (q : List Arrival) : (s.setQueue q).gc = s.gc := rfl
@[simp] theorem State.setQueue_gi (s : State) (q : List Arrival) : (s.setQueue q).gi = s.gi := rfl
@[simp] theorem State.setQueue_gph (s : State) (q : List Arrival) : (s.setQueue q).gph = s.gph := rfl
@[simp] theorem State.setQueue_gx (s : State) (q : List Arrival) : (s.setQueue q).gx = s.gx := rfl
@[simp] theorem State.setQueue_status (s : State) (q : List Arrival) : (s.setQueue q).status = s.status := rfl
@[simp] theorem State.setQueue_cfg (s : State) (q : List Arrival) : (s.setQueue q).cfg = s.cfg := rfl
@[simp] theorem State.setQueue_wcpbHw (s : State) (q : List Arrival) : (s.setQueue q).wcpbHw = s.wcpbHw := rfl
@[simp] theorem State.setQueue_wcpbSw (s : State) (q : List Arrival) : (s.setQueue q).wcpbSw = s.wcpbSw := rfl
@[simp] theorem State.setQueue_rsp (s : State) (q : List Arrival) : (s.setQueue q).rsp = s.rsp := rfl
@[simp] theorem State.setQueue_rspCount (s : State) (q : List Arrival) : (s.setQueue q).rspCount = s.rspCount := rfl
@[simp] theorem State.setQueue_eRes (s : State) (q : List Arrival) : (s.setQueue q).eRes = s.eRes := rfl
@[simp] theorem State.setQueue_eTbl (s : State) (q : List Arrival) : (s.setQueue q).eTbl = s.eTbl := rfl
@[simp] theorem State.setQueue_events (s : State) (q : List Arrival) : (s.setQueue q).events = s.events := rfl
@[simp] theorem State.setQueue_hostQueue (s : State) (q : List Arrival) : (s.setQueue q).hostQueue = q := rfl

end Machine

end Sys2Proof
end

