-- ==== Sys2Proof/Laws/Decode.lean ====
section
/-! SUPPORT. Laws of the code tables and of the field extraction (30_encoding.md R92, R93, R98). -/

namespace Sys2Proof

/-! ### Code tables -/

@[simp] theorem HostOp.ofCode_code (h : HostOp) : HostOp.ofCode h.code = some h := by cases h <;> rfl

theorem HostOp.code_of_ofCode {op : BitVec 8} {h : HostOp} (e : HostOp.ofCode op = some h) : h.code = op := by
  have := List.find?_some e
  simpa using this

@[simp] theorem MicroOp.ofCode_code (u : MicroOp) : MicroOp.ofCode u.code = some u := by cases u <;> rfl

theorem MicroOp.code_of_ofCode {op : BitVec 4} {u : MicroOp} (e : MicroOp.ofCode op = some u) : u.code = op := by
  have := List.find?_some e
  simpa using this

@[simp] theorem Channel.ofCode_code (c : Channel) : Channel.ofCode c.code = some c := by cases c <;> rfl

theorem Channel.code_of_ofCode {ch : BitVec 2} {c : Channel} (e : Channel.ofCode ch = some c) : c.code = ch := by
  have := List.find?_some e
  simpa using this

/-- No two host opcodes have the same code. -/
theorem HostOp.code_inj {h k : HostOp} (e : h.code = k.code) : h = k := by
  have := congrArg HostOp.ofCode e
  simpa using this

/-! ### Fields of the words `encode` builds -/

theorem cwOp_append (a b c : Word) (op : BitVec 8) : cwOp (c ++ b ++ a ++ op : BitVec (32 + 32 + 32 + 8)) = op := by
  apply BitVec.eq_of_getLsbD_eq
  intro i hi
  simp only [cwOp, BitVec.getLsbD_extractLsb', hi, decide_true, Bool.true_and]
  rw [BitVec.getLsbD_append, if_pos (by omega)]
  congr 1; omega

theorem cwA_append (a b c : Word) (op : BitVec 8) : cwA (c ++ b ++ a ++ op : BitVec (32 + 32 + 32 + 8)) = a := by
  apply BitVec.eq_of_getLsbD_eq
  intro i hi
  simp only [cwA, BitVec.getLsbD_extractLsb', hi, decide_true, Bool.true_and]
  rw [BitVec.getLsbD_append, if_neg (by omega), BitVec.getLsbD_append, if_pos (by omega)]
  congr 1; omega

theorem cwB_append (a b c : Word) (op : BitVec 8) : cwB (c ++ b ++ a ++ op : BitVec (32 + 32 + 32 + 8)) = b := by
  apply BitVec.eq_of_getLsbD_eq
  intro i hi
  simp only [cwB, BitVec.getLsbD_extractLsb', hi, decide_true, Bool.true_and]
  rw [BitVec.getLsbD_append, if_neg (by omega), BitVec.getLsbD_append, if_neg (by omega), BitVec.getLsbD_append,
    if_pos (by omega)]
  congr 1; omega

theorem cwC_append (a b c : Word) (op : BitVec 8) : cwC (c ++ b ++ a ++ op : BitVec (32 + 32 + 32 + 8)) = c := by
  apply BitVec.eq_of_getLsbD_eq
  intro i hi
  simp only [cwC, BitVec.getLsbD_extractLsb', hi, decide_true, Bool.true_and]
  rw [BitVec.getLsbD_append, if_neg (by omega), BitVec.getLsbD_append, if_neg (by omega), BitVec.getLsbD_append,
    if_neg (by omega)]
  congr 1; omega

theorem uwOp_append (ch : BitVec 2) (op : BitVec 4) : uwOp (ch ++ op : BitVec (2 + 4)) = op := by
  apply BitVec.eq_of_getLsbD_eq
  intro i hi
  simp only [uwOp, BitVec.getLsbD_extractLsb', hi, decide_true, Bool.true_and]
  rw [BitVec.getLsbD_append, if_pos (by omega)]
  congr 1; omega

theorem uwCh_append (ch : BitVec 2) (op : BitVec 4) : uwCh (ch ++ op : BitVec (2 + 4)) = ch := by
  apply BitVec.eq_of_getLsbD_eq
  intro i hi
  simp only [uwCh, BitVec.getLsbD_extractLsb', hi, decide_true, Bool.true_and]
  rw [BitVec.getLsbD_append, if_neg (by omega)]
  congr 1; omega

/-! ### What a decoded word is -/

/-- A format-HB word decodes exactly when `DATA` fits `LEN`; above the bound `DATA` is dropped (R94, R96). -/
theorem decodeBuffer_ok {mk : Word → Word → List Byte → Instr} {p : Presentation} {i : Instr} :
    decodeBuffer mk p = .ok i ↔
      ((cwB p.cw).toNat ≤ Config.maxInputSize ∧ p.data.length = (cwB p.cw).toNat ∧ i = mk (cwA p.cw) (cwB p.cw) p.data) ∨
      (Config.maxInputSize < (cwB p.cw).toNat ∧ i = mk (cwA p.cw) (cwB p.cw) []) := by
  unfold decodeBuffer
  by_cases h : (cwB p.cw).toNat ≤ Config.maxInputSize
  · by_cases hl : p.data.length = (cwB p.cw).toNat
    · simp [h, hl, eq_comm]
    · simp [h, hl]
  · simp [h, eq_comm, Nat.lt_of_not_le h]

/-- A word of an operation on a channel decodes exactly when `CH` names one (R98). -/
theorem decodeChannel_ok {mk : Channel → Instr} {uw : BitVec 6} {i : Instr} :
    decodeChannel mk uw = .ok i ↔ ∃ c, Channel.ofCode (uwCh uw) = some c ∧ i = mk c := by
  unfold decodeChannel
  cases Channel.ofCode (uwCh uw) with
  | none => simp
  | some c => simp [eq_comm]

/-- What the host presents decodes to a host command (R93). -/
theorem decodeCommand_isHost {p : Presentation} {i : Instr} (h : decodeCommand p = .ok i) :
    Machine.isHostCommand i = true := by
  unfold decodeCommand at h
  split at h
  · cases h
  · cases h; rfl
  · rcases decodeBuffer_ok.mp h with ⟨-, -, rfl⟩ | ⟨-, rfl⟩ <;> rfl
  · rcases decodeBuffer_ok.mp h with ⟨-, -, rfl⟩ | ⟨-, rfl⟩ <;> rfl
  · rcases decodeBuffer_ok.mp h with ⟨-, -, rfl⟩ | ⟨-, rfl⟩ <;> rfl
  · cases h; rfl
  · cases h; rfl
  · cases h; rfl
  · cases h; rfl

/-- A micro-operation word decodes to a micro-operation (R98). -/
theorem decodeMicro_isMicro {uw : BitVec 6} {i : Instr} (h : decodeMicro uw = .ok i) :
    Machine.isHostCommand i = false := by
  unfold decodeMicro at h
  split at h
  · cases h
  · cases h; rfl
  · cases h; rfl
  all_goals
    obtain ⟨c, -, rfl⟩ := decodeChannel_ok.mp h
    rfl

end Sys2Proof
end

