-- ==== Sys2Proof/Laws/Crc.lean ====
section
/-! SUPPORT. Laws of the pure functions: the bit iteration is linear over exclusive or, table reads after writes, the word
step as eight byte steps, the reference function's byte step. -/

namespace Sys2Proof.Machine

/-! ### The bit iteration -/

/-- The bit iteration as one exclusive or, the polynomial selected by the low bit. -/
theorem bitStep_eq_xor (x : Word) :
    bitStep x = (x >>> 1) ^^^ (if x.getLsbD 0 then Config.poly else 0#32) := by
  unfold bitStep
  split <;> simp

/-- `BitStep(x ^ y) = BitStep(x) ^ BitStep(y)` (40_table_generator.md R120). -/
theorem bitStep_xor (x y : Word) : bitStep (x ^^^ y) = bitStep x ^^^ bitStep y := by
  simp only [bitStep_eq_xor, BitVec.ushiftRight_xor_distrib, BitVec.getLsbD_xor]
  cases x.getLsbD 0 <;> cases y.getLsbD 0 <;> simp
  · ac_rfl
  · ac_rfl
  · rw [show (x >>> 1 ^^^ Config.poly) ^^^ (y >>> 1 ^^^ Config.poly) =
      x >>> 1 ^^^ y >>> 1 ^^^ (Config.poly ^^^ Config.poly) by ac_rfl]
    simp

@[simp] theorem bitStep_zero : bitStep 0#32 = 0#32 := by decide

@[simp] theorem bitSteps_zero_steps (x : Word) : bitSteps 0 x = x := rfl

theorem bitSteps_succ (n : Nat) (x : Word) : bitSteps (n + 1) x = bitSteps n (bitStep x) := rfl

/-- Any number of bit iterations is linear over exclusive or. -/
theorem bitSteps_xor (n : Nat) (x y : Word) : bitSteps n (x ^^^ y) = bitSteps n x ^^^ bitSteps n y := by
  induction n generalizing x y with
  | zero => rfl
  | succ n ih => rw [bitSteps_succ, bitSteps_succ, bitSteps_succ, bitStep_xor, ih]

theorem bitSteps_add (m n : Nat) (x : Word) : bitSteps (m + n) x = bitSteps n (bitSteps m x) := by
  induction m generalizing x with
  | zero => simp
  | succ m ih => rw [Nat.succ_add, bitSteps_succ, bitSteps_succ, ih]

/-- A value whose low bit is 0 is only shifted. -/
theorem bitStep_of_low_zero {x : Word} (h : x.getLsbD 0 = false) : bitStep x = x >>> 1 := by
  rw [bitStep_eq_xor, h]
  simp

/-- A value whose `n` low bits are 0 is only shifted by `n` iterations. -/
theorem bitSteps_of_low_zeros (n : Nat) (x : Word) (h : ∀ k, k < n → x.getLsbD k = false) :
    bitSteps n x = x >>> n := by
  induction n generalizing x with
  | zero => simp
  | succ n ih =>
    rw [bitSteps_succ, bitStep_of_low_zero (h 0 (by omega)), ih, Nat.add_comm, BitVec.shiftRight_add]
    intro k hk
    simpa using h (1 + k) (by omega)

/-- The reference function's byte step is eight bit iterations. -/
theorem refDivide_eq (x : Word) : refDivide x = bitStep x := by
  unfold refDivide bitStep
  cases x.getLsbD 0 <;> simp

theorem refByte_eq_hw8 (crc : Word) (b : Byte) : refByte crc b = hw8 crc b := by
  simp [refByte, hw8, bitSteps, List.range, List.range.loop, refDivide_eq]

/-- The reference function in terms of the 8-bit form (00_scope.md R13, 43_hardware_engine.md R180). -/
theorem crc32cRef_eq (seed : Word) (data : List Byte) : crc32cRef seed data = ~~~(data.foldl hw8 (~~~seed)) := by
  have h : refByte = hw8 := by
    funext crc b
    exact refByte_eq_hw8 crc b
  rw [crc32cRef, h]

/-! ### Table entries -/

@[simp] theorem tableRead_write_same (t : Table) (i : Byte) (v : Word) : tableRead (tableWrite t i v) i = v := by
  simp [tableRead, tableWrite]

theorem tableRead_write_other (t : Table) {i j : Byte} (v : Word) (h : j ≠ i) :
    tableRead (tableWrite t i v) j = tableRead t j := by
  have hn : i.toNat ≠ j.toNat := fun e => h (BitVec.eq_of_toNat_eq e.symm)
  simp [tableRead, tableWrite, hn]

theorem tableRead_write (t : Table) (i j : Byte) (v : Word) :
    tableRead (tableWrite t i v) j = if j = i then v else tableRead t j := by
  by_cases h : j = i
  · subst h; simp
  · simp [h, tableRead_write_other t v h]

/-- Two tables with equal entries are equal. -/
theorem table_ext {t u : Table} (h : ∀ i, tableRead t i = tableRead u i) : t = u := by
  apply Vector.ext
  intro k hk
  have := h (BitVec.ofNat 8 k)
  simpa [tableRead, Nat.mod_eq_of_lt hk] using this

@[simp] theorem tableRead_good (i : Byte) : tableRead goodTable i = tblEntry i := by
  simp [tableRead, goodTable]

/-- The index of a table read, as the spec writes it (42_software_engine.md R161). -/
theorem swIndex_eq (crc : Word) (b : Byte) : swIndex crc b = ((crc ^^^ b.setWidth 32) &&& 0xFF#32).setWidth 8 := by
  apply BitVec.eq_of_getLsbD_eq
  intro i hi
  have hm : (255#8).getLsbD i = true := by
    have : ∀ k : Fin 8, (255#8).getLsbD k.val = true := by decide
    exact this ⟨i, hi⟩
  simp [swIndex, hm]

/-! ### The word step -/

theorem wordByte_assemble (b0 b1 b2 b3 b4 b5 b6 b7 : Byte) (j : Fin 8) :
    wordByte (assembleWord b0 b1 b2 b3 b4 b5 b6 b7) j =
      ([b0, b1, b2, b3, b4, b5, b6, b7] : List Byte)[j.val]'(by simp) := by
  apply BitVec.eq_of_getLsbD_eq
  intro i hi
  have hw : ∀ k, (assembleWord b0 b1 b2 b3 b4 b5 b6 b7).getLsbD k =
      (b7 ++ b6 ++ b5 ++ b4 ++ b3 ++ b2 ++ b1 ++ b0 : BitVec (8 + 8 + 8 + 8 + 8 + 8 + 8 + 8)).getLsbD k := fun _ => rfl
  simp only [wordByte, BitVec.getLsbD_extractLsb', hi, decide_true, Bool.true_and, hw, BitVec.getLsbD_append]
  fin_cases j <;> dsimp only [List.getElem_cons_zero, List.getElem_cons_succ] <;>
    (repeat first | rw [if_pos (by omega)] | rw [if_neg (by omega)]) <;> congr 1 <;> omega

/-- One word step is eight byte steps in ascending order (43_hardware_engine.md R181, 20_memory.md R65). -/
theorem hw64_assemble (crc : Word) (b0 b1 b2 b3 b4 b5 b6 b7 : Byte) :
    hw64 crc (assembleWord b0 b1 b2 b3 b4 b5 b6 b7) = [b0, b1, b2, b3, b4, b5, b6, b7].foldl hw8 crc := by
  have h := wordByte_assemble b0 b1 b2 b3 b4 b5 b6 b7
  have h0 := h 0; have h1 := h 1; have h2 := h 2; have h3 := h 3
  have h4 := h 4; have h5 := h 5; have h6 := h 6; have h7 := h 7
  simp only [Fin.val_zero, Fin.val_one, Fin.val_two, Fin.isValue] at h0 h1 h2
  simp at h0 h1 h2 h3 h4 h5 h6 h7
  simp [hw64, List.range, List.range.loop, h0, h1, h2, h3, h4, h5, h6, h7]

end Sys2Proof.Machine
end

