-- ==== Sys2Proof/Laws/Exec.lean ====
section
/-! SUPPORT. One lemma per shared operation and per instruction: everything it can do when it answers a next state. -/

namespace Sys2Proof.Machine

open Host (Outcome)

variable {s t : State}

/-- Two next states are the same outcome exactly when they are the same state. -/
theorem next_eq_next {σ φ ρ : Type} {a b : σ} : (Outcome.next a : Outcome σ φ ρ) = .next b ↔ b = a :=
  ⟨fun h => by cases h; rfl, fun h => by rw [h]⟩

/-! ### Admission and the start of a call -/

theorem admitAny_next {k : Outcome State Fault Refusal} :
    admitAny s k = .next t ↔ s.status.halt = false ∧ s.status.busy = false ∧ k = .next t := by
  unfold admitAny
  cases s.status.halt <;> cases s.status.busy <;> simp

theorem admitChecksum_next {k : Outcome State Fault Refusal} :
    admitChecksum s k = .next t ↔
      s.status.halt = false ∧ s.status.busy = false ∧ s.status.initDone = true ∧ k = .next t := by
  rw [admitChecksum, admitAny_next]
  cases s.status.initDone <;> simp

theorem startChecksum_next {eng : Engine} {seed len : Word} {data : List Byte} :
    startChecksum eng seed len data s = .next t ↔
      (Config.maxInputSize < len.toNat ∧ t = s.clearValid.raiseFatal .inputTooLarge) ∨
      (len.toNat ≤ Config.maxInputSize ∧ data.length = len.toNat ∧ t = s.clearValid.latchCall eng seed len.toNat data) := by
  unfold startChecksum
  by_cases h : len.toNat > Config.maxInputSize
  · simp [h, eq_comm]
  · by_cases hl : data.length = len.toNat
    · simp [h, hl, eq_comm, Nat.le_of_not_lt h]
    · simp [h, hl]

/-! ### Host commands -/

theorem execInit_next :
    execInit s = .next t ↔
      s.status.halt = false ∧ s.status.busy = false ∧ s.status.initDone = false ∧ t = s.beginInit := by
  rw [execInit, admitAny_next]
  cases s.status.initDone <;> simp
  exact fun _ _ => eq_comm

theorem execCrc32c_next {seed len : Word} {data : List Byte} :
    execCrc32c seed len data s = .next t ↔
      s.status.halt = false ∧ s.status.busy = false ∧ s.status.initDone = true ∧
        startChecksum (selectEngine s.cfg) seed len data s = .next t := by
  rw [execCrc32c, admitChecksum_next]

theorem execCrc32cSw_next {seed len : Word} {data : List Byte} :
    execCrc32cSw seed len data s = .next t ↔
      s.status.halt = false ∧ s.status.busy = false ∧ s.status.initDone = true ∧
        startChecksum .sw seed len data s = .next t := by
  rw [execCrc32cSw, admitChecksum_next]

theorem execCrc32cHw_next {seed len : Word} {data : List Byte} :
    execCrc32cHw seed len data s = .next t ↔
      s.status.halt = false ∧ s.status.busy = false ∧ s.status.initDone = true ∧
        s.cfg.target.arch ≠ .none ∧ s.cfg.target.hwCap = true ∧ startChecksum .hw seed len data s = .next t := by
  rw [execCrc32cHw, admitChecksum_next]
  by_cases ha : s.cfg.target.arch = .none
  · simp [ha]
  · cases s.cfg.target.hwCap <;> simp [ha]

/-- `Select()` gives the Hardware Engine only where it exists and the CPU has it (41_dispatcher.md R143). -/
theorem selectEngine_hw {c : Cfg} (h : selectEngine c = .hw) : c.target.arch ≠ .none ∧ c.target.hwCap = true := by
  unfold selectEngine at h
  split at h
  · rename_i hc
    simp only [bne_iff_ne, ne_eq, Bool.and_eq_true] at hc
    exact ⟨hc.1.1, hc.1.2⟩
  · cases h

theorem execVote_next {r0 r1 r2 : Word} :
    execVote r0 r1 r2 s = .next t ↔
      s.status.halt = false ∧ s.status.busy = false ∧ t = (s.clearValid.loadResults r0 r1 r2).applyVote := by
  rw [execVote, admitAny_next, next_eq_next]

/-- The Voter either commits a value that two results share or raises `NO_MAJORITY` (44_tmr_voter.md R212). -/
theorem applyVote_cases (s : State) :
    (∃ v, voteOf s.res.c0 s.res.c1 s.res.c2 = some v ∧ s.applyVote = s.commitChecksum v) ∨
    (voteOf s.res.c0 s.res.c1 s.res.c2 = none ∧ s.applyVote = s.raiseFatal .noMajority) := by
  unfold State.applyVote
  cases h : voteOf s.res.c0 s.res.c1 s.res.c2 with
  | none => exact .inr ⟨rfl, rfl⟩
  | some v => exact .inl ⟨v, rfl, rfl⟩

theorem execDetect_next :
    execDetect s = .next t ↔ s.status.halt = false ∧ s.status.busy = false ∧
      t = s.respond (.value (detectAnswer (selectEngine s.cfg))) := by
  rw [execDetect, admitAny_next, next_eq_next]

theorem execRdwcHw_next :
    execRdwcHw s = .next t ↔ s.status.halt = false ∧ s.status.busy = false ∧ t = s.respond (.value s.wcpbHw) := by
  rw [execRdwcHw, admitAny_next, next_eq_next]

theorem execRdwcSw_next :
    execRdwcSw s = .next t ↔ s.status.halt = false ∧ s.status.busy = false ∧ t = s.respond (.value s.wcpbSw) := by
  rw [execRdwcSw, admitAny_next, next_eq_next]

/-! ### Enabling conditions -/

theorem chinitEnabled_iff {c : Channel} : chinitEnabled s c = true ↔ s.top = .run ∧ s.chp.get c = .chIdle := by
  simp [chinitEnabled]

theorem swstepEnabled_iff {c : Channel} :
    swstepEnabled s c = true ↔ s.top = .run ∧ s.chp.get c = .chRun ∧ s.eng = .sw ∧ s.pos.get c < s.len := by
  simp [swstepEnabled, and_assoc]

theorem hwstep64Enabled_iff {c : Channel} :
    hwstep64Enabled s c = true ↔ s.top = .run ∧ s.chp.get c = .chRun ∧ s.eng = .hw ∧ s.pos.get c + 8 ≤ s.len := by
  simp only [hwstep64Enabled, Bool.and_eq_true, decide_eq_true_eq, and_assoc]
  exact Iff.rfl

theorem hwstep8Enabled_iff {c : Channel} :
    hwstep8Enabled s c = true ↔
      s.top = .run ∧ s.chp.get c = .chRun ∧ s.eng = .hw ∧ s.pos.get c < s.len ∧ s.len < s.pos.get c + 8 := by
  simp only [hwstep8Enabled, Bool.and_eq_true, decide_eq_true_eq, and_assoc]
  exact Iff.rfl

theorem chfinEnabled_iff {c : Channel} :
    chfinEnabled s c = true ↔ s.top = .run ∧ s.chp.get c = .chRun ∧ s.pos.get c = s.len := by
  simp [chfinEnabled, and_assoc]

/-! ### Micro-operations -/

theorem execChinit_next {c : Channel} :
    execChinit c s = .next t ↔
      chinitEnabled s c = true ∧ t = ((s.setAcc c (~~~s.seed)).setPos c 0).setChp c .chRun := by
  unfold execChinit
  cases chinitEnabled s c <;> simp
  exact eq_comm

theorem execSwstep_next {c : Channel} :
    execSwstep c s = .next t ↔
      swstepEnabled s c = true ∧ s.status.initDone = true ∧ ∃ b, s.buf[s.pos.get c]? = some b ∧
        t = (s.setAcc c (swStep (s.tbl.get c) (s.acc.get c) b)).setPos c (s.pos.get c + 1) := by
  unfold execSwstep bufRead tableOf
  cases swstepEnabled s c <;> cases s.buf[s.pos.get c]? <;> cases s.status.initDone <;> simp
  exact eq_comm

theorem execHwstep8_next {c : Channel} :
    execHwstep8 c s = .next t ↔
      s.cfg.target.arch ≠ .none ∧ hwstep8Enabled s c = true ∧ ∃ b, s.buf[s.pos.get c]? = some b ∧
        t = (s.setAcc c (hw8 (s.acc.get c) b)).setPos c (s.pos.get c + 1) := by
  unfold execHwstep8 bufRead
  by_cases ha : s.cfg.target.arch = .none
  · simp [ha]
  · cases hwstep8Enabled s c <;> cases s.buf[s.pos.get c]? <;> simp [ha]
    exact eq_comm

theorem execHwstep64_next {c : Channel} :
    execHwstep64 c s = .next t ↔
      s.cfg.target.arch ≠ .none ∧ hwstep64Enabled s c = true ∧ ∃ w, word64 s (s.pos.get c) = some w ∧
        t = (s.setAcc c (hw64 (s.acc.get c) w)).setPos c (s.pos.get c + 8) := by
  unfold execHwstep64
  by_cases ha : s.cfg.target.arch = .none
  · simp [ha]
  · cases hwstep64Enabled s c <;> cases word64 s (s.pos.get c) <;> simp [Config.wordBytes, ha]
    exact eq_comm

theorem execChfin_next {c : Channel} :
    execChfin c s = .next t ↔
      chfinEnabled s c = true ∧ t = (s.setRes c (~~~(s.acc.get c) ^^^ s.eRes.get c)).setChp c .chDone := by
  unfold execChfin
  cases chfinEnabled s c <;> simp
  exact eq_comm

/-- `Word64(k)` is the next eight bytes of the buffer, when there are eight (20_memory.md R65). -/
theorem word64_eq_some {k : Nat} {w : BitVec 64} (h : word64 s k = some w) :
    ∃ b0 b1 b2 b3 b4 b5 b6 b7, w = assembleWord b0 b1 b2 b3 b4 b5 b6 b7 ∧
      (s.buf.drop k).take 8 = [b0, b1, b2, b3, b4, b5, b6, b7] := by
  unfold word64 bufRead at h
  split at h
  · rename_i b0 b1 b2 b3 b4 b5 b6 b7 h0 h1 h2 h3 h4 h5 h6 h7
    cases h
    refine ⟨b0, b1, b2, b3, b4, b5, b6, b7, rfl, ?_⟩
    have hd : ∀ n b, s.buf[k + n]? = some b → (s.buf.drop k)[n]? = some b := by
      intro n b hb
      rw [List.getElem?_drop]
      exact hb
    generalize s.buf.drop k = l at hd ⊢
    have e0 := hd 0 _ h0; have e1 := hd 1 _ h1; have e2 := hd 2 _ h2; have e3 := hd 3 _ h3
    have e4 := hd 4 _ h4; have e5 := hd 5 _ h5; have e6 := hd 6 _ h6; have e7 := hd 7 _ h7
    match l with
    | [] | [_] | [_, _] | [_, _, _] | [_, _, _, _] | [_, _, _, _, _] | [_, _, _, _, _, _]
    | [_, _, _, _, _, _, _] => simp at e7
    | _ :: _ :: _ :: _ :: _ :: _ :: _ :: _ :: _ =>
      simp at e0 e1 e2 e3 e4 e5 e6 e7
      simp [e0, e1, e2, e3, e4, e5, e6, e7]
  · cases h

/-- `Word64(k)` has a value when `k + 7 < LEN` (20_memory.md R65). -/
theorem word64_isSome {k : Nat} (h : k + 8 ≤ s.buf.length) : ∃ w, word64 s k = some w := by
  unfold word64 bufRead
  rw [List.getElem?_eq_getElem (show k < s.buf.length by omega),
    List.getElem?_eq_getElem (show k + 1 < s.buf.length by omega),
    List.getElem?_eq_getElem (show k + 2 < s.buf.length by omega),
    List.getElem?_eq_getElem (show k + 3 < s.buf.length by omega),
    List.getElem?_eq_getElem (show k + 4 < s.buf.length by omega),
    List.getElem?_eq_getElem (show k + 5 < s.buf.length by omega),
    List.getElem?_eq_getElem (show k + 6 < s.buf.length by omega),
    List.getElem?_eq_getElem (show k + 7 < s.buf.length by omega)]
  exact ⟨_, rfl⟩

end Sys2Proof.Machine
end

