-- ==== Sys2Proof/Laws/Step.lean ====
section
/-! SUPPORT. Everything one step can do, said once: the rows of the transition table (41_dispatcher.md R149) as a relation,
and the theorem that a step to a next state is one of them. Invariants are proved row by row. -/

namespace Sys2Proof.Machine

open Host (Outcome)

/-- One row of R149, or one thing the environment does, from `s` to `t`; what is due or queued is already taken from `s`. -/
inductive Row : State → State → Prop
  /-- The environment changes its mask ports (R30). -/
  | masks (s : State) (eRes : Tri Word) (eTbl : Tri Table) : Row s (s.setMasks eRes eTbl)
  /-- `INIT` accepted. -/
  | initStart (s : State) (halt : s.status.halt = false) (busy : s.status.busy = false)
      (done : s.status.initDone = false) : Row s s.beginInit
  /-- A checksum command over the bound. -/
  | callTooLarge (s : State) (halt : s.status.halt = false) (busy : s.status.busy = false)
      (done : s.status.initDone = true) : Row s (s.clearValid.raiseFatal .inputTooLarge)
  /-- A checksum command accepted. -/
  | callStart (s : State) (eng : Engine) (seed len : Word) (data : List Byte) (halt : s.status.halt = false)
      (busy : s.status.busy = false) (done : s.status.initDone = true) (bound : len.toNat ≤ Config.maxInputSize)
      (fits : data.length = len.toNat)
      (exists_ : eng = .hw → s.cfg.target.arch ≠ .none ∧ s.cfg.target.hwCap = true) :
      Row s (s.clearValid.latchCall eng seed len.toNat data)
  /-- `VOTE`. -/
  | vote (s : State) (r0 r1 r2 : Word) (halt : s.status.halt = false) (busy : s.status.busy = false) :
      Row s (s.clearValid.loadResults r0 r1 r2).applyVote
  /-- `DETECT`, `RDWC.HW`, `RDWC.SW`. -/
  | probe (s : State) (v : Word) (halt : s.status.halt = false) (busy : s.status.busy = false) : Row s (s.respond (.value v))
  /-- `TBLBIT`, and `TBLENT` outside the building loop. -/
  | pure (s : State) (v : Word) (running : s.top ≠ .halted) : Row s (s.setGx v)
  /-- `TBLENT` and the table write. -/
  | build (s : State) (gen : s.top = .gen) (loop : s.gph = .build) : Row s (s.setGx (tblEntry s.gi)).storeEntry
  /-- One comparison. -/
  | check (s : State) (gen : s.top = .gen) (loop : s.gph = .check) : Row s s.checkEntry
  /-- `INIT` completes. -/
  | finish (s : State) (gen : s.top = .gen) (loop : s.gph = .finish) : Row s s.finishInit
  /-- `CHINIT`. -/
  | chinit (s : State) (c : Channel) (run : s.top = .run) (idle : s.chp.get c = .chIdle) :
      Row s (((s.setAcc c (~~~s.seed)).setPos c 0).setChp c .chRun)
  /-- `SWSTEP`. -/
  | swstep (s : State) (c : Channel) (b : Byte) (run : s.top = .run) (going : s.chp.get c = .chRun) (eng : s.eng = .sw)
      (left : s.pos.get c < s.len) (byte : s.buf[s.pos.get c]? = some b) :
      Row s ((s.setAcc c (swStep (s.tbl.get c) (s.acc.get c) b)).setPos c (s.pos.get c + 1))
  /-- `HWSTEP8`. -/
  | hwstep8 (s : State) (c : Channel) (b : Byte) (run : s.top = .run) (going : s.chp.get c = .chRun) (eng : s.eng = .hw)
      (left : s.pos.get c < s.len) (few : s.len < s.pos.get c + 8) (byte : s.buf[s.pos.get c]? = some b) :
      Row s ((s.setAcc c (hw8 (s.acc.get c) b)).setPos c (s.pos.get c + 1))
  /-- `HWSTEP64`. -/
  | hwstep64 (s : State) (c : Channel) (w : BitVec 64) (run : s.top = .run) (going : s.chp.get c = .chRun)
      (eng : s.eng = .hw) (left : s.pos.get c + 8 ≤ s.len) (word : word64 s (s.pos.get c) = some w) :
      Row s ((s.setAcc c (hw64 (s.acc.get c) w)).setPos c (s.pos.get c + 8))
  /-- `CHFIN`. -/
  | chfin (s : State) (c : Channel) (run : s.top = .run) (going : s.chp.get c = .chRun) (atEnd : s.pos.get c = s.len) :
      Row s ((s.setRes c (~~~(s.acc.get c) ^^^ s.eRes.get c)).setChp c .chDone)
  /-- All channels done. -/
  | toVoting (s : State) (run : s.top = .run) (done : s.chp = Tri.all .chDone) : Row s (s.setTop .voting)
  /-- The Voter. -/
  | voter (s : State) (voting : s.top = .voting) : Row s s.applyVote
  /-- Nothing presented. -/
  | wait (s : State) (idle : s.top = .idle) : Row s s

variable {s t : State}

/-- `startChecksum` as rows. -/
theorem startChecksum_row {eng : Engine} {seed len : Word} {data : List Byte} (halt : s.status.halt = false)
    (busy : s.status.busy = false) (done : s.status.initDone = true)
    (exists_ : eng = .hw → s.cfg.target.arch ≠ .none ∧ s.cfg.target.hwCap = true)
    (h : startChecksum eng seed len data s = .next t) : Row s t := by
  rcases startChecksum_next.mp h with ⟨-, rfl⟩ | ⟨hb, hl, rfl⟩
  · exact .callTooLarge s halt busy done
  · exact .callStart s eng seed len data halt busy done hb hl exists_

/-- A host command that answers a next state is a row of `TOP = IDLE`. -/
theorem exec_host_row {i : Instr} (hi : isHostCommand i = true) (h : exec i s = .next t) : Row s t := by
  cases i with
  | init =>
    obtain ⟨hh, hb, hd, rfl⟩ := execInit_next.mp h
    exact .initStart s hh hb hd
  | crc32c seed len data =>
    obtain ⟨hh, hb, hd, hk⟩ := execCrc32c_next.mp h
    exact startChecksum_row hh hb hd selectEngine_hw hk
  | crc32cSw seed len data =>
    obtain ⟨hh, hb, hd, hk⟩ := execCrc32cSw_next.mp h
    exact startChecksum_row hh hb hd (fun e => by cases e) hk
  | crc32cHw seed len data =>
    obtain ⟨hh, hb, hd, ha, hc, hk⟩ := execCrc32cHw_next.mp h
    exact startChecksum_row hh hb hd (fun _ => ⟨ha, hc⟩) hk
  | vote r0 r1 r2 =>
    obtain ⟨hh, hb, rfl⟩ := execVote_next.mp h
    exact .vote s r0 r1 r2 hh hb
  | detect =>
    obtain ⟨hh, hb, rfl⟩ := execDetect_next.mp h
    exact .probe s _ hh hb
  | rdwcHw =>
    obtain ⟨hh, hb, rfl⟩ := execRdwcHw_next.mp h
    exact .probe s _ hh hb
  | rdwcSw =>
    obtain ⟨hh, hb, rfl⟩ := execRdwcSw_next.mp h
    exact .probe s _ hh hb
  | tblbit => cases hi
  | tblent => cases hi
  | chinit c => cases hi
  | swstep c => cases hi
  | hwstep8 c => cases hi
  | hwstep64 c => cases hi
  | chfin c => cases hi

/-- A host command admitted in `s`: neither halted nor busy. -/
theorem exec_host_admitted {i : Instr} (hi : isHostCommand i = true) (h : exec i s = .next t) :
    s.status.halt = false ∧ s.status.busy = false := by
  cases i with
  | init => exact ⟨(execInit_next.mp h).1, (execInit_next.mp h).2.1⟩
  | crc32c seed len data => exact ⟨(execCrc32c_next.mp h).1, (execCrc32c_next.mp h).2.1⟩
  | crc32cSw seed len data => exact ⟨(execCrc32cSw_next.mp h).1, (execCrc32cSw_next.mp h).2.1⟩
  | crc32cHw seed len data => exact ⟨(execCrc32cHw_next.mp h).1, (execCrc32cHw_next.mp h).2.1⟩
  | vote r0 r1 r2 => exact ⟨(execVote_next.mp h).1, (execVote_next.mp h).2.1⟩
  | detect => exact ⟨(execDetect_next.mp h).1, (execDetect_next.mp h).2.1⟩
  | rdwcHw => exact ⟨(execRdwcHw_next.mp h).1, (execRdwcHw_next.mp h).2.1⟩
  | rdwcSw => exact ⟨(execRdwcSw_next.mp h).1, (execRdwcSw_next.mp h).2.1⟩
  | tblbit => cases hi
  | tblent => cases hi
  | chinit c => cases hi
  | swstep c => cases hi
  | hwstep8 c => cases hi
  | hwstep64 c => cases hi
  | chfin c => cases hi

/-- A presented command that answers a next state is a row, from the state with the masks drawn for it, and was admitted. -/
theorem present_row {a : Arrival} (h : present a s = .next t) :
    Row (s.applyDraw a.draw) t ∧ s.status.halt = false ∧ s.status.busy = false := by
  unfold present at h
  split at h
  · rename_i i hi
    have ha := exec_host_admitted (decodeCommand_isHost hi) h
    simp only [State.applyDraw_eq, State.setMasks_status] at ha
    exact ⟨exec_host_row (decodeCommand_isHost hi) h, ha⟩
  · cases h

theorem building_iff : s.building = true ↔ s.top = .gen ∧ s.gph = .build := by simp [State.building]

/-- A micro-operation other than `TBLENT` is given no operand. -/
theorem beforeMicro_of_ne {i : Instr} (hi : i ≠ .tblent) (s : State) : beforeMicro i s = s := by
  simp [beforeMicro, hi]

/-- A micro-operation other than `TBLENT` is followed by nothing. -/
theorem afterMicro_of_ne {i : Instr} (hi : i ≠ .tblent) (s : State) : afterMicro i s = s := by
  simp [afterMicro, hi]

/-- What `runMicro` answers when it answers a next state. -/
theorem runMicro_next {i : Instr} :
    runMicro i s = .next t ↔ s.top ≠ .halted ∧ ∃ u, exec i (beforeMicro i s) = .next u ∧ t = afterMicro i u := by
  unfold runMicro
  by_cases ht : s.top = .halted
  · simp [ht]
  · cases h : exec i (beforeMicro i s) <;> simp [ht, eq_comm]

/-- A micro-operation other than `TBLENT`, run by the sequencer, answers what `exec` answers. -/
theorem runMicro_of_ne {i : Instr} (hi : i ≠ .tblent) (ht : s.top ≠ .halted) : runMicro i s = exec i s := by
  unfold runMicro
  rw [if_neg ht, beforeMicro_of_ne hi]
  cases exec i s <;> simp [afterMicro_of_ne hi]

/-- A micro-operation run by the sequencer is a row. -/
theorem runMicro_row {i : Instr} (hi : isHostCommand i = false) (h : runMicro i s = .next t) : Row s t := by
  by_cases he : i = .tblent
  · subst he
    obtain ⟨ht, u, hu, rfl⟩ := runMicro_next.mp h
    cases hu
    by_cases hc : s.building = true
    · have hc' := building_iff.mp hc
      have hb := Row.build s hc'.1 hc'.2
      have ha : State.building (s.setGx (tblEntry s.gi)) = true := hc
      simpa [beforeMicro, afterMicro, hc, ha] using hb
    · have ha : ¬ State.building (s.setGx (tblEntry (s.gx.setWidth 8))) = true := hc
      simpa [beforeMicro, afterMicro, hc, ha] using Row.pure s _ ht
  have ht := (runMicro_next.mp h).1
  have hu := h
  rw [runMicro_of_ne he ht] at hu
  cases i with
  | init => cases hi
  | crc32c seed len data => cases hi
  | crc32cSw seed len data => cases hi
  | crc32cHw seed len data => cases hi
  | vote r0 r1 r2 => cases hi
  | detect => cases hi
  | rdwcHw => cases hi
  | rdwcSw => cases hi
  | tblbit =>
    cases hu
    exact .pure s _ ht
  | tblent => exact absurd rfl he
  | chinit c =>
    obtain ⟨he, rfl⟩ := execChinit_next.mp hu
    obtain ⟨h1, h2⟩ := chinitEnabled_iff.mp he
    exact .chinit s c h1 h2
  | swstep c =>
    obtain ⟨he, -, b, hb, rfl⟩ := execSwstep_next.mp hu
    obtain ⟨h1, h2, h3, h4⟩ := swstepEnabled_iff.mp he
    exact .swstep s c b h1 h2 h3 h4 hb
  | hwstep8 c =>
    obtain ⟨-, he, b, hb, rfl⟩ := execHwstep8_next.mp hu
    obtain ⟨h1, h2, h3, h4, h5⟩ := hwstep8Enabled_iff.mp he
    exact .hwstep8 s c b h1 h2 h3 h4 h5 hb
  | hwstep64 c =>
    obtain ⟨-, he, w, hw, rfl⟩ := execHwstep64_next.mp hu
    obtain ⟨h1, h2, h3, h4⟩ := hwstep64Enabled_iff.mp he
    exact .hwstep64 s c w h1 h2 h3 h4 hw
  | chfin c =>
    obtain ⟨he, rfl⟩ := execChfin_next.mp hu
    obtain ⟨h1, h2, h3⟩ := chfinEnabled_iff.mp he
    exact .chfin s c h1 h2 h3

/-- The micro-operation R149 enables on a channel is that channel's. -/
theorem enabledMicro_channel {c : Channel} {i : Instr} (h : enabledMicro s c = some i) :
    channelOf i = some c ∧ isHostCommand i = false := by
  unfold enabledMicro at h
  split at h
  · cases h; exact ⟨rfl, rfl⟩
  split at h
  · cases h; exact ⟨rfl, rfl⟩
  split at h
  · cases h; exact ⟨rfl, rfl⟩
  split at h
  · cases h; exact ⟨rfl, rfl⟩
  split at h
  · cases h; exact ⟨rfl, rfl⟩
  · cases h

/-- The sequencer's choice is a micro-operation of some channel. -/
theorem nextMicro_some {i : Instr} (h : nextMicro s = some i) : ∃ c, enabledMicro s c = some i := by
  obtain ⟨c, -, hc⟩ := List.exists_of_findSome?_eq_some h
  exact ⟨c, hc⟩

/-- The sequencer has no choice exactly when no channel can go on. -/
theorem nextMicro_none : nextMicro s = none ↔ ∀ c, enabledMicro s c = none := by
  unfold nextMicro
  rw [List.findSome?_eq_none_iff]
  constructor
  · intro h c
    exact h c (by cases c <;> simp [Channel.all])
  · intro h c _
    exact h c

theorem allDone_iff : allDone s = true ↔ s.chp = Tri.all .chDone := by
  cases hs : s.chp
  simp [allDone, hs, Tri.all, and_assoc]

/-- A step of the block left to itself is a row, from the state without the command the host may have presented and with
the masks drawn for it. -/
theorem advance_row (h : advance s = .next t) :
    (Row s t) ∨ (∃ a q, s.top = .idle ∧ s.hostQueue = a :: q ∧ s.status.halt = false ∧ s.status.busy = false ∧
      Row ((s.setQueue q).applyDraw a.draw) t) := by
  unfold advance at h
  split at h
  · rename_i hi
    split at h
    · cases h
      exact .inl (.wait s hi)
    · rename_i a q hq
      obtain ⟨hr, hh, hb⟩ := present_row h
      exact .inr ⟨a, q, hi, hq, hh, hb, hr⟩
  · rename_i hg
    unfold generate at h
    split at h
    · rename_i hp
      exact .inl (runMicro_row rfl h)
    · rename_i hp
      cases h
      exact .inl (.check s hg hp)
    · rename_i hp
      cases h
      exact .inl (.finish s hg hp)
  · rename_i hr
    unfold runChannels at h
    split at h
    · rename_i i hi
      obtain ⟨c, hc⟩ := nextMicro_some hi
      exact .inl (runMicro_row (enabledMicro_channel hc).2 h)
    · split at h
      · rename_i hd
        cases h
        exact .inl (.toVoting s hr (allDone_iff.mp hd))
      · cases h
  · rename_i hv
    cases h
    exact .inl (.voter s hv)
  · cases h

/-- The command `a` is the one this step presents: it is due, or it is the host's next and the block, idle, takes its own
step. The events `es` and the queue `q` remain. -/
def Taken (s : State) (a : Arrival) (es : List Event) (q : List Arrival) : Prop :=
  (s.events = .command a :: es ∧ q = s.hostQueue) ∨ (s.Proceeds es ∧ s.top = .idle ∧ s.hostQueue = a :: q)

/-- A step is taken only of a well-formed command sequence (43_hardware_engine.md R184). -/
theorem step_next : step s = .next t ↔ s.sequenceExists = true ∧ takeNext s = .next t := by
  unfold step
  cases s.sequenceExists <;> simp

theorem step_of_exists (h : s.sequenceExists = true) : step s = takeNext s := by
  unfold step
  rw [if_pos h]

/-- A step of an undisturbed block is its own next step. -/
theorem step_undisturbed (h : s.Undisturbed) : step s = advance s := by
  rw [step_of_exists h.2]
  unfold takeNext
  rw [h.1]

/-- ONE STEP. A step to a next state is of a well-formed sequence, and asserts reset, or is a row from the state without the
event that was due, or is a row from the state itself, or is a row from the state without the command it presents, which was
admitted, and with the masks drawn for that command. -/
theorem step_cases (h : step s = .next t) :
    s.sequenceExists = true ∧
    ((∃ rest, s.events = .reset :: rest ∧ t = (s.setEvents rest).applyReset) ∨
    (∃ e rest, s.events = e :: rest ∧ e ≠ .reset ∧ (∀ a, e ≠ .command a) ∧ Row (s.setEvents rest) t) ∨
    (s.events = [] ∧ Row s t) ∨
    (∃ a es q, Taken s a es q ∧ s.status.halt = false ∧ s.status.busy = false ∧
      Row (((s.setEvents es).setQueue q).applyDraw a.draw) t)) := by
  obtain ⟨hs, h⟩ := step_next.mp h
  refine ⟨hs, ?_⟩
  unfold takeNext at h
  split at h
  · rename_i e rest he
    cases e with
    | proceed =>
      have h' : advance (s.setEvents rest) = .next t := h
      rcases advance_row h' with hr | ⟨a, q, hi, hq, hh, hb, hr⟩
      · exact .inr (.inl ⟨_, rest, he, by simp, by simp, hr⟩)
      · exact .inr (.inr (.inr ⟨a, rest, q, .inr ⟨.inl he, hi, hq⟩, hh, hb, hr⟩))
    | reset =>
      cases h
      exact .inl ⟨rest, he, rfl⟩
    | masks eRes eTbl =>
      cases h
      exact .inr (.inl ⟨_, rest, he, by simp, by simp, .masks _ eRes eTbl⟩)
    | command a =>
      obtain ⟨hr, hh, hb⟩ := present_row h
      exact .inr (.inr (.inr ⟨a, rest, s.hostQueue, .inl ⟨he, rfl⟩, hh, hb, hr⟩))
    | uop uw =>
      refine .inr (.inl ⟨_, rest, he, by simp, by simp, ?_⟩)
      have h' : issue uw (s.setEvents rest) = .next t := h
      unfold issue at h'
      split at h'
      · rename_i i hi
        exact runMicro_row (decodeMicro_isMicro hi) h'
      · cases h'
  · rename_i he
    have hset : s.setEvents [] = s := by cases s; cases he; rfl
    rcases advance_row h with hr | ⟨a, q, hi, hq, hh, hb, hr⟩
    · exact .inr (.inr (.inl ⟨he, hr⟩))
    · refine .inr (.inr (.inr ⟨a, [], q, .inr ⟨.inr ⟨he, rfl⟩, hi, hq⟩, hh, hb, ?_⟩))
      rw [hset]
      exact hr

/-- A step that asserts no reset is a row from the state with other ports: what is due, what is queued, the masks. -/
theorem step_row (h : step s = .next t) :
    (∃ rest, s.events = .reset :: rest ∧ t = (s.setEvents rest).applyReset) ∨
    (∀ rest, s.events ≠ .reset :: rest) ∧ ∃ es q eRes eTbl, Row (((s.setEvents es).setQueue q).setMasks eRes eTbl) t := by
  obtain ⟨-, h⟩ := step_cases h
  rcases h with hr | ⟨e, rest, he, hne, -, hr⟩ | ⟨he, hr⟩ | ⟨a, es, q, ht, -, -, hr⟩
  · exact .inl hr
  · exact .inr ⟨by rw [he]; rintro _ ⟨⟩; exact hne rfl, rest, s.hostQueue, s.eRes, s.eTbl, hr⟩
  · exact .inr ⟨by simp [he], s.events, s.hostQueue, s.eRes, s.eTbl, hr⟩
  · refine .inr ⟨?_, es, q, a.draw.eRes, a.draw.eTbl, hr⟩
    rcases ht with ⟨he, -⟩ | ⟨he | ⟨he, -⟩, -⟩ <;> simp [he]

/-! ### Runs -/

@[simp] theorem run_zero (s : State) : Host.Core.run core 0 s = .next s := rfl

/-- A run of `k + 1` steps is a step, and a run of `k` if it answers a next state. -/
theorem run_succ_eq (k : Nat) (s : State) :
    Host.Core.run core (k + 1) s = match step s with
      | .next t => Host.Core.run core k t
      | .fault r => .fault r
      | .refused r => .refused r := by
  have h := Host.Core.run.eq_2 core s k
  cases hs : step s <;> (have hs' : core.step s = _ := hs) <;> simp only [hs'] at h <;> exact h

theorem run_succ (k : Nat) (s t : State) (h : step s = .next t) :
    Host.Core.run core (k + 1) s = Host.Core.run core k t := by
  rw [run_succ_eq, h]

/-- A run of `k + 1` steps that answers a next state went through the next state of its first step. -/
theorem run_succ_next {k : Nat} {s t : State} (h : Host.Core.run core (k + 1) s = .next t) :
    ∃ u, step s = .next u ∧ Host.Core.run core k u = .next t := by
  rw [run_succ_eq] at h
  cases hs : step s with
  | next u => rw [hs] at h; exact ⟨u, rfl, h⟩
  | fault f => rw [hs] at h; cases h
  | refused r => rw [hs] at h; cases h

/-- Runs compose. -/
theorem run_add (m n : Nat) (s t : State) (h : Host.Core.run core m s = .next t) :
    Host.Core.run core (m + n) s = Host.Core.run core n t := by
  induction m generalizing s with
  | zero =>
    cases h
    rw [Nat.zero_add]
  | succ m ih =>
    obtain ⟨u, hs, hu⟩ := run_succ_next h
    rw [Nat.succ_add, run_succ _ s u hs]
    exact ih u hu

/-- What every step keeps holds at the end of every run. -/
theorem run_keeps {P : State → Prop} (hstep : ∀ s t, P s → step s = .next t → P t) (n : Nat) (s t : State) (hs : P s)
    (h : Host.Core.run core n s = .next t) : P t := by
  induction n generalizing s with
  | zero => cases h; exact hs
  | succ n ih =>
    obtain ⟨u, hu, hr⟩ := run_succ_next h
    exact ih u (hstep s u hs hu) hr

end Sys2Proof.Machine
end

