-- ==== Sys2Proof/Laws/Call.lean ====
section
/-! SUPPORT. The run of a checksum command left to itself, in the default order of channels (log entry 10): one channel
from `CHINIT` to `CHFIN`, then all three and the Voter. -/

namespace Sys2Proof.Machine

variable {s t : State}

/-- A micro-operation the sequencer selects is the step, when nothing disturbs the block. -/
theorem step_of_nextMicro (alone : s.Undisturbed) (run : s.top = .run) {i : Instr} (h : nextMicro s = some i)
    (hi : i ≠ .tblent) (ht : exec i s = .next t) : step s = .next t := by
  rw [step_undisturbed alone]
  unfold advance
  rw [run]
  simp only [runChannels, h]
  rw [runMicro_of_ne hi (by simp [run]), ht]

/-- A channel that is done has no micro-operation. -/
theorem enabledMicro_of_done {c : Channel} (h : s.chp.get c = .chDone) : enabledMicro s c = none := by
  simp [enabledMicro, chinitEnabled, swstepEnabled, hwstep64Enabled, hwstep8Enabled, chfinEnabled, h]

/-- The channels the default order runs before `c`. -/
def Precedes : Channel → Channel → Prop
  | _, .c0 => False
  | d, .c1 => d = .c0
  | d, .c2 => d ≠ .c2

theorem not_precedes_self (c : Channel) : ¬ Precedes c c := by cases c <;> simp [Precedes]

/-- Once the earlier channels are done, the sequencer's choice is channel `c`'s. -/
theorem nextMicro_of_enabled {c : Channel} {i : Instr} (earlier : ∀ d, Precedes d c → s.chp.get d = .chDone)
    (h : enabledMicro s c = some i) : nextMicro s = some i := by
  unfold nextMicro Channel.all
  cases c
  · simp [h]
  · rw [List.findSome?_cons, enabledMicro_of_done (earlier .c0 rfl)]
    simp [h]
  · rw [List.findSome?_cons, enabledMicro_of_done (earlier .c0 (by simp [Precedes])), List.findSome?_cons,
      enabledMicro_of_done (earlier .c1 (by simp [Precedes]))]
    simp [h]

/-- Channel `c` is the one the sequencer is working on. -/
structure Working (s : State) (c : Channel) : Prop where
  alone : s.Undisturbed
  run : s.top = .run
  earlier : ∀ d, Precedes d c → s.chp.get d = .chDone
  going : s.chp.get c = .chRun
  init : s.status.initDone = true
  whole : s.buf.length = s.len
  engine : s.eng = .hw → s.cfg.target.arch ≠ .none

theorem Working.update {c : Channel} (h : Working s c) (a : Word) (p : Nat) : Working ((s.setAcc c a).setPos c p) c :=
  ⟨h.1, h.2, h.3, h.4, h.5, h.6, h.7⟩

theorem setAcc_setPos_twice (c : Channel) (a a' : Word) (p p' : Nat) :
    (((s.setAcc c a).setPos c p).setAcc c a').setPos c p' = (s.setAcc c a').setPos c p' := by
  simp [State.setAcc, State.setPos]

theorem setAcc_setPos_self (c : Channel) : (s.setAcc c (s.acc.get c)).setPos c (s.pos.get c) = s := by
  simp [State.setAcc, State.setPos]

/-- The bytes left, by the table, one step each. -/
theorem run_swsteps {c : Channel} : ∀ (k : Nat) (s : State), Working s c → s.eng = .sw → s.pos.get c + k = s.len →
    Host.Core.run core k s = .next ((s.setAcc c ((s.buf.drop (s.pos.get c)).foldl (swStep (s.tbl.get c))
      (s.acc.get c))).setPos c s.len) := by
  intro k
  induction k with
  | zero =>
    intro s h he hk
    rw [List.drop_eq_nil_of_le (by have := h.whole; omega), ← hk, Nat.add_zero, List.foldl_nil, setAcc_setPos_self]
    rfl
  | succ k ih =>
    intro s h he hk
    have hlt : s.pos.get c < s.buf.length := by have := h.whole; omega
    have hen : swstepEnabled s c = true := swstepEnabled_iff.mpr ⟨h.run, h.going, he, by omega⟩
    have hm : enabledMicro s c = some (.swstep c) := by simp [enabledMicro, hen, chinitEnabled, h.going]
    have hx := execSwstep_next.mpr ⟨hen, h.init, _, List.getElem?_eq_getElem hlt, rfl⟩
    rw [run_succ _ _ _ (step_of_nextMicro (i := .swstep c) h.alone h.run (nextMicro_of_enabled h.earlier hm) (by simp) hx),
      ih _ (h.update _ _) he (by simp; omega), setAcc_setPos_twice]
    simp only [State.setPos_buf, State.setAcc_buf, State.setPos_pos, Tri.get_set_same, State.setPos_tbl, State.setAcc_tbl,
      State.setPos_acc, State.setAcc_acc, State.setPos_len, State.setAcc_len]
    rw [List.drop_eq_getElem_cons hlt, List.foldl_cons]

/-- Fewer than eight bytes left, by the 8-bit form, one step each. -/
theorem run_hwstep8s {c : Channel} : ∀ (k : Nat) (s : State), k < 8 → Working s c → s.eng = .hw →
    s.pos.get c + k = s.len →
    Host.Core.run core k s = .next ((s.setAcc c ((s.buf.drop (s.pos.get c)).foldl hw8 (s.acc.get c))).setPos c s.len) := by
  intro k
  induction k with
  | zero =>
    intro s _ h he hk
    rw [List.drop_eq_nil_of_le (by have := h.whole; omega), ← hk, Nat.add_zero, List.foldl_nil, setAcc_setPos_self]
    rfl
  | succ k ih =>
    intro s hk8 h he hk
    have hlt : s.pos.get c < s.buf.length := by have := h.whole; omega
    have hen : hwstep8Enabled s c = true := hwstep8Enabled_iff.mpr ⟨h.run, h.going, he, by omega, by omega⟩
    have h64 : hwstep64Enabled s c = false := by
      rw [← Bool.not_eq_true, hwstep64Enabled_iff]
      simp [h.run, h.going, he]
      omega
    have hm : enabledMicro s c = some (.hwstep8 c) := by
      simp [enabledMicro, hen, chinitEnabled, swstepEnabled, h.going, he, h64]
    have hx := execHwstep8_next.mpr ⟨h.engine he, hen, _, List.getElem?_eq_getElem hlt, rfl⟩
    rw [run_succ _ _ _ (step_of_nextMicro (i := .hwstep8 c) h.alone h.run (nextMicro_of_enabled h.earlier hm) (by simp) hx),
      ih _ (by omega) (h.update _ _) he (by simp; omega), setAcc_setPos_twice]
    simp only [State.setPos_buf, State.setAcc_buf, State.setPos_pos, Tri.get_set_same, State.setPos_acc, State.setAcc_acc,
      State.setPos_len, State.setAcc_len]
    rw [List.drop_eq_getElem_cons hlt, List.foldl_cons]

/-- The bytes left, whole words first: `k` word steps and `r` byte steps (43_hardware_engine.md R182). -/
theorem run_hwsteps {c : Channel} (r : Nat) (hr : r < 8) : ∀ (k : Nat) (s : State), Working s c → s.eng = .hw →
    s.pos.get c + 8 * k + r = s.len →
    Host.Core.run core (k + r) s =
      .next ((s.setAcc c ((s.buf.drop (s.pos.get c)).foldl hw8 (s.acc.get c))).setPos c s.len) := by
  intro k
  induction k with
  | zero =>
    intro s h he hk
    rw [Nat.zero_add]
    exact run_hwstep8s r s hr h he (by omega)
  | succ k ih =>
    intro s h he hk
    have hwhole := h.whole
    obtain ⟨w, hw⟩ := word64_isSome (s := s) (k := s.pos.get c) (by omega)
    obtain ⟨b0, b1, b2, b3, b4, b5, b6, b7, rfl, ht⟩ := word64_eq_some hw
    have hen : hwstep64Enabled s c = true := hwstep64Enabled_iff.mpr ⟨h.run, h.going, he, by omega⟩
    have hm : enabledMicro s c = some (.hwstep64 c) := by
      simp [enabledMicro, chinitEnabled, swstepEnabled, h.going, he, hen]
    have hx := execHwstep64_next.mpr ⟨h.engine he, hen, _, hw, rfl⟩
    rw [show k + 1 + r = (k + r) + 1 by omega,
      run_succ _ _ _ (step_of_nextMicro (i := .hwstep64 c) h.alone h.run (nextMicro_of_enabled h.earlier hm) (by simp) hx),
      ih _ (h.update _ _) he (by simp; omega), setAcc_setPos_twice]
    simp only [State.setPos_buf, State.setAcc_buf, State.setPos_pos, Tri.get_set_same, State.setPos_acc, State.setAcc_acc,
      State.setPos_len, State.setAcc_len]
    rw [hw64_assemble, ← ht, ← List.foldl_append]
    congr 4
    conv_rhs => rw [← List.take_append_drop 8 (s.buf.drop (s.pos.get c)), List.drop_drop]

/-- All bytes of a channel that has just started. -/
theorem run_bytes {c : Channel} (h : Working s c) (start : s.pos.get c = 0) (acc : s.acc.get c = ~~~s.seed) :
    Host.Core.run core (channelSteps s.eng s.len - 2) s = .next ((s.setAcc c (accAfter s c s.buf)).setPos c s.len) := by
  cases he : s.eng with
  | sw =>
    simp only [channelSteps, Nat.add_sub_cancel]
    rw [run_swsteps s.len s h he (by omega), start, acc]
    simp [accAfter, he]
  | hw =>
    simp only [channelSteps, Nat.add_sub_cancel]
    rw [run_hwsteps (s.len % 8) (by omega) (s.len / 8) s h he (by omega), start, acc]
    simp [accAfter, he]

/-- One channel from idle to done (42_software_engine.md R163, R164; 43_hardware_engine.md R182, R183). -/
theorem run_channel {c : Channel} (alone : s.Undisturbed) (run : s.top = .run)
    (earlier : ∀ d, Precedes d c → s.chp.get d = .chDone) (idle : s.chp.get c = .chIdle)
    (init : s.status.initDone = true) (whole : s.buf.length = s.len) (engine : s.eng = .hw → s.cfg.target.arch ≠ .none) :
    ∃ a, a = accAfter s c s.buf ∧ Host.Core.run core (channelSteps s.eng s.len) s =
      .next ((((s.setAcc c a).setPos c s.len).setRes c (~~~a ^^^ s.eRes.get c)).setChp c .chDone) := by
  generalize hs1 : ((s.setAcc c (~~~s.seed)).setPos c 0).setChp c .chRun = s1
  have e1 : chinitEnabled s c = true := chinitEnabled_iff.mpr ⟨run, idle⟩
  have m1 : enabledMicro s c = some (.chinit c) := by simp [enabledMicro, e1]
  have x1 := execChinit_next.mpr ⟨e1, hs1.symm⟩
  have w1 : Working s1 c := by
    subst hs1
    refine ⟨alone, run, ?_, by simp, init, whole, engine⟩
    intro d hd
    simp only [State.setChp_chp, State.setPos_chp, State.setAcc_chp]
    rw [Tri.get_set_other]
    · exact earlier d hd
    · rintro rfl
      exact not_precedes_self _ hd
  have heng : s1.eng = s.eng := by subst hs1; rfl
  have hlen : s1.len = s.len := by subst hs1; rfl
  have hacc : accAfter s1 c s1.buf = accAfter s c s.buf := by subst hs1; rfl
  have hl := run_bytes w1 (by subst hs1; simp) (by subst hs1; simp)
  rw [heng, hlen, hacc] at hl
  have w2 := w1.update (accAfter s c s.buf) s.len
  have e3 : chfinEnabled ((s1.setAcc c (accAfter s c s.buf)).setPos c s.len) c = true :=
    chfinEnabled_iff.mpr ⟨w2.run, w2.going, by simp [hlen]⟩
  have m3 : enabledMicro ((s1.setAcc c (accAfter s c s.buf)).setPos c s.len) c = some (.chfin c) := by
    have hg := w2.going
    simp only [State.setPos_chp, State.setAcc_chp] at hg
    simp [enabledMicro, e3, chinitEnabled, swstepEnabled, hwstep8Enabled, hwstep64Enabled, Config.wordBytes, hg, hlen]
  have x3 := execChfin_next.mpr ⟨e3, rfl⟩
  have h2 : 2 ≤ channelSteps s.eng s.len := by cases s.eng <;> simp [channelSteps]
  refine ⟨_, rfl, ?_⟩
  rw [show channelSteps s.eng s.len = (channelSteps s.eng s.len - 2 + 1) + 1 by omega,
    run_succ _ _ _ (step_of_nextMicro (i := .chinit c) alone run (nextMicro_of_enabled earlier m1) (by simp) x1)]
  refine (run_add _ 1 _ _ hl).trans ?_
  rw [run_succ _ _ _ (step_of_nextMicro (i := .chfin c) w2.alone w2.run (nextMicro_of_enabled w2.earlier m3) (by simp) x3)]
  subst hs1
  simp [State.setAcc, State.setPos, State.setRes, State.setChp]

/-- When all channels are done the block passes to the Voter (44_tmr_voter.md R212). -/
theorem step_toVoting (alone : s.Undisturbed) (run : s.top = .run) (done : s.chp = Tri.all .chDone) :
    step s = .next (s.setTop .voting) := by
  rw [step_undisturbed alone]
  unfold advance
  simp only [run, runChannels]
  rw [nextMicro_none.mpr (fun c => enabledMicro_of_done (by simp [done]))]
  simp only [allDone_iff.mpr done, if_true]

/-- In `VOTING` the step is the Voter (44_tmr_voter.md R212). -/
theorem step_voter (alone : s.Undisturbed) (voting : s.top = .voting) : step s = .next s.applyVote := by
  rw [step_undisturbed alone]
  unfold advance
  simp only [voting]

/-- The three results of a call whose channels have consumed the whole buffer. -/
def callResults (s : State) : Tri Word :=
  ⟨~~~(accAfter s .c0 s.buf) ^^^ s.eRes.c0, ~~~(accAfter s .c1 s.buf) ^^^ s.eRes.c1, ~~~(accAfter s .c2 s.buf) ^^^ s.eRes.c2⟩

/-- A whole call from its acceptance to the Voter's decision. -/
theorem run_call (alone : s.Undisturbed) (run : s.top = .run) (idle : s.chp = Tri.all .chIdle)
    (init : s.status.initDone = true) (whole : s.buf.length = s.len) (engine : s.eng = .hw → s.cfg.target.arch ≠ .none) :
    ∃ acc pos, Host.Core.run core (callSteps s.eng s.len) s =
      .next (State.applyVote { s with
        top := .voting, chp := Tri.all .chDone, acc := acc, pos := pos, res := callResults s }) := by
  obtain ⟨a0, h0, r0⟩ := run_channel (c := .c0) alone run (by simp [Precedes]) (by simp [idle]) init whole engine
  generalize hs1 :
    (((s.setAcc .c0 a0).setPos .c0 s.len).setRes .c0 (~~~a0 ^^^ s.eRes.get .c0)).setChp .c0 .chDone = s1 at r0
  obtain ⟨a1, h1, r1⟩ := run_channel (s := s1) (c := .c1) (by subst hs1; exact alone) (by subst hs1; exact run)
    (by subst hs1; rintro d rfl; simp) (by subst hs1; simp [idle, Tri.get_set]) (by subst hs1; exact init)
    (by subst hs1; exact whole) (by subst hs1; exact engine)
  generalize hs2 :
    (((s1.setAcc .c1 a1).setPos .c1 s1.len).setRes .c1 (~~~a1 ^^^ s1.eRes.get .c1)).setChp .c1 .chDone = s2 at r1
  obtain ⟨a2, h2, r2⟩ := run_channel (s := s2) (c := .c2) (by subst hs2 hs1; exact alone) (by subst hs2 hs1; exact run)
    (by subst hs2 hs1; intro d hd; cases d <;> simp [Precedes, Tri.get_set] at hd ⊢)
    (by subst hs2 hs1; simp [idle, Tri.get_set]) (by subst hs2 hs1; exact init) (by subst hs2 hs1; exact whole)
    (by subst hs2 hs1; exact engine)
  have c1 : channelSteps s1.eng s1.len = channelSteps s.eng s.len := by subst hs1; rfl
  have c2 : channelSteps s2.eng s2.len = channelSteps s.eng s.len := by subst hs2 hs1; rfl
  have h1' : a1 = accAfter s .c1 s.buf := by subst hs1; exact h1
  have h2' : a2 = accAfter s .c2 s.buf := by subst hs2 hs1; exact h2
  rw [c1] at r1
  rw [c2] at r2
  refine ⟨⟨a0, a1, a2⟩, ⟨s.len, s.len, s.len⟩, ?_⟩
  unfold callSteps
  rw [show 3 * channelSteps s.eng s.len + 2 =
    channelSteps s.eng s.len + (channelSteps s.eng s.len + (channelSteps s.eng s.len + 2)) by omega, run_add _ _ _ _ r0]
  refine (run_add _ _ _ _ r1).trans ((run_add _ 2 _ _ r2).trans ?_)
  unfold callResults
  rw [← h0, ← h1', ← h2']
  clear h0 h1 h2 h1' h2' r0 r1 r2 c1 c2
  subst hs2 hs1
  have voting : ∀ v : State, v = { s with
      top := .voting, chp := Tri.all .chDone, acc := ⟨a0, a1, a2⟩, pos := ⟨s.len, s.len, s.len⟩
      res := ⟨~~~a0 ^^^ s.eRes.c0, ~~~a1 ^^^ s.eRes.c1, ~~~a2 ^^^ s.eRes.c2⟩ } → step v = .next v.applyVote := by
    rintro v rfl
    refine step_voter ?_ rfl
    exact alone
  refine (run_succ 1 _ _ ?_).trans (run_succ 0 _ _ (voting _ rfl))
  · refine (step_toVoting ?_ ?_ ?_).trans ?_
    · exact alone
    · exact run
    · rfl
    · simp only [State.setTop, State.setChp, State.setRes, State.setPos, State.setAcc, Tri.set, Tri.get, Tri.all]

end Sys2Proof.Machine
end

