-- ==== Sys2Proof/Laws/PerInstr.lean ====
section
/-! SUPPORT. Families of facts about every instruction, one lemma per constructor: `RowMatch`, the words of an instruction
lie in its own row of the opcode table. -/

namespace Sys2Proof.Laws.RowMatch

open Sys2Proof

/-- A command word in the row with this code: the low 8 bits, mask `0xFF` (30_encoding.md R93). -/
def inHostRow (code : BitVec 104) : Encoded → Prop
  | .command p => p.cw &&& 0xFF#104 = code
  | .micro _ => False

/-- A micro-operation word in the row with this code: the low 4 bits, mask `0x0F` (30_encoding.md R98). -/
def inMicroRow (code : BitVec 6) : Encoded → Prop
  | .command _ => False
  | .micro uw => uw &&& 0x0F#6 = code

/-- The words `encode` gives lie in the row of the opcode table that has the instruction's mnemonic: masks and codes as
`opcode_table.json` writes them. -/
def Statement : Instr → Prop
  | .init => inHostRow 0x01#104 (encode .init)
  | .crc32c seed len data => inHostRow 0x02#104 (encode (.crc32c seed len data))
  | .crc32cSw seed len data => inHostRow 0x03#104 (encode (.crc32cSw seed len data))
  | .crc32cHw seed len data => inHostRow 0x04#104 (encode (.crc32cHw seed len data))
  | .vote r0 r1 r2 => inHostRow 0x05#104 (encode (.vote r0 r1 r2))
  | .detect => inHostRow 0x06#104 (encode .detect)
  | .rdwcHw => inHostRow 0x07#104 (encode .rdwcHw)
  | .rdwcSw => inHostRow 0x08#104 (encode .rdwcSw)
  | .tblbit => inMicroRow 0x1#6 (encode .tblbit)
  | .tblent => inMicroRow 0x2#6 (encode .tblent)
  | .chinit c => inMicroRow 0x3#6 (encode (.chinit c))
  | .swstep c => inMicroRow 0x4#6 (encode (.swstep c))
  | .hwstep8 c => inMicroRow 0x5#6 (encode (.hwstep8 c))
  | .hwstep64 c => inMicroRow 0x6#6 (encode (.hwstep64 c))
  | .chfin c => inMicroRow 0x7#6 (encode (.chfin c))

/-- The low byte of a built command word is its code. -/
theorem low_byte (a b c : Word) (op : BitVec 8) :
    ((c ++ b ++ a ++ op : BitVec (32 + 32 + 32 + 8)) &&& 0xFF#104) = op.setWidth 104 := by
  apply BitVec.eq_of_getLsbD_eq
  intro i hi
  have hm : (0xFF#104).getLsbD i = decide (i < 8) := by
    have : ∀ k : Fin 104, (0xFF#104).getLsbD k.val = decide (k.val < 8) := by decide
    exact this ⟨i, hi⟩
  rw [BitVec.getLsbD_and, hm, BitVec.getLsbD_append, BitVec.getLsbD_setWidth]
  by_cases h : i < 8
  · simp [h, hi]
  · simp [h, BitVec.getLsbD_of_ge op i (Nat.le_of_not_lt h)]

theorem host_row (h : HostOp) (a b c : Word) (data : List Byte) :
    inHostRow (h.code.setWidth 104) (encodeCommand h a b c data) := low_byte a b c h.code

theorem init : Statement .init := host_row .init _ _ _ _
theorem crc32c (seed len : Word) (data : List Byte) : Statement (.crc32c seed len data) := host_row .crc32c _ _ _ _
theorem crc32cSw (seed len : Word) (data : List Byte) : Statement (.crc32cSw seed len data) := host_row .crc32cSw _ _ _ _
theorem crc32cHw (seed len : Word) (data : List Byte) : Statement (.crc32cHw seed len data) := host_row .crc32cHw _ _ _ _
theorem vote (r0 r1 r2 : Word) : Statement (.vote r0 r1 r2) := host_row .vote _ _ _ _
theorem detect : Statement .detect := host_row .detect _ _ _ _
theorem rdwcHw : Statement .rdwcHw := host_row .rdwcHw _ _ _ _
theorem rdwcSw : Statement .rdwcSw := host_row .rdwcSw _ _ _ _
theorem tblbit : Statement .tblbit := rfl
theorem tblent : Statement .tblent := rfl
theorem chinit (c : Channel) : Statement (.chinit c) := by cases c <;> rfl
theorem swstep (c : Channel) : Statement (.swstep c) := by cases c <;> rfl
theorem hwstep8 (c : Channel) : Statement (.hwstep8 c) := by cases c <;> rfl
theorem hwstep64 (c : Channel) : Statement (.hwstep64 c) := by cases c <;> rfl
theorem chfin (c : Channel) : Statement (.chfin c) := by cases c <;> rfl

end Sys2Proof.Laws.RowMatch
end

