-- ==== Sys2Proof/Tests/Slice0.lean ====
section
/-! SUPPORT. The model's own tests: expected values are the spec's (95_test_vectors.md and the worked examples of the
rules), never the model's; then one witness for the hypotheses of every statement. -/

namespace Sys2Proof.Tests

open Sys2Proof Sys2Proof.Machine
open Host (Outcome)

set_option Elab.async false

/-! ### States to test on -/

/-- The next state, if there is one. -/
def nextOf : Outcome State Fault Refusal → Option State
  | .next t => some t
  | .fault _ => none
  | .refused _ => none

/-- The refusal, if there is one. -/
def refusalOf : Outcome State Fault Refusal → Option Refusal
  | .next _ => none
  | .fault _ => none
  | .refused r => some r

/-- The fault, if there is one. -/
def faultOf : Outcome State Fault Refusal → Option Fault
  | .next _ => none
  | .fault f => some f
  | .refused _ => none

/-- After reset, `CFG = 0x07`, the tunables 5 and 7. -/
def afterReset : State := { State.reset with cfg := ⟨.x86Sse42 true, true⟩, wcpbHw := 5#32, wcpbSw := 7#32 }

/-- Initialised, as `INIT` leaves the block on fault-free hardware. -/
def ready : State := { afterReset with tbl := Tri.all goodTable, status := { Status.reset with initDone := true } }

/-- A call in progress, every channel running at `pos` with accumulator `acc`. -/
def running (eng : Engine) (acc : Word) (data : List Byte) (pos : Nat) : State :=
  { ready with
    top := .run, eng := eng, buf := data, len := data.length, acc := Tri.all acc, pos := Tri.all pos
    chp := Tri.all .chRun, status := { Status.reset with initDone := true, busy := true } }

/-- A call in progress, no channel started. -/
def accepted (eng : Engine) (seed : Word) (data : List Byte) : State :=
  { ready with
    top := .run, eng := eng, seed := seed, buf := data, len := data.length
    status := { Status.reset with initDone := true, busy := true } }

/-- The generator at entry `(c, i)` of a loop. -/
def generating (ph : GenPhase) (c : Channel) (i : Byte) : State :=
  { afterReset with top := .gen, gph := ph, gc := c, gi := i, status := { Status.reset with busy := true } }

/-- The Voter about to decide on three results. -/
def deciding (r0 r1 r2 : Word) : State :=
  { ready with
    top := .voting, res := ⟨r0, r1, r2⟩, chp := Tri.all .chDone
    status := { Status.reset with initDone := true, busy := true } }

/-- Idle with a voted checksum. -/
def valid : State := { ready with cksum := 7#32, status := { Status.reset with initDone := true, valid := true } }

/-- Halted by `NO_MAJORITY`. -/
def halted : State :=
  { ready with top := .halted, status := { Status.reset with initDone := true, halt := true, cause := .noMajority } }

/-- The ASCII codes of `"123456789"`. -/
def digits : List Byte := [0x31#8, 0x32#8, 0x33#8, 0x34#8, 0x35#8, 0x36#8, 0x37#8, 0x38#8, 0x39#8]

/-- A presentation with a draw of no mask. -/
def arrive (p : Presentation) : Arrival := { cmd := p, draw := { eRes := Tri.all 0#32, eTbl := Tri.all zeroTable } }

/-- The block where `ARCH = NONE`, initialised. -/
def noEngine : State := { ready with cfg := ⟨.none, true⟩ }

/-! ### WellFormed: an ill-formed term for each check -/

theorem test_wf_refuses_short_data : (Instr.crc32c 0#32 4#32 [0x74#8, 0x65#8, 0x73#8]).wf = false := by decide

theorem test_wf_refuses_long_data : (Instr.crc32cSw 0#32 0#32 [0x61#8]).wf = false := by decide

theorem test_wf_refuses_data_above_the_bound : (Instr.crc32cHw 0#32 0x00100001#32 [0x61#8]).wf = false := by decide

theorem test_wf_accepts : (Instr.crc32c 0#32 1#32 [0x61#8]).wf = true ∧ (Instr.crc32cHw 0#32 0xFFFFFFFF#32 []).wf = true := by
  decide

theorem test_existsIn_refuses_hardware_engine :
    (Instr.crc32cHw 0#32 0#32 []).existsIn .none = false ∧ (Instr.hwstep8 .c0).existsIn .none = false ∧
      (Instr.hwstep64 .c0).existsIn .none = false ∧ (Instr.crc32cHw 0#32 0#32 []).existsIn (.armCrc false) = true := by
  decide

theorem test_sequence_refuses_hardware_engine :
    sequenceExistsIn .none [.detect, .crc32cHw 0#32 0#32 []] = false ∧
      sequenceExistsIn .none [.detect, .crc32c 0#32 0#32 []] = true ∧
      sequenceExistsIn (.x86Sse42 false) [.detect, .crc32cHw 0#32 0#32 []] = true := by decide

/-! ### Decode: words of 95_test_vectors.md and of the opcode table, one per constructor -/

theorem test_decode_init : decodeCommand ⟨0x33333333222222221111111101#104, []⟩ = .ok .init := by decide
theorem test_decode_crc32c : decodeCommand ⟨0x00000000000000090000000002#104, digits⟩ = .ok (.crc32c 0#32 9#32 digits) := by
  decide
theorem test_decode_crc32c_sw :
    decodeCommand ⟨0x00000000000000010000000003#104, [0x61#8]⟩ = .ok (.crc32cSw 0#32 1#32 [0x61#8]) := by decide
theorem test_decode_crc32c_hw :
    decodeCommand ⟨0x00000000FFFFFFFF0000000004#104, [0x61#8]⟩ = .ok (.crc32cHw 0#32 0xFFFFFFFF#32 []) := by decide
theorem test_decode_vote :
    decodeCommand ⟨0xE3069283E3069283DEADBEEF05#104, []⟩ = .ok (.vote 0xDEADBEEF#32 0xE3069283#32 0xE3069283#32) := by decide
theorem test_decode_detect : decodeCommand ⟨0x00000000000000000000000006#104, []⟩ = .ok .detect := by decide
theorem test_decode_rdwc_hw : decodeCommand ⟨0x00000000000000000000000007#104, []⟩ = .ok .rdwcHw := by decide
theorem test_decode_rdwc_sw : decodeCommand ⟨0x00000000000000000000000008#104, []⟩ = .ok .rdwcSw := by decide
theorem test_decode_tblbit : decodeMicro 0b110001#6 = .ok .tblbit := by decide
theorem test_decode_tblent : decodeMicro 0b010010#6 = .ok .tblent := by decide
theorem test_decode_chinit : decodeMicro 0b000011#6 = .ok (.chinit .c0) := by decide
theorem test_decode_swstep : decodeMicro 0b010100#6 = .ok (.swstep .c1) := by decide
theorem test_decode_hwstep8 : decodeMicro 0b100101#6 = .ok (.hwstep8 .c2) := by decide
theorem test_decode_hwstep64 : decodeMicro 0b000110#6 = .ok (.hwstep64 .c0) := by decide
theorem test_decode_chfin : decodeMicro 0b100111#6 = .ok (.chfin .c2) := by decide

/-- The refused inputs of 95_test_vectors.md section 9, and the reserved micro-operation codes. -/
theorem test_decode_refuses :
    decodeCommand ⟨0#104, []⟩ = .error (.reservedOpcode 0x00#8) ∧
    decodeCommand ⟨9#104, []⟩ = .error (.reservedOpcode 0x09#8) ∧
    decodeCommand ⟨0xFF#104, []⟩ = .error (.reservedOpcode 0xFF#8) ∧
    decodeCommand ⟨0x00000000000000040000000002#104, [0x74#8, 0x65#8, 0x73#8]⟩ = .error (.malformedData 4#32 3) ∧
    decodeMicro 0b000000#6 = .error (.reservedMicroOp 0#4) ∧ decodeMicro 0b001000#6 = .error (.reservedMicroOp 8#4) ∧
    decodeMicro 0b110011#6 = .error .reservedChannel := by decide

/-! ### Pure functions -/

theorem test_bitStep :
    bitStep 0x00000001#32 = 0x82F63B78#32 ∧ bitStep 0x00000003#32 = 0x82F63B79#32 ∧
      bitStep 0x80000000#32 = 0x40000000#32 ∧ bitStep 0xFFFFFFFF#32 = 0xFD09C487#32 := by decide

theorem test_swStep :
    swStep goodTable 0xFFFFFFFF#32 0x31#8 = 0x6F0A661C#32 ∧ swStep goodTable 0xFFFFFFFF#32 0x00#8 = 0xAD82ACAE#32 := by
  decide +kernel

theorem test_hw8 :
    hw8 0x9F787F65#32 0x39#8 = 0x1CF96D7C#32 ∧ hw8 0xFFFFFFFF#32 0xFF#8 = 0x00FFFFFF#32 := by decide

theorem test_hw64 : hw64 0xFFFFFFFF#32 0x3837363534333231#64 = 0x9F787F65#32 ∧
    hw64 0x12345678#32 0x0123456789ABCDEF#64 = 0xA3D207BE#32 := by decide +kernel

theorem test_reference_digits : crc32cRef 0#32 digits = 0xE3069283#32 := by decide +kernel

theorem test_reference_test : crc32cRef 0xDEADBEEF#32 [0x74#8, 0x65#8, 0x73#8, 0x74#8] = 0x8F396FD4#32 := by decide +kernel

theorem test_vote_rule : voteOf 0xDEADBEEF#32 0xE3069283#32 0xE3069283#32 = some 0xE3069283#32 ∧
    voteOf 3#32 5#32 6#32 = none := by decide

/-! ### The 256 entries of 40_table_generator.md R124 -/

/-- Entries 0x00 to 0x3F as the listing of 40_table_generator.md R124 has them. -/
def listing0 : List Word :=
  [0x00000000#32, 0xF26B8303#32, 0xE13B70F7#32, 0x1350F3F4#32, 0xC79A971F#32, 0x35F1141C#32, 0x26A1E7E8#32, 0xD4CA64EB#32] ++
  [0x8AD958CF#32, 0x78B2DBCC#32, 0x6BE22838#32, 0x9989AB3B#32, 0x4D43CFD0#32, 0xBF284CD3#32, 0xAC78BF27#32, 0x5E133C24#32] ++
  [0x105EC76F#32, 0xE235446C#32, 0xF165B798#32, 0x030E349B#32, 0xD7C45070#32, 0x25AFD373#32, 0x36FF2087#32, 0xC494A384#32] ++
  [0x9A879FA0#32, 0x68EC1CA3#32, 0x7BBCEF57#32, 0x89D76C54#32, 0x5D1D08BF#32, 0xAF768BBC#32, 0xBC267848#32, 0x4E4DFB4B#32] ++
  [0x20BD8EDE#32, 0xD2D60DDD#32, 0xC186FE29#32, 0x33ED7D2A#32, 0xE72719C1#32, 0x154C9AC2#32, 0x061C6936#32, 0xF477EA35#32] ++
  [0xAA64D611#32, 0x580F5512#32, 0x4B5FA6E6#32, 0xB93425E5#32, 0x6DFE410E#32, 0x9F95C20D#32, 0x8CC531F9#32, 0x7EAEB2FA#32] ++
  [0x30E349B1#32, 0xC288CAB2#32, 0xD1D83946#32, 0x23B3BA45#32, 0xF779DEAE#32, 0x05125DAD#32, 0x1642AE59#32, 0xE4292D5A#32] ++
  [0xBA3A117E#32, 0x4851927D#32, 0x5B016189#32, 0xA96AE28A#32, 0x7DA08661#32, 0x8FCB0562#32, 0x9C9BF696#32, 0x6EF07595#32]

/-- Entries 0x40 to 0x7F as the listing of 40_table_generator.md R124 has them. -/
def listing1 : List Word :=
  [0x417B1DBC#32, 0xB3109EBF#32, 0xA0406D4B#32, 0x522BEE48#32, 0x86E18AA3#32, 0x748A09A0#32, 0x67DAFA54#32, 0x95B17957#32] ++
  [0xCBA24573#32, 0x39C9C670#32, 0x2A993584#32, 0xD8F2B687#32, 0x0C38D26C#32, 0xFE53516F#32, 0xED03A29B#32, 0x1F682198#32] ++
  [0x5125DAD3#32, 0xA34E59D0#32, 0xB01EAA24#32, 0x42752927#32, 0x96BF4DCC#32, 0x64D4CECF#32, 0x77843D3B#32, 0x85EFBE38#32] ++
  [0xDBFC821C#32, 0x2997011F#32, 0x3AC7F2EB#32, 0xC8AC71E8#32, 0x1C661503#32, 0xEE0D9600#32, 0xFD5D65F4#32, 0x0F36E6F7#32] ++
  [0x61C69362#32, 0x93AD1061#32, 0x80FDE395#32, 0x72966096#32, 0xA65C047D#32, 0x5437877E#32, 0x4767748A#32, 0xB50CF789#32] ++
  [0xEB1FCBAD#32, 0x197448AE#32, 0x0A24BB5A#32, 0xF84F3859#32, 0x2C855CB2#32, 0xDEEEDFB1#32, 0xCDBE2C45#32, 0x3FD5AF46#32] ++
  [0x7198540D#32, 0x83F3D70E#32, 0x90A324FA#32, 0x62C8A7F9#32, 0xB602C312#32, 0x44694011#32, 0x5739B3E5#32, 0xA55230E6#32] ++
  [0xFB410CC2#32, 0x092A8FC1#32, 0x1A7A7C35#32, 0xE811FF36#32, 0x3CDB9BDD#32, 0xCEB018DE#32, 0xDDE0EB2A#32, 0x2F8B6829#32]

/-- Entries 0x80 to 0xBF as the listing of 40_table_generator.md R124 has them. -/
def listing2 : List Word :=
  [0x82F63B78#32, 0x709DB87B#32, 0x63CD4B8F#32, 0x91A6C88C#32, 0x456CAC67#32, 0xB7072F64#32, 0xA457DC90#32, 0x563C5F93#32] ++
  [0x082F63B7#32, 0xFA44E0B4#32, 0xE9141340#32, 0x1B7F9043#32, 0xCFB5F4A8#32, 0x3DDE77AB#32, 0x2E8E845F#32, 0xDCE5075C#32] ++
  [0x92A8FC17#32, 0x60C37F14#32, 0x73938CE0#32, 0x81F80FE3#32, 0x55326B08#32, 0xA759E80B#32, 0xB4091BFF#32, 0x466298FC#32] ++
  [0x1871A4D8#32, 0xEA1A27DB#32, 0xF94AD42F#32, 0x0B21572C#32, 0xDFEB33C7#32, 0x2D80B0C4#32, 0x3ED04330#32, 0xCCBBC033#32] ++
  [0xA24BB5A6#32, 0x502036A5#32, 0x4370C551#32, 0xB11B4652#32, 0x65D122B9#32, 0x97BAA1BA#32, 0x84EA524E#32, 0x7681D14D#32] ++
  [0x2892ED69#32, 0xDAF96E6A#32, 0xC9A99D9E#32, 0x3BC21E9D#32, 0xEF087A76#32, 0x1D63F975#32, 0x0E330A81#32, 0xFC588982#32] ++
  [0xB21572C9#32, 0x407EF1CA#32, 0x532E023E#32, 0xA145813D#32, 0x758FE5D6#32, 0x87E466D5#32, 0x94B49521#32, 0x66DF1622#32] ++
  [0x38CC2A06#32, 0xCAA7A905#32, 0xD9F75AF1#32, 0x2B9CD9F2#32, 0xFF56BD19#32, 0x0D3D3E1A#32, 0x1E6DCDEE#32, 0xEC064EED#32]

/-- Entries 0xC0 to 0xFF as the listing of 40_table_generator.md R124 has them. -/
def listing3 : List Word :=
  [0xC38D26C4#32, 0x31E6A5C7#32, 0x22B65633#32, 0xD0DDD530#32, 0x0417B1DB#32, 0xF67C32D8#32, 0xE52CC12C#32, 0x1747422F#32] ++
  [0x49547E0B#32, 0xBB3FFD08#32, 0xA86F0EFC#32, 0x5A048DFF#32, 0x8ECEE914#32, 0x7CA56A17#32, 0x6FF599E3#32, 0x9D9E1AE0#32] ++
  [0xD3D3E1AB#32, 0x21B862A8#32, 0x32E8915C#32, 0xC083125F#32, 0x144976B4#32, 0xE622F5B7#32, 0xF5720643#32, 0x07198540#32] ++
  [0x590AB964#32, 0xAB613A67#32, 0xB831C993#32, 0x4A5A4A90#32, 0x9E902E7B#32, 0x6CFBAD78#32, 0x7FAB5E8C#32, 0x8DC0DD8F#32] ++
  [0xE330A81A#32, 0x115B2B19#32, 0x020BD8ED#32, 0xF0605BEE#32, 0x24AA3F05#32, 0xD6C1BC06#32, 0xC5914FF2#32, 0x37FACCF1#32] ++
  [0x69E9F0D5#32, 0x9B8273D6#32, 0x88D28022#32, 0x7AB90321#32, 0xAE7367CA#32, 0x5C18E4C9#32, 0x4F48173D#32, 0xBD23943E#32] ++
  [0xF36E6F75#32, 0x0105EC76#32, 0x12551F82#32, 0xE03E9C81#32, 0x34F4F86A#32, 0xC69F7B69#32, 0xD5CF889D#32, 0x27A40B9E#32] ++
  [0x79B737BA#32, 0x8BDCB4B9#32, 0x988C474D#32, 0x6AE7C44E#32, 0xBE2DA0A5#32, 0x4C4623A6#32, 0x5F16D052#32, 0xAD7D5351#32]

theorem test_listing_0 : (List.range 64).map (fun k => tblEntry (BitVec.ofNat 8 k)) = listing0 := by decide
theorem test_listing_1 : (List.range 64).map (fun k => tblEntry (BitVec.ofNat 8 (64 + k))) = listing1 := by decide
theorem test_listing_2 : (List.range 64).map (fun k => tblEntry (BitVec.ofNat 8 (128 + k))) = listing2 := by decide
theorem test_listing_3 : (List.range 64).map (fun k => tblEntry (BitVec.ofNat 8 (192 + k))) = listing3 := by decide

/-! ### One step of an instruction -/

/-- G1's start: `INIT` is accepted. -/
theorem test_init : (nextOf (exec .init afterReset)).map (fun t => (t.status.word, t.top, t.gc, t.gi)) =
    some (0x40#8, .gen, .c0, 0#8) := by decide

/-- G5: `INIT` with `STATUS = 01` is refused. -/
theorem test_init_twice : refusalOf (exec .init ready) = some .alreadyInitialised := by decide

/-- With `CFG = 0x07` the Dispatcher takes the Hardware Engine. -/
theorem test_crc32c : (nextOf (exec (.crc32c 0#32 9#32 digits) ready)).map (fun t => (t.status.word, t.eng, t.len, t.buf)) =
    some (0x41#8, .hw, 9, digits) := by decide

/-- Above the bound: `STATUS = 0x15`, the low byte of `RSP` is `0x0A`. -/
theorem test_crc32c_too_large : (nextOf (exec (.crc32c 0#32 0x00100001#32 []) ready)).map
    (fun t => (t.status.word, t.rsp.map (fun r => 0#3 ++ r.causeField ++ r.rk))) = some (0x15#8, some 0x0A#8) := by decide

theorem test_crc32c_sw : (nextOf (exec (.crc32cSw 0xDEADBEEF#32 1#32 [0x61#8]) ready)).map (fun t => (t.eng, t.seed)) =
    some (.sw, 0xDEADBEEF#32) := by decide

theorem test_crc32c_sw_before_init : refusalOf (exec (.crc32cSw 0#32 0#32 []) afterReset) = some .notInitialised := by decide

/-- `CFG = 0x05` (`HW_EN = 0`) admits `CRC32C.HW`. -/
theorem test_crc32c_hw : (nextOf (exec (.crc32cHw 0#32 0#32 []) { ready with cfg := ⟨.x86Sse42 true, false⟩ })).map State.eng =
    some .hw := by decide

theorem test_crc32c_hw_refused :
    refusalOf (exec (.crc32cHw 0#32 0#32 []) { ready with cfg := ⟨.armCrc false, true⟩ }) = some .capabilityMissing ∧
    refusalOf (exec (.crc32cHw 0#32 0#32 []) { ready with cfg := ⟨.none, true⟩ }) = some .engineAbsent := by decide

/-- P5, command 1: `STATUS = 0x02`, `RSP = 0x0000000901`. -/
theorem test_vote : (nextOf (exec (.vote 5#32 9#32 9#32) afterReset)).map (fun t => (t.status.word, t.cksum, t.rspWord)) =
    some (0x02#8, 9#32, some 0x0000000901#40) := by decide

/-- Without tables: `STATUS = 0x1C`, the low byte of `RSP` is `0x0E`. -/
theorem test_vote_no_majority : (nextOf (exec (.vote 1#32 2#32 3#32) afterReset)).map
    (fun t => (t.status.word, t.top, t.rsp.map (fun r => 0#3 ++ r.causeField ++ r.rk))) = some (0x1C#8, .halted, some 0x0E#8) := by decide

/-- `CFG = 0x07` answers 1, `CFG = 0x05` answers 0. -/
theorem test_detect : (nextOf (exec .detect afterReset)).map State.rspWord = some (some 0x0000000101#40) ∧
    (nextOf (exec .detect { afterReset with cfg := ⟨.x86Sse42 true, false⟩ })).map State.rspWord =
      some (some 0x0000000001#40) := by decide

theorem test_cfg_word : (Cfg.word ⟨.x86Sse42 true, true⟩, Cfg.word ⟨.armCrc true, true⟩, Cfg.word ⟨.none, true⟩) =
    (0x07#8, 0x0B#8, 0x02#8) := by decide

theorem test_rdwc_hw : (nextOf (exec .rdwcHw afterReset)).map State.rsp = some (some (.value 5#32)) := by decide
theorem test_rdwc_sw : (nextOf (exec .rdwcSw afterReset)).map State.rsp = some (some (.value 7#32)) := by decide

theorem test_tblbit : (nextOf (exec .tblbit { afterReset with gx := 0x82F63B78#32 })).map State.gx = some 0x417B1DBC#32 := by
  decide

/-- Entry 0x31, `GI` holding 7: the operand is the low byte of `gx` alone. -/
theorem test_tblent : (nextOf (exec .tblent { generating .build .c0 7#8 with gx := 0xFFFFFF31#32 })).map State.gx =
    some 0xC288CAB2#32 := by decide

/-- In the building loop the entry is written with its mask, and only there: entry 7 with mask `0x100` (G4). -/
theorem test_build : (nextOf (step { generating .build .c1 7#8 with
      eTbl := ⟨zeroTable, tableWrite zeroTable 7#8 0x100#32, zeroTable⟩ })).map
    (fun t => (tableRead t.tbl.c1 7#8, tableRead t.tbl.c0 7#8, t.gi)) = some (0xD4CA65EB#32, 0#32, 8#8) := by decide

/-- A mismatch of entry `(2, 255)`: `STATUS = 0x0C`, the low byte of `RSP` is `0x06` (R240, R27, R95: code 1). -/
theorem test_mismatch : (nextOf (step { generating .check .c2 255#8 with
      tbl := ⟨zeroTable, zeroTable, tableWrite zeroTable 255#8 1#32⟩ })).map
    (fun t => (t.status.word, t.top, t.rsp.map (fun r => 0#3 ++ r.causeField ++ r.rk))) =
      some (0x0C#8, .halted, some 0x06#8) := by decide +kernel

theorem test_chinit : (nextOf (exec (.chinit .c1) (accepted .sw 0xF63AF4EE#32 []))).map (fun t => (t.acc.c1, t.chp)) =
    some (0x09C50B11#32, ⟨.chIdle, .chRun, .chIdle⟩) := by decide

theorem test_swstep : (nextOf (exec (.swstep .c2) (running .sw 0xFFFFFFFF#32 digits 0))).map
    (fun t => (t.acc, t.pos)) = some (⟨0xFFFFFFFF#32, 0xFFFFFFFF#32, 0x6F0A661C#32⟩, ⟨0, 0, 1⟩) := by decide +kernel

theorem test_hwstep8 : (nextOf (exec (.hwstep8 .c0) (running .hw 0x9F787F65#32 digits 8))).map
    (fun t => (t.acc.c0, t.pos)) = some (0x1CF96D7C#32, ⟨9, 8, 8⟩) := by decide

theorem test_hwstep64 : (nextOf (exec (.hwstep64 .c0) (running .hw 0xFFFFFFFF#32 digits 0))).map
    (fun t => (t.acc.c0, t.pos)) = some (0x9F787F65#32, ⟨8, 0, 0⟩) := by decide +kernel

/-- P3: a mask on channel 1. -/
theorem test_chfin : (nextOf (exec (.chfin .c1) { running .sw 0x795F8D3F#32 digits 9 with eRes := ⟨0#32, 0x00010000#32, 0#32⟩ })).map
    (fun t => (t.res.c1, t.chp.c1)) = some (0x86A172C0#32, .chDone) := by decide

/-- P4: three distinct results halt the block, `STATUS = 0x1D`. -/
theorem test_voter_halts : (nextOf (step (deciding 0x6087809B#32 0x6087809A#32 0x60878098#32))).map
    (fun t => (t.status.word, t.top)) = some (0x1D#8, .halted) := by decide

/-- A halted block faults, refuses a command, and `RESET` leaves it with `STATUS = 0x00` (P4). -/
theorem test_halted : faultOf (step halted) = some (.halted .noMajority) ∧ refusalOf (exec .detect halted) = some .halted ∧
    (nextOf (step { halted with events := [.reset] })).map (fun t => (t.status.word, t.top)) = some (0x00#8, .idle) := by decide

/-- R184: `DETECT` then `CRC32C.HW` where `ARCH = NONE`: refused before `DETECT` runs; `CRC32C` in its place is not. -/
theorem test_static_check :
    refusalOf (step { noEngine with hostQueue := [arrive ⟨6#104, []⟩, arrive ⟨4#104, []⟩] }) = some .engineAbsent ∧
    (nextOf (step { noEngine with hostQueue := [arrive ⟨6#104, []⟩, arrive ⟨2#104, []⟩] })).map State.rsp =
      some (some (.value 0#32)) := by decide

/-- R30: each command is presented with a draw of its own. -/
theorem test_draws :
    (nextOf (Host.Core.run core 2 { ready with hostQueue :=
      [{ arrive ⟨6#104, []⟩ with draw := { eRes := ⟨1#32, 2#32, 3#32⟩, eTbl := Tri.all zeroTable } },
        { arrive ⟨7#104, []⟩ with draw := { eRes := ⟨4#32, 5#32, 6#32⟩, eTbl := Tri.all zeroTable } }] })).map
      (fun t => (t.rsp, t.eRes)) = some (some (.value 5#32), ⟨4#32, 5#32, 6#32⟩) := by decide

/-! ### Placed words -/

/-- From reset the command placed is run next: `VOTE 5, 9, 9` answers, `CRC32C` and
`CRC32C.HW` are refused before `INIT`. -/
theorem test_placed_command :
    (nextOf (step (State.reset.withFetchWord 104 0x00000009000000090000000505))).map State.cksum = some 9#32 ∧
    refusalOf (step (State.reset.withFetchWord 104 2)) = some .notInitialised ∧
    refusalOf (step (State.reset.withFetchWord 104 4)) = some .notInitialised := by decide

/-- From reset a micro-operation placed is run next: `HWSTEP64` of channel 1 over eight zero bytes. -/
theorem test_placed_micro : (nextOf (step (State.reset.withFetchWord 8 0x16))).map (fun t => (t.pos.c1, t.eng)) =
    some (8, .hw) := by decide

/-! ### Witnesses: concrete states and operands that meet the hypotheses of each statement -/

/-- Hypotheses of `DecodeOfEncodeIsTheInstruction`. -/
theorem witness_decode_of_encode :
    (Instr.crc32c 0#32 1#32 [0x61#8]).wf = true ∧ (Instr.crc32cSw 0#32 0xFFFFFFFF#32 []).wf = true ∧
      (Instr.chfin .c2).wf = true := by decide

/-- Hypotheses of `DecodedInstructionIsWellFormed`. -/
theorem witness_decoded_is_well_formed : ∃ e i, decode e = .ok i := ⟨.micro 0b010111#6, .chfin .c1, by decide⟩

/-- Hypotheses of `IgnoredFieldsAreIgnoredAndNoOthers`. One word of each format, and one above the length bound. -/
theorem witness_ignored_fields :
    decodeCommand ⟨0x33333333222222221111111101#104, []⟩ = .ok .init ∧
    decodeCommand ⟨0x77777777000000010000000003#104, [0x61#8]⟩ = .ok (.crc32cSw 0#32 1#32 [0x61#8]) ∧
    decodeCommand ⟨0x00000000001000010000000002#104, [0x61#8]⟩ = .ok (.crc32c 0#32 0x00100001#32 []) ∧
    decodeCommand ⟨0x00000003000000020000000105#104, []⟩ = .ok (.vote 1#32 2#32 3#32) := by decide

/-- Hypotheses of `ReservedAndMalformedCommandsAreRefused`. The edges of the reserved opcodes and of the `DATA` length; a
bad command due, one queued, a bad micro-operation word due. -/
theorem witness_reserved_and_malformed :
    (cwOp 0#104 = 0x00#8 ∧ 0x09#8 ≤ cwOp 9#104 ∧ 0x09#8 ≤ cwOp 0xFF#104) ∧
    (cwOp 0x00000000001000000000000004#104 = 0x04#8 ∧ (cwB 0x00000000001000000000000004#104).toNat ≤ 1048576 ∧
      ([] : List Byte).length ≠ (cwB 0x00000000001000000000000004#104).toNat) ∧
    decodeCommand (arrive ⟨0#104, []⟩).cmd = .error (.reservedOpcode 0x00#8) ∧
    decodeCommand (arrive ⟨2#104, [0x61#8]⟩).cmd = .error (.malformedData 0#32 1) ∧
    ({ ready with events := [.command (arrive ⟨0#104, []⟩)] } : State).sequenceExists = true ∧
    ({ ready with hostQueue := [arrive ⟨2#104, [0x61#8]⟩] } : State).sequenceExists = true ∧
    ready.Proceeds [] ∧ ready.top = .idle ∧
    decodeMicro 0b001000#6 = .error (.reservedMicroOp 8#4) ∧ decodeMicro 0b110111#6 = .error .reservedChannel ∧
    ({ running .sw 0#32 digits 0 with events := [.uop 0b001000#6] } : State).sequenceExists = true :=
  ⟨by decide, by decide, by decide, by decide, by decide, by decide, .inr ⟨rfl, rfl⟩, rfl, by decide⟩

/-- Hypotheses of `MicroOperationWordsDecodeByTheMap`. -/
theorem witness_micro_words :
    uwOp 0b000000#6 = 0x0#4 ∧ 0x8#4 ≤ uwOp 0b001000#6 ∧ 0x8#4 ≤ uwOp 0b111111#6 ∧
    (0x3#4 ≤ uwOp 0b110011#6 ∧ uwOp 0b110011#6 ≤ 0x7#4 ∧ uwCh 0b110011#6 = 3#2) ∧
    uwOp 0b110001#6 = 0x1#4 ∧ uwOp 0b110010#6 = 0x2#4 ∧
    (uwCh 0b000011#6 = Channel.code .c0 ∧ uwOp 0b000011#6 = 0x3#4) ∧
    (uwCh 0b010100#6 = Channel.code .c1 ∧ uwOp 0b010100#6 = 0x4#4) ∧
    (uwCh 0b010101#6 = Channel.code .c1 ∧ uwOp 0b010101#6 = 0x5#4) ∧
    (uwCh 0b010110#6 = Channel.code .c1 ∧ uwOp 0b010110#6 = 0x6#4) ∧
    (uwCh 0b100111#6 = Channel.code .c2 ∧ uwOp 0b100111#6 = 0x7#4) := by decide

/-- Hypotheses of `StepRunsTheDecodedInstruction`. A command due, a command queued, a micro-operation due that
answers, faults, or is refused, the sequencer's own choice, the generator's, issued or its own. -/
theorem witness_step_runs :
    (({ ready with events := [.command (arrive ⟨6#104, []⟩)] } : State).events = [.command (arrive ⟨6#104, []⟩)] ∧
      ({ ready with events := [.command (arrive ⟨6#104, []⟩)] } : State).sequenceExists = true ∧
      decodeCommand (arrive ⟨6#104, []⟩).cmd = .ok .detect) ∧
    (ready.Proceeds [] ∧ ({ ready with events := [.proceed, .reset] } : State).Proceeds [.reset] ∧ ready.top = .idle ∧
      ({ ready with hostQueue := [arrive ⟨6#104, []⟩] } : State).hostQueue = [arrive ⟨6#104, []⟩] ∧
      ({ ready with hostQueue := [arrive ⟨6#104, []⟩] } : State).sequenceExists = true) ∧
    (decodeMicro 0b000100#6 = .ok (.swstep .c0) ∧ ready.top ≠ .halted ∧
      ({ ready with events := [.uop 0b000100#6] } : State).sequenceExists = true ∧
      (nextOf (exec (.swstep .c0) (running .sw 0#32 digits 0))).isSome = true ∧
      faultOf (exec (.swstep .c0) { running .sw 0#32 digits 0 with buf := [] }) = some .outsideBuffer ∧
      refusalOf (exec (.swstep .c0) ready) = some .notEnabled) ∧
    ((running .hw 0#32 digits 0).Proceeds [] ∧ (running .hw 0#32 digits 0).top = .run ∧
      nextMicro (running .hw 0#32 digits 0) = some (.hwstep64 .c0)) ∧
    ((generating .build .c0 0#8).Proceeds [] ∧ decodeMicro 0b000010#6 = .ok .tblent ∧
      (generating .build .c0 0#8).top = .gen ∧ (generating .build .c0 0#8).gph = .build ∧
      (nextOf (exec .tblent (generating .build .c0 0#8))).isSome = true) :=
  ⟨⟨rfl, by decide, by decide⟩, ⟨.inr ⟨rfl, rfl⟩, .inl rfl, rfl, rfl, by decide⟩, by decide +kernel, ⟨.inr ⟨rfl, rfl⟩, by decide⟩,
    .inr ⟨rfl, rfl⟩, by decide⟩

/-- Hypotheses of `PlacedWordIsRunNext`. -/
theorem witness_placed_word : State.reset.sequenceExists = true ∧ halted.sequenceExists = true ∧
    decodeTableWord 104 0x06 = some .detect ∧ decodeTableWord 104 0x04 = some (.crc32cHw 0#32 0#32 []) ∧ decodeTableWord 8 0x27 = some (.chfin .c2) ∧
    decodeTableWord 8 0x01 = some .tblbit := by decide

/-- Hypotheses of `ResetEventFromAnyState`. -/
theorem witness_reset_event : ({ running .sw 0#32 digits 3 with events := [.reset] } : State).events = [.reset] ∧
    ({ running .sw 0#32 digits 3 with events := [.reset] } : State).sequenceExists = true ∧
    ({ halted with events := [.reset] } : State).events = [.reset] ∧
    ({ halted with events := [.reset] } : State).sequenceExists = true := ⟨rfl, by decide, rfl, by decide⟩

/-- Hypotheses of `AdmittedExactlyWhenTheSpecSays`, `EnabledExactlyInItsRow`. -/
theorem witness_admitted :
    ((Instr.crc32cHw 0#32 9#32 digits).wf = true ∧ isHostCommand (.crc32cHw 0#32 9#32 digits) = true) ∧
    ((running .sw 0#32 digits 3).buf.length = (running .sw 0#32 digits 3).len ∧
      (running .sw 0#32 digits 3).status.initDone = true ∧ (Instr.swstep .c0).wf = true ∧
      isHostCommand (.swstep .c0) = false ∧ (running .hw 0#32 digits 3).cfg.target.arch ≠ .none ∧
      noEngine.cfg.target.arch = .none) := by decide

/-- Hypotheses of `RefusedByTheConditionThatFails`. -/
theorem witness_refused :
    isHostCommand .detect = true ∧ halted.status.halt = true ∧
    ((accepted .sw 0#32 []).status.halt = false ∧ (accepted .sw 0#32 []).status.busy = true) ∧
    (ready.status.halt = false ∧ ready.status.busy = false ∧ ready.status.initDone = true) ∧
    (afterReset.status.halt = false ∧ afterReset.status.busy = false ∧ afterReset.status.initDone = false) ∧
    ({ ready with cfg := ⟨.none, true⟩ } : State).cfg.target.arch = .none ∧
    (({ ready with cfg := ⟨.armCrc false, true⟩ } : State).cfg.target.arch ≠ .none ∧
      ({ ready with cfg := ⟨.armCrc false, true⟩ } : State).cfg.target.hwCap = false) := by decide

/-- Hypotheses of `MicroOperationStops`. Each clause at the edge of its range: a channel at its end, one byte and
eight bytes before it. -/
theorem witness_micro_stops :
    chinitEnabled (running .sw 0#32 digits 0) .c0 = false ∧ swstepEnabled (running .sw 0#32 digits 9) .c0 = false ∧
    hwstep8Enabled (running .hw 0#32 digits 1) .c0 = false ∧ hwstep64Enabled (running .hw 0#32 digits 2) .c0 = false ∧
    chfinEnabled (running .sw 0#32 digits 8) .c0 = false ∧
    (swstepEnabled { running .sw 0#32 digits 8 with buf := digits.take 8 } .c0 = true ∧ (digits.take 8).length ≤ 8) ∧
    (swstepEnabled { running .sw 0#32 digits 8 with status := Status.reset } .c0 = true ∧ 8 < digits.length ∧
      Status.reset.initDone = false) ∧
    (hwstep8Enabled { running .hw 0#32 digits 8 with buf := digits.take 8 } .c0 = true ∧ (digits.take 8).length ≤ 8) ∧
    (hwstep64Enabled { running .hw 0#32 digits 1 with buf := digits.take 8 } .c0 = true ∧ (digits.take 8).length < 1 + 8) ∧
    (running .hw 0#32 digits 1).cfg.target.arch ≠ .none ∧ noEngine.cfg.target.arch = .none := by
  decide

/-- Hypotheses of `InitStartsTheGenerator`. -/
theorem witness_init_starts : afterReset.status.halt = false ∧ afterReset.status.busy = false ∧
    afterReset.status.initDone = false ∧ afterReset.events = [] := by decide

/-- Hypotheses of `GeneratorSteps`. Each loop inside a channel and at the last index of each channel. -/
theorem witness_generator :
    (generating .build .c2 255#8).sequenceExists = true ∧ (generating .build .c2 255#8).Proceeds [] ∧
    ({ generating .build .c2 255#8 with events := [.proceed] } : State).Proceeds [] ∧
    ((generating .build .c2 255#8).top = .gen ∧ (generating .build .c2 255#8).gph = .build ∧
      (generating .build .c2 255#8).gc = .c2 ∧ (generating .build .c2 255#8).gi = 255#8) ∧
    ((generating .build .c0 254#8).gi ≠ 255#8 ∧ (generating .build .c0 255#8).gc = .c0 ∧
      (generating .build .c1 255#8).gc = .c1) ∧
    ((generating .check .c1 254#8).gi ≠ 255#8 ∧ (generating .check .c0 255#8).gc = .c0 ∧
      (generating .check .c1 255#8).gc = .c1 ∧ (generating .check .c2 255#8).gi = 255#8) ∧
    (generating .finish .c2 255#8).gph = .finish ∧
    tableRead ((generating .check .c2 255#8).tbl.get .c2) 255#8 = tableRead (generating .check .c2 255#8).tbl.c0 255#8 ∧
    tableRead (tableWrite zeroTable 255#8 1#32) 255#8 ≠ tableRead zeroTable 255#8 :=
  ⟨by decide, .inr ⟨rfl, rfl⟩, .inl rfl, by decide +kernel⟩

/-- Hypotheses of `InitRunBuildsTheTables`. -/
theorem witness_init_run : afterReset.status.halt = false ∧ afterReset.status.busy = false ∧
    afterReset.status.initDone = false ∧ afterReset.Undisturbed ∧
    ∀ c i, tableRead (afterReset.eTbl.get c) i = tableRead afterReset.eTbl.c0 i := by
  refine ⟨rfl, rfl, rfl, ⟨rfl, by decide⟩, ?_⟩
  intro c i
  cases c <;> rfl

/-- Hypotheses of `InitRunReportsAMismatch`. -/
theorem witness_init_mismatch : ∃ s : State, s.status.halt = false ∧ s.status.busy = false ∧ s.status.initDone = false ∧
    s.Undisturbed ∧ ∃ c i, tableRead (s.eTbl.get c) i ≠ tableRead s.eTbl.c0 i :=
  ⟨{ afterReset with eTbl := ⟨zeroTable, tableWrite zeroTable 0x42#8 1#32, zeroTable⟩ }, rfl, rfl, rfl, ⟨rfl, by decide⟩,
    .c1, 0x42#8, by decide +kernel⟩

/-- Hypotheses of `ChinitStartsTheChannel`. -/
theorem witness_chinit : (accepted .sw 0#32 digits).top = .run ∧ (accepted .sw 0#32 digits).chp.get .c0 = .chIdle := by decide

/-- Hypotheses of `SwstepConsumesOneByte`. -/
theorem witness_swstep : (running .sw 0#32 digits 8).top = .run ∧ (running .sw 0#32 digits 8).chp.get .c2 = .chRun ∧
    (running .sw 0#32 digits 8).eng = .sw ∧ (running .sw 0#32 digits 8).pos.get .c2 < (running .sw 0#32 digits 8).len ∧
    (running .sw 0#32 digits 8).buf[8]? = some 0x39#8 ∧ (running .sw 0#32 digits 8).status.initDone = true := by decide

/-- Hypotheses of `HwstepEightConsumesOneByte`. -/
theorem witness_hwstep8 : (running .hw 0#32 digits 2).top = .run ∧ (running .hw 0#32 digits 2).chp.get .c1 = .chRun ∧
    (running .hw 0#32 digits 2).eng = .hw ∧ (running .hw 0#32 digits 2).pos.get .c1 < (running .hw 0#32 digits 2).len ∧
    (running .hw 0#32 digits 2).len - (running .hw 0#32 digits 2).pos.get .c1 < 8 ∧
    (running .hw 0#32 digits 2).buf[2]? = some 0x33#8 ∧ (running .hw 0#32 digits 2).cfg.target.arch ≠ .none ∧
    noEngine.cfg.target.arch = .none := by decide

/-- Hypotheses of `HwstepSixtyFourConsumesAWord`. -/
theorem witness_hwstep64 : (running .hw 0#32 digits 1).cfg.target.arch ≠ .none ∧ noEngine.cfg.target.arch = .none ∧
    (running .hw 0#32 digits 1).top = .run ∧ (running .hw 0#32 digits 1).chp.get .c0 = .chRun ∧
    (running .hw 0#32 digits 1).eng = .hw ∧
    (running .hw 0#32 digits 1).len - (running .hw 0#32 digits 1).pos.get .c0 ≥ 8 ∧
    (digits[1]?, digits[2]?, digits[3]?, digits[4]?, digits[5]?, digits[6]?, digits[7]?, digits[8]?) =
      (some 0x32#8, some 0x33#8, some 0x34#8, some 0x35#8, some 0x36#8, some 0x37#8, some 0x38#8, some 0x39#8) := by decide

/-- Hypotheses of `ChfinLatchesTheResult`. -/
theorem witness_chfin : (running .hw 0#32 digits 9).top = .run ∧ (running .hw 0#32 digits 9).chp.get .c0 = .chRun ∧
    (running .hw 0#32 digits 9).pos.get .c0 = (running .hw 0#32 digits 9).len := by decide

/-- Hypotheses of `WordAssemblyIsLittleEndian`. -/
theorem witness_word_assembly : word64 (running .hw 0#32 digits 0) 1 = some 0x3938373635343332#64 ∧
    1 + 7 < (running .hw 0#32 digits 0).buf.length ∧ word64 (running .hw 0#32 digits 0) 2 = none := by decide

/-- Hypotheses of `ChannelEndsWithTheReference`. -/
theorem witness_channel_ends : AccumulatorInv (running .hw 0xFFFFFFFF#32 [] 0) ∧
    (running .hw 0xFFFFFFFF#32 [] 0).GoodTables ∧ (running .hw 0xFFFFFFFF#32 [] 0).eRes.get .c1 = 0#32 ∧
    (running .hw 0xFFFFFFFF#32 [] 0).buf.length = (running .hw 0xFFFFFFFF#32 [] 0).len ∧
    (running .hw 0xFFFFFFFF#32 [] 0).top = .run ∧ (running .hw 0xFFFFFFFF#32 [] 0).chp.get .c1 = .chRun ∧
    (running .hw 0xFFFFFFFF#32 [] 0).pos.get .c1 = (running .hw 0xFFFFFFFF#32 [] 0).len := by
  refine ⟨?_, rfl, rfl, rfl, rfl, rfl, rfl⟩
  constructor <;> (intro _ c; cases c <;> decide)

/-- Hypotheses of `OneRowPerChannel`. -/
theorem witness_one_row : channelOf (.chfin .c0) = some .c0 ∧
    (nextOf (exec (.chfin .c0) (running .sw 0#32 digits 9))).isSome = true := by decide

/-- Hypotheses of `ChannelsAreIsolated`. -/
theorem witness_isolated : channelOf (.swstep .c0) = some .c0 ∧ channelOf (.swstep .c1) = some .c1 ∧
    (nextOf (exec (.swstep .c0) (running .sw 0#32 digits 0))).isSome = true ∧
    (nextOf (exec (.swstep .c1) (running .sw 0#32 digits 0))).isSome = true := by decide +kernel

/-- Hypotheses of `ChecksumCommandsStartACall`, `InputTooLargeIsFatal`. The empty buffer, and the two lengths where
the length check turns. -/
theorem witness_checksum_starts :
    (ready.status.halt = false ∧ ready.status.busy = false ∧ ready.status.initDone = true) ∧
    (ready.cfg.target.arch ≠ .none ∧ ready.cfg.target.hwCap = true) ∧
    ((0#32 : Word).toNat ≤ 1048576 ∧ ([] : List Byte).length = (0#32 : Word).toNat) ∧
    (0x00100000#32).toNat ≤ 1048576 ∧ (0x00100001#32).toNat > 1048576 := by decide

theorem ready_is_undisturbed : ready.Undisturbed := ⟨rfl, by decide⟩

theorem ready_is_ready : ready.Ready := ⟨rfl, rfl, rfl, rfl, rfl, rfl⟩

/-- Hypotheses of `SoftwareCallAnswersTheVote`, `HardwareCallAnswersTheVote`, `DispatchedCallAnswersTheReference`,
`EnginesAnswerTheSame`, `SeedChainsTwoCalls`. A whole call: masks that leave a majority, and masks that leave
none. -/
theorem witness_call :
    ready.Ready ∧ ready.Undisturbed ∧ ready.GoodTables ∧ ready.eRes = Tri.all 0#32 ∧ ready.cfg.target.arch ≠ .none ∧
    ready.cfg.target.hwCap = true ∧ digits.length = (9#32).toNat ∧
    voteOf (ready.upset 0xE3069283#32 .c0) (ready.upset 0xE3069283#32 .c1) (ready.upset 0xE3069283#32 .c2) =
      some 0xE3069283#32 ∧
    (∃ s : State, s.Ready ∧ s.Undisturbed ∧ s.GoodTables ∧
      voteOf (s.upset 0xE3069283#32 .c0) (s.upset 0xE3069283#32 .c1) (s.upset 0xE3069283#32 .c2) = none) :=
  ⟨ready_is_ready, ready_is_undisturbed, rfl, rfl, by decide, rfl, rfl, by decide,
    ⟨{ ready with eRes := ⟨1#32, 2#32, 0#32⟩ }, ⟨rfl, rfl, rfl, rfl, rfl, rfl⟩, ⟨rfl, by decide⟩, rfl, by decide⟩⟩

/-- Hypotheses of `SingleUpsetIsMasked`. -/
theorem witness_single_upset : ∃ s : State, s.Ready ∧ s.Undisturbed ∧ s.GoodTables ∧ Channel.c0 ≠ Channel.c2 ∧
    s.eRes.get .c0 = 0#32 ∧ s.eRes.get .c2 = 0#32 ∧ s.eRes.get .c1 ≠ 0#32 :=
  ⟨{ ready with eRes := ⟨0#32, 0x80000000#32, 0#32⟩ }, ⟨rfl, rfl, rfl, rfl, rfl, rfl⟩, ⟨rfl, by decide⟩, rfl, by decide⟩

/-! Consistent states, one for each phase. -/

theorem accepted_control : ControlInv (accepted .sw 0#32 []) := by
  constructor <;> first | decide | (intro _ c; cases c <;> decide)

theorem accepted_accumulators : AccumulatorInv (accepted .sw 0#32 []) := by
  constructor <;> first | decide | (intro _ c; cases c <;> decide)

theorem generating_control : ControlInv (generating .check .c2 255#8) := by
  constructor <;> first | decide | (intro _ c; cases c <;> decide)

theorem generating_tables : TableInv (generating .check .c2 255#8) := by
  refine ⟨fun h => absurd h (by decide), by decide, ?_, fun _ h => absurd h (by decide)⟩
  intro _ _ c i _ _
  cases c <;> rfl

theorem deciding_control : ControlInv (deciding 1#32 2#32 3#32) := by
  constructor <;> first | decide | (intro _ c; cases c <;> decide)

theorem halted_control : ControlInv halted := by
  constructor <;> first | decide | (intro _ c; cases c <;> decide)

theorem ready_control : ControlInv ready := by
  constructor <;> first | decide | (intro _ c; cases c <;> decide)

theorem ready_tables : TableInv ready := by
  refine ⟨?_, by decide, fun h => absurd h (by decide), fun h => absurd h (by decide)⟩
  intro _ c
  cases c <;> rfl

/-- Hypotheses of `ScheduleDoesNotMatter`, `EveryCallEnds`. Seven steps bring an empty call to the Voter, in the
default order and with channel 2 first; the eighth ends it. -/
theorem witness_schedule :
    ((accepted .sw 0#32 []).top = .run ∧ (accepted .sw 0#32 []).hostQueue = []) ∧
    (nextOf (Host.Core.run core 7 { accepted .sw 0#32 [] with events := [] })).map State.top = some .voting ∧
    (nextOf (Host.Core.run core 7 { accepted .sw 0#32 [] with events := [.uop 0b100011#6, .proceed, .uop 0b100111#6] })).map State.top =
      some .voting ∧
    (nextOf (Host.Core.run core 8 (accepted .sw 0#32 []))).map State.top = some .idle ∧
    (accepted .sw 0#32 []).events.length + 3 * ((accepted .sw 0#32 []).len + 2) + 2 ≤ 8 := by decide

/-- The ends of `EveryCallEnds`: idle, past the halt, refused at a word named out of its row. -/
theorem witness_call_ends :
    (nextOf (Host.Core.run core 9 (accepted .sw 0#32 []))).map State.top = some .idle ∧
    faultOf (Host.Core.run core 9 { accepted .sw 0#32 [] with eRes := ⟨1#32, 2#32, 0#32⟩ }) = some (.halted .noMajority) ∧
    refusalOf (Host.Core.run core 9 { accepted .sw 0#32 [] with events := [.uop 0b000111#6] }) = some .notEnabled ∧
    ({ accepted .sw 0#32 [] with events := [.uop 0b000111#6] } : State).events.length + 3 * (0 + 2) + 2 ≤ 9 := by decide

/-- Hypotheses of `VoteAnswersTheMajority`, `DetectAnswersTheSelection`, `TunablesAreAnswered`. -/
theorem witness_vote : ready.top = .idle ∧ ready.chp = Tri.all .chIdle ∧ ready.status.halt = false ∧
    ready.status.busy = false ∧ (1#32 : Word) ≠ 2#32 ∧ (1#32 : Word) ≠ 3#32 ∧ (2#32 : Word) ≠ 3#32 := by decide

/-- Hypotheses of `VoterInsideACall`. -/
theorem witness_voter :
    ((running .sw 0#32 [] 0).sequenceExists = true ∧ (running .sw 0#32 [] 0).Proceeds [] ∧
      (running .sw 0#32 [] 0).top = .run ∧
      ({ running .sw 0#32 [] 0 with chp := Tri.all .chDone } : State).chp = Tri.all .chDone ∧
      (nextOf (step { running .sw 0#32 [] 0 with chp := Tri.all .chDone })).map State.top = some .voting) ∧
    ((deciding 1#32 2#32 2#32).sequenceExists = true ∧ (deciding 1#32 2#32 2#32).Proceeds [] ∧
      (deciding 1#32 2#32 2#32).top = .voting ∧ voteOf 1#32 2#32 2#32 = some 2#32) ∧ voteOf 1#32 2#32 3#32 = none :=
  ⟨⟨by decide, .inr ⟨rfl, rfl⟩, by decide⟩, ⟨by decide, .inr ⟨rfl, rfl⟩, by decide⟩, by decide⟩

/-- Hypotheses of `FatalEntry`. The three causes, each raised by a step from a consistent state. -/
theorem witness_fatal :
    ((nextOf (step { generating .check .c2 255#8 with tbl := ⟨zeroTable, zeroTable, tableWrite zeroTable 255#8 1#32⟩ })).map
      (fun t => t.status.cause) = some .tableMismatch) ∧
    ((nextOf (step { ready with events := [.command (arrive ⟨0x00000000001000010000000002#104, []⟩)] })).map
      (fun t => t.status.cause) = some .inputTooLarge) ∧
    ((nextOf (step (deciding 1#32 2#32 3#32))).map (fun t => t.status.cause) = some .noMajority) ∧
    ready.status.halt = false ∧ (deciding 1#32 2#32 3#32).status.halt = false := by decide +kernel

/-- Hypotheses of `HaltedUntilReset`. -/
theorem witness_halted : halted.status.halt = true ∧ halted.sequenceExists = true ∧ halted.Proceeds [] ∧
    ({ halted with events := [.uop 0b000001#6] } : State).sequenceExists = true ∧ decodeMicro 0b000001#6 = .ok .tblbit ∧
    (nextOf (step { halted with events := [.masks (Tri.all 1#32) (Tri.all zeroTable)] })).map State.top = some .halted :=
  ⟨rfl, by decide, .inr ⟨rfl, rfl⟩, by decide⟩

/-- Clauses of `StatusBitsChangeOnlyAsTheSpecSays`: from `VALID = 1` an acceptance, a second `VOTE`, a `DETECT`; an `INIT`
accepted; a reset. -/
theorem witness_status_clauses :
    (nextOf (step { valid with hostQueue := [arrive ⟨2#104, []⟩] })).map (fun t => (t.top, t.status.word)) =
      some (.run, 0x41#8) ∧
    (nextOf (step { valid with hostQueue := [arrive ⟨0x00000009000000090000000505#104, []⟩] })).map
      (fun t => (t.status.word, t.cksum, t.rsp)) = some (0x03#8, 9#32, some (.value 9#32)) ∧
    (nextOf (step { valid with hostQueue := [arrive ⟨6#104, []⟩] })).map (fun t => (t.status.word, t.cksum)) =
      some (0x03#8, 7#32) ∧
    (nextOf (step { afterReset with hostQueue := [arrive ⟨1#104, []⟩] })).map (fun t => (t.top, t.status.word)) =
      some (.gen, 0x40#8) ∧
    (nextOf (step { halted with events := [.reset] })).map (fun t => t.status.word) = some 0x00#8 := by decide

/-- Hypotheses of `StatusBitsChangeOnlyAsTheSpecSays`, `CfgIsAConstantWord`, `TunablesAffectNothing`,
`TablesAreImmutableAfterInit`. -/
theorem witness_status_bits :
    (nextOf (step ready)).map (fun t => t.status.initDone) = some true ∧
    (nextOf (step (generating .finish .c2 255#8))).map (fun t => t.status.initDone) = some true ∧
    (nextOf (step (deciding 1#32 2#32 2#32))).map (fun t => t.status.valid) = some true ∧
    (nextOf (step { ready with hostQueue := [arrive ⟨7#104, []⟩] })).map State.rsp = some (some (.value 5#32)) := by decide

/-- Hypotheses of `OperandsAreConstantDuringACall`. -/
theorem witness_operands_constant : (nextOf (step (accepted .sw 0#32 []))).isSome = true ∧
    (nextOf (step (deciding 1#32 2#32 2#32))).isSome = true := by decide

/-- Hypotheses of `HostWaitsForTheBlock`. -/
theorem witness_host_waits : (nextOf (step { ready with hostQueue := [arrive ⟨6#104, []⟩] })).map State.hostQueue = some [] := by decide

/-- Hypotheses of `NothingIsStuck`. -/
theorem witness_not_stuck : ready.sequenceExists = true ∧ ready.Proceeds [] ∧ ready.hostQueue = [] ∧ ready.top ≠ .halted :=
  ⟨by decide, .inr ⟨rfl, rfl⟩, rfl, by decide⟩

/-- Hypotheses of `StepKeepsControl`, `StepKeepsTablesEqual`, `StepKeepsAccumulators`. A step to a next state from
consistent states of each phase. -/
theorem witness_invariants :
    (nextOf (step ready)).isSome = true ∧ (nextOf (step (generating .check .c2 255#8))).isSome = true ∧
    (nextOf (step (accepted .sw 0#32 []))).isSome = true := by decide +kernel

/-- Hypotheses of `IllFormedSequencesAreRefused`. -/
theorem witness_ill_formed :
    noEngine.cfg.target.arch = .none ∧
    .crc32cHw 0#32 0#32 [] ∈ ({ noEngine with hostQueue := [arrive ⟨6#104, []⟩, arrive ⟨4#104, []⟩] } : State).sequence ∧
    .crc32cHw 0#32 0#32 [] ∈ ({ noEngine with events := [.proceed, .command (arrive ⟨4#104, []⟩)] } : State).sequence ∧
    .hwstep8 .c0 ∈ ({ noEngine with events := [.uop 0b000101#6] } : State).sequence ∧
    .hwstep64 .c2 ∈ ({ noEngine with events := [.uop 0b100110#6] } : State).sequence ∧
    ready.cfg.target.arch ≠ .none ∧ noEngine.sequence = [] := by decide

/-- Hypotheses of `MaskPortsAreTheEnvironments`. -/
theorem witness_masks :
    ({ running .sw 0#32 digits 3 with events := [.masks (Tri.all 1#32) (Tri.all zeroTable)] } : State).events =
      [.masks (Tri.all 1#32) (Tri.all zeroTable)] ∧
    ({ running .sw 0#32 digits 3 with events := [.masks (Tri.all 1#32) (Tri.all zeroTable)] } : State).sequenceExists = true ∧
    (nextOf (step ready)).isSome = true := ⟨rfl, by decide, by decide⟩

end Sys2Proof.Tests
end

/-! PROOFS: the state (10_state.md). What every step keeps of the control and of the tables, and what it does to `STATUS`,
to the operand latches and to `CFG`, proved row by row of R149 and carried to the step by `step_row`; what it does to the
masks, proved instruction by instruction. -/

namespace Sys2Proof.Machine

variable {s t : State}

/-! ### What the generator and the Voter leave unchanged -/

/-- The table write of the building loop touches the tables and the generator's place only. -/
theorem storeEntry_eq (s : State) :
    ∃ tb ph c i, s.storeEntry = { s with tbl := tb, gph := ph, gc := c, gi := i } := by
  unfold State.storeEntry State.afterBuild
  split
  · exact ⟨_, _, _, _, rfl⟩
  · exact ⟨_, _, _, _, rfl⟩

/-- A comparison that finds the entries equal moves the generator's place only. -/
theorem afterCheck_eq_setGen (s : State) : ∃ ph c i, s.afterCheck = s.setGen ph c i := by
  unfold State.afterCheck
  split
  · exact ⟨_, _, _, rfl⟩
  · exact ⟨_, _, _, rfl⟩

/-- A comparison finds the two entries equal and goes on, or finds them different and raises `TABLE_MISMATCH`. -/
theorem checkEntry_cases (s : State) :
    (tableRead (s.tbl.get s.gc) s.gi = tableRead s.tbl.c0 s.gi ∧ s.checkEntry = s.afterCheck) ∨
    (tableRead (s.tbl.get s.gc) s.gi ≠ tableRead s.tbl.c0 s.gi ∧ s.checkEntry = s.raiseFatal .tableMismatch) := by
  unfold State.checkEntry
  split
  · exact .inl ⟨‹_›, rfl⟩
  · exact .inr ⟨‹_›, rfl⟩

/-- A comparison moves the generator's place only, or raises `TABLE_MISMATCH`. -/
theorem checkEntry_eq (s : State) :
    (∃ ph c i, s.checkEntry = s.setGen ph c i) ∨ s.checkEntry = s.raiseFatal .tableMismatch := by
  obtain ⟨-, e⟩ | ⟨-, e⟩ := checkEntry_cases s
  · exact .inl (e ▸ afterCheck_eq_setGen s)
  · exact .inr e

/-- The Voter writes no table entry, not even where it raises `NO_MAJORITY`. -/
@[simp] theorem applyVote_tbl (s : State) : s.applyVote.tbl = s.tbl := by
  obtain ⟨v, -, h⟩ | ⟨-, h⟩ := applyVote_cases s <;> rw [h] <;> rfl

@[simp] theorem applyVote_initDone (s : State) : s.applyVote.status.initDone = s.status.initDone := by
  obtain ⟨v, -, h⟩ | ⟨-, h⟩ := applyVote_cases s <;> rw [h] <;> rfl

@[simp] theorem applyVote_cfg (s : State) : s.applyVote.cfg = s.cfg := by
  obtain ⟨v, -, h⟩ | ⟨-, h⟩ := applyVote_cases s <;> rw [h] <;> rfl

/-- The Voter ends in the idle or in the halted block. -/
theorem applyVote_top_ne_gen (s : State) : s.applyVote.top ≠ .gen := by
  obtain ⟨v, -, h⟩ | ⟨-, h⟩ := applyVote_cases s <;> simp [h]

/-! ### From rows to steps -/

/-- What every row keeps, whatever stands at the ports, and reset keeps, every step keeps. -/
theorem step_keeps_of_rows {P : State → Prop} (reset : ∀ s, P s → P s.applyReset)
    (ports : ∀ s es q eRes eTbl, P s → P (((s.setEvents es).setQueue q).setMasks eRes eTbl))
    (row : ∀ s t, P s → Row s t → P t) (hs : P s) (h : step s = .next t) : P t := by
  obtain ⟨rest, -, rfl⟩ | ⟨-, es, q, eRes, eTbl, hr⟩ := step_row h
  · exact reset _ (ports s rest s.hostQueue s.eRes s.eTbl hs)
  · exact row _ t (ports s es q eRes eTbl hs) hr

/-- A step that asserts no reset is a row from the state with other ports. -/
theorem step_row_of_no_reset (h : step s = .next t) (hr : ∀ rest, s.events ≠ .reset :: rest) :
    ∃ es q eRes eTbl, Row (((s.setEvents es).setQueue q).setMasks eRes eTbl) t := by
  obtain ⟨rest, he, -⟩ | ⟨-, h⟩ := step_row h
  · exact absurd he (hr rest)
  · exact h

/-! ### The consistency of `STATUS`, the sequencer and the operands -/

/-- The fields `ControlInv` speaks of. -/
def State.control (s : State) : Status × Top × List Byte × Nat × Tri ChPhase × Tri Nat × Engine × Cfg :=
  (s.status, s.top, s.buf, s.len, s.chp, s.pos, s.eng, s.cfg)

theorem ControlInv.of_control_eq (h : ControlInv s) (e : t.control = s.control) : ControlInv t := by
  cases s
  cases t
  simp only [State.control, Prod.mk.injEq] at e
  obtain ⟨rfl, rfl, rfl, rfl, rfl, rfl, rfl, rfl⟩ := e
  exact { h with }

theorem ControlInv.ports (h : ControlInv s) (es : List Event) (q : List Arrival) (eRes : Tri Word) (eTbl : Tri Table) :
    ControlInv (((s.setEvents es).setQueue q).setMasks eRes eTbl) := h.of_control_eq rfl

/-- A block that is neither halted nor busy is idle. -/
theorem ControlInv.idle (h : ControlInv s) (halt : s.status.halt = false) (busy : s.status.busy = false) :
    s.top = .idle := by
  have hh := h.halt_iff
  have hb := h.busy_iff
  cases ht : s.top <;> simp_all

theorem ControlInv.busy_false (h : ControlInv s) (idle : s.top = .idle) : s.status.busy = false := by
  simpa [idle] using h.busy_iff

theorem ControlInv.busy_true (h : ControlInv s) (call : s.top = .run ∨ s.top = .voting) : s.status.busy = true :=
  h.busy_iff.mpr (.inr call)

theorem ControlInv.halt_false (h : ControlInv s) (ne : s.top ≠ .halted) : s.status.halt = false := by
  simpa [ne] using h.halt_iff

/-- Reset makes every state consistent. -/
theorem ControlInv.applyReset (s : State) : ControlInv s.applyReset := by
  constructor <;> simp [State.reset, Status.reset]

/-- A fatal entry makes every state consistent. -/
theorem ControlInv.raiseFatal (s : State) {cause : Cause} (hc : cause ≠ .none) : ControlInv (s.raiseFatal cause) := by
  constructor <;> simp [hc]

/-- An answer of the Voter, inside a call or to `VOTE`, ends in a consistent idle block. -/
theorem ControlInv.commitChecksum (h : ControlInv s) (halt : s.status.halt = false) (v : Word) :
    ControlInv (s.commitChecksum v) := by
  constructor <;> simp [halt, h.cause_iff.mpr halt]

theorem ControlInv.beginInit (h : ControlInv s) (idle : s.top = .idle) (done : s.status.initDone = false) :
    ControlInv s.beginInit := by
  have hh := h.halt_false (by simp [idle])
  constructor <;> simp [hh, h.cause_iff.mpr hh, done, h.channels_idle (.inl idle)]

theorem ControlInv.finishInit (h : ControlInv s) (gen : s.top = .gen) : ControlInv s.finishInit := by
  have hh := h.halt_false (by simp [gen])
  constructor <;> simp [hh, h.cause_iff.mpr hh, h.channels_idle (.inr gen)]

theorem ControlInv.latchCall (h : ControlInv s) (idle : s.top = .idle) (done : s.status.initDone = true) {eng : Engine}
    {seed : Word} {len : Nat} {data : List Byte} (bound : len ≤ Config.maxInputSize) (fits : data.length = len)
    (exists_ : eng = .hw → s.cfg.target.arch ≠ .none ∧ s.cfg.target.hwCap = true) :
    ControlInv (s.clearValid.latchCall eng seed len data) := by
  have hh := h.halt_false (by simp [idle])
  constructor <;> simp [hh, h.cause_iff.mpr hh, done, bound, fits, h.channels_idle (.inl idle)]
  simpa using exists_

/-- A micro-operation of a running call that leaves every started channel within `LEN` keeps the block consistent. -/
theorem ControlInv.channel (h : ControlInv s) (run : s.top = .run) {acc res : Tri Word} {chp : Tri ChPhase}
    {pos : Tri Nat} (within : ∀ d, chp.get d ≠ .chIdle → pos.get d ≤ s.len) :
    ControlInv { s with acc := acc, res := res, chp := chp, pos := pos } where
  busy_iff := h.busy_iff
  halt_iff := h.halt_iff
  cause_iff := h.cause_iff
  valid_only := h.valid_only
  call_after_init := h.call_after_init
  gen_before_done := h.gen_before_done
  buffer_whole := h.buffer_whole
  channels_idle := by simp [run]
  channels_done := by simp [run]
  pos_within _ := within
  engine_exists := h.engine_exists

/-- One channel goes on to a position within `LEN`. -/
theorem ControlInv.channel_set (h : ControlInv s) (run : s.top = .run) {acc res : Tri Word} (c : Channel) (p : ChPhase)
    {n : Nat} (hn : n ≤ s.len) :
    ControlInv { s with acc := acc, res := res, chp := s.chp.set c p, pos := s.pos.set c n } := by
  refine h.channel run fun d hd => ?_
  by_cases hc : d = c
  · subst hc
    simpa using hn
  · rw [Tri.get_set_other _ _ hc] at hd ⊢
    exact h.pos_within run d hd

/-- One channel consumes bytes and stays within `LEN`. -/
theorem ControlInv.channel_setPos (h : ControlInv s) (run : s.top = .run) {acc : Tri Word} (c : Channel) {n : Nat}
    (hn : n ≤ s.len) : ControlInv { s with acc := acc, pos := s.pos.set c n } := by
  have hc := h.channel_set run c (s.chp.get c) (acc := acc) (res := s.res) hn
  rwa [Tri.set_get] at hc

/-- One channel that stands within `LEN` changes its phase. -/
theorem ControlInv.channel_setChp (h : ControlInv s) (run : s.top = .run) {res : Tri Word} (c : Channel) (p : ChPhase)
    (hn : s.pos.get c ≤ s.len) : ControlInv { s with res := res, chp := s.chp.set c p } := by
  have hc := h.channel_set run c p (acc := s.acc) (res := res) hn
  rwa [Tri.set_get] at hc

theorem ControlInv.setTop_voting (h : ControlInv s) (run : s.top = .run) (done : s.chp = Tri.all .chDone) :
    ControlInv (s.setTop .voting) := by
  have hh := h.halt_false (by simp [run])
  have hv : s.status.valid = false := by simpa [run] using h.valid_only
  constructor <;> simp [hh, hv, h.cause_iff.mpr hh, h.busy_true (.inl run), h.call_after_init (.inl run), done]

theorem ControlInv.clearValid (h : ControlInv s) : ControlInv s.clearValid := { h with valid_only := by simp }

/-- The Voter keeps the block consistent, inside a call and in `VOTE`. -/
theorem ControlInv.applyVote (h : ControlInv s) (halt : s.status.halt = false) : ControlInv s.applyVote := by
  obtain ⟨v, -, e⟩ | ⟨-, e⟩ := applyVote_cases s
  · exact e ▸ h.commitChecksum halt v
  · exact e ▸ .raiseFatal s (by simp)

/-- Every row of R149 keeps the block consistent. -/
theorem Row.keeps_control (h : Row s t) (hs : ControlInv s) : ControlInv t := by
  cases h with
  | masks eRes eTbl => exact hs.of_control_eq rfl
  | initStart halt busy done => exact hs.beginInit (hs.idle halt busy) done
  | callTooLarge halt busy done => exact .raiseFatal _ (by simp)
  | callStart eng seed len data halt busy done bound fits exists_ =>
    exact hs.latchCall (hs.idle halt busy) done bound fits exists_
  | vote r0 r1 r2 halt busy =>
    have hl : ControlInv (s.clearValid.loadResults r0 r1 r2) := hs.clearValid.of_control_eq rfl
    exact hl.applyVote halt
  | probe v halt busy => exact hs.of_control_eq rfl
  | pure v running => exact hs.of_control_eq rfl
  | build gen loop =>
    obtain ⟨_, _, _, _, e⟩ := storeEntry_eq (s.setGx (tblEntry s.gi))
    exact e ▸ hs.of_control_eq rfl
  | check gen loop =>
    obtain ⟨_, _, _, e⟩ | e := checkEntry_eq s
    · exact e ▸ hs.of_control_eq rfl
    · exact e ▸ .raiseFatal s (by simp)
  | finish gen loop => exact hs.finishInit gen
  | chinit c run idle => exact hs.channel_set run c .chRun (Nat.zero_le _)
  | swstep c b run going eng left byte => exact hs.channel_setPos run c left
  | hwstep8 c b run going eng left few byte => exact hs.channel_setPos run c left
  | hwstep64 c w run going eng left word => exact hs.channel_setPos run c left
  | chfin c run going atEnd => exact hs.channel_setChp run c .chDone atEnd.le
  | toVoting run done => exact hs.setTop_voting run done
  | voter voting => exact hs.applyVote (hs.halt_false (by simp [voting]))
  | wait idle => exact hs

/-- Settles O55: every row keeps the block consistent, and reset makes it so. -/
theorem stepKeepsControl : Obligations.StepKeepsControl := fun _ _ hs h =>
  step_keeps_of_rows (fun s _ => .applyReset s) (fun _ es q eRes eTbl hs => hs.ports es q eRes eTbl)
    (fun _ _ hs hr => hr.keeps_control hs) hs h

/-! ### The loop of `INIT` over channels and indexes -/

/-- Before index 255 the loop stays in its channel. -/
theorem nextIndex_of_ne {i : Byte} (hi : i ≠ 255#8) (c : Channel) : nextIndex c i = some (c, i + 1#8) := by
  simp [nextIndex, hi]

/-- The loop goes through the places in order, one at a time. -/
theorem entryPlace_of_nextIndex {c c' : Channel} {i i' : Byte} (h : nextIndex c i = some (c', i')) :
    entryPlace c' i' = entryPlace c i + 1 := by
  by_cases hi : i = 255#8
  · subst hi
    cases c <;> cases h <;> rfl
  · rw [nextIndex_of_ne hi] at h
    cases h
    have hn : i.toNat ≠ 255 := fun e => hi (BitVec.eq_of_toNat_eq e)
    have := i.isLt
    simp only [entryPlace, BitVec.toNat_add, BitVec.toNat_ofNat]
    omega

/-- The loop ends after entry `(2, 255)`, the last place. -/
theorem entryPlace_of_nextIndex_none {c : Channel} {i : Byte} (h : nextIndex c i = none) :
    entryPlace c i + 1 = 768 := by
  by_cases hi : i = 255#8
  · subst hi
    cases c <;> cases h
    rfl
  · rw [nextIndex_of_ne hi] at h
    cases h

theorem entryPlace_lt (c : Channel) (i : Byte) : entryPlace c i < 768 := by
  have := i.isLt
  cases c <;> simp only [entryPlace] <;> omega

theorem entryPlace_c0_lt (i : Byte) : entryPlace .c0 i < 256 := by
  simpa [entryPlace] using i.isLt

theorem le_entryPlace {c : Channel} (hc : c ≠ .c0) (i : Byte) : 256 ≤ entryPlace c i := by
  cases c <;> simp [entryPlace] at hc ⊢
  omega

/-- Two entries at one place are one entry. -/
theorem entryPlace_inj {c d : Channel} {i j : Byte} (h : entryPlace c i = entryPlace d j) : c = d ∧ i = j := by
  have hi := i.isLt
  have hj := j.isLt
  have hcd : c = d := by cases c <;> cases d <;> simp only [entryPlace] at h ⊢ <;> omega
  subst hcd
  exact ⟨rfl, BitVec.eq_of_toNat_eq (by simpa [entryPlace] using h)⟩

/-! ### The consistency of the tables -/

/-- The entries of channels 1 and 2 below place `n` equal channel 0's. -/
def EqualBelow (s : State) (n : Nat) : Prop :=
  ∀ c i, c ≠ .c0 → entryPlace c i < n → tableRead (s.tbl.get c) i = tableRead s.tbl.c0 i

/-- No entry of channel 1 or 2 stands below place 256. -/
theorem equalBelow_start (s : State) : EqualBelow s 256 :=
  fun _ i hc h => absurd (le_entryPlace hc i) (Nat.not_le.mpr h)

/-- A comparison that finds the entries equal adds one. -/
theorem EqualBelow.succ {c : Channel} {i : Byte} (h : EqualBelow s (entryPlace c i))
    (e : tableRead (s.tbl.get c) i = tableRead s.tbl.c0 i) : EqualBelow s (entryPlace c i + 1) := by
  intro d j hd hlt
  rcases Nat.lt_succ_iff_lt_or_eq.mp hlt with hlt | heq
  · exact h d j hd hlt
  · obtain ⟨rfl, rfl⟩ := entryPlace_inj heq
    exact e

/-- Once all places are compared, the tables are equal. -/
theorem EqualBelow.tables_eq (h : EqualBelow s 768) (c : Channel) : s.tbl.get c = s.tbl.c0 := by
  by_cases hc : c = .c0
  · subst hc
    rfl
  · exact table_ext fun i => h c i hc (entryPlace_lt c i)

/-- The fields `TableInv` speaks of. -/
def State.tableControl (s : State) : Tri Table × Bool × Top × GenPhase × Channel × Byte :=
  (s.tbl, s.status.initDone, s.top, s.gph, s.gc, s.gi)

theorem TableInv.of_tableControl_eq (h : TableInv s) (e : t.tableControl = s.tableControl) : TableInv t := by
  simp only [State.tableControl, Prod.mk.injEq] at e
  obtain ⟨htbl, hdone, htop, hgph, hgc, hgi⟩ := e
  constructor
  · simpa only [htbl, hdone] using h.equal_after_init
  · simpa only [htop, hgph, hgc] using h.check_from_one
  · simpa only [htbl, htop, hgph, hgc, hgi] using h.equal_so_far
  · simpa only [htbl, htop, hgph] using h.equal_at_finish

theorem TableInv.ports (h : TableInv s) (es : List Event) (q : List Arrival) (eRes : Tri Word) (eTbl : Tri Table) :
    TableInv (((s.setEvents es).setQueue q).setMasks eRes eTbl) := h.of_tableControl_eq rfl

/-- Outside `INIT` the tables have only to be equal once it is done. -/
theorem TableInv.of_not_gen (gen : t.top ≠ .gen) (equal : t.status.initDone = true → ∀ c, t.tbl.get c = t.tbl.c0) :
    TableInv t where
  equal_after_init := equal
  check_from_one ht := absurd ht gen
  equal_so_far ht := absurd ht gen
  equal_at_finish ht := absurd ht gen

/-- In the building loop, before `INIT` is done, nothing is asked of the tables. -/
theorem TableInv.of_building (done : t.status.initDone = false) (loop : t.gph = .build) : TableInv t where
  equal_after_init := by simp [done]
  check_from_one := by simp [loop]
  equal_so_far := by simp [loop]
  equal_at_finish := by simp [loop]

/-- In the checking loop what has been compared is equal. -/
theorem TableInv.of_checking (done : t.status.initDone = false) (loop : t.gph = .check) (from_one : t.gc ≠ .c0)
    (compared : EqualBelow t (entryPlace t.gc t.gi)) : TableInv t where
  equal_after_init := by simp [done]
  check_from_one _ _ := from_one
  equal_so_far _ _ := compared
  equal_at_finish := by simp [loop]

/-- The write of one entry stays in the building loop or starts the checking loop at `(1, 0)`. -/
theorem TableInv.storeEntry (done : s.status.initDone = false) : TableInv s.storeEntry := by
  unfold State.storeEntry State.afterBuild
  split
  · exact .of_building done rfl
  · exact .of_checking done rfl (by simp) (equalBelow_start _)

/-- A comparison that finds the entries equal goes on in the checking loop, or ends it with all entries compared. -/
theorem TableInv.afterCheck (h : TableInv s) (done : s.status.initDone = false) (gen : s.top = .gen)
    (loop : s.gph = .check) (e : tableRead (s.tbl.get s.gc) s.gi = tableRead s.tbl.c0 s.gi) : TableInv s.afterCheck := by
  have hb : EqualBelow s (entryPlace s.gc s.gi + 1) := EqualBelow.succ (h.equal_so_far gen loop) e
  have h1 := le_entryPlace (h.check_from_one gen loop) s.gi
  unfold State.afterCheck
  split
  case h_1 c i hn =>
    have hp := entryPlace_of_nextIndex hn
    refine .of_checking done rfl ?_ (hp ▸ hb)
    rintro rfl
    have := entryPlace_c0_lt i
    omega
  case h_2 hn =>
    rw [entryPlace_of_nextIndex_none hn] at hb
    exact { equal_after_init := by simp [done], check_from_one := by simp, equal_so_far := by simp,
            equal_at_finish := fun _ _ => hb.tables_eq }

/-- Every row of R149 keeps the tables equal, as far as `INIT` has compared them. -/
theorem Row.keeps_tables (h : Row s t) (hc : ControlInv s) (hs : TableInv s) : TableInv t := by
  cases h with
  | masks eRes eTbl => exact hs.of_tableControl_eq rfl
  | initStart halt busy done => exact .of_building done rfl
  | callTooLarge halt busy done => exact .of_not_gen (by simp) (by simpa using hs.equal_after_init)
  | callStart eng seed len data halt busy done bound fits exists_ => exact .of_not_gen (by simp) hs.equal_after_init
  | vote r0 r1 r2 halt busy => exact .of_not_gen (applyVote_top_ne_gen _) (by simpa using hs.equal_after_init)
  | probe v halt busy => exact hs.of_tableControl_eq rfl
  | pure v running => exact hs.of_tableControl_eq rfl
  | build gen loop => exact .storeEntry (hc.gen_before_done gen)
  | check gen loop =>
    obtain ⟨heq, e⟩ | ⟨-, e⟩ := checkEntry_cases s
    · exact e ▸ hs.afterCheck (hc.gen_before_done gen) gen loop heq
    · exact e ▸ .of_not_gen (by simp) (by simp [hc.gen_before_done gen])
  | finish gen loop => exact .of_not_gen (by simp) fun _ => hs.equal_at_finish gen loop
  | chinit c run idle => exact hs.of_tableControl_eq rfl
  | swstep c b run going eng left byte => exact hs.of_tableControl_eq rfl
  | hwstep8 c b run going eng left few byte => exact hs.of_tableControl_eq rfl
  | hwstep64 c w run going eng left word => exact hs.of_tableControl_eq rfl
  | chfin c run going atEnd => exact hs.of_tableControl_eq rfl
  | toVoting run done => exact .of_not_gen (by simp) hs.equal_after_init
  | voter voting => exact .of_not_gen (applyVote_top_ne_gen s) (by simpa using hs.equal_after_init)
  | wait idle => exact hs

theorem TableInv.applyReset (s : State) : TableInv s.applyReset :=
  .of_not_gen (by simp [State.reset]) (by simp [State.reset, Status.reset])

/-- Settles O57: with the consistency of the control every row keeps that of the tables, and reset makes both. -/
theorem stepKeepsTablesEqual : Obligations.StepKeepsTablesEqual := by
  intro s t hc ht h
  have hkeep := step_keeps_of_rows (P := fun s => ControlInv s ∧ TableInv s) (fun s _ => ⟨.applyReset s, .applyReset s⟩)
    (fun s es q eRes eTbl hs => ⟨hs.1.ports es q eRes eTbl, hs.2.ports es q eRes eTbl⟩)
    (fun s t hs hr => ⟨hr.keeps_control hs.1, hr.keeps_tables hs.1 hs.2⟩) ⟨hc, ht⟩ h
  exact hkeep.2

/-- Settles O56: reset leaves the reset state as it is, and makes the control and the tables consistent; no call runs. -/
theorem resetIsConsistent : Obligations.ResetIsConsistent :=
  ⟨.applyReset State.reset, .applyReset State.reset, by simp [State.reset], by simp [State.reset]⟩

/-! ### What a step does to `STATUS` -/

/-- What one step other than a reset does to `STATUS`, with the phase it leaves and enters, its response, and what becomes
of `CKSUM` where `VALID` may stay (10_state.md R27; 41_dispatcher.md R149; 60_exceptions.md R246). -/
inductive StatusChange (s t : State) : Prop
  /-- Nothing is accepted and nothing ends. -/
  | same (status : t.status = s.status) (top : t.top = s.top ∨ s.top = .run ∧ t.top = .voting) (cksum : t.cksum = s.cksum)
  /-- `INIT` is accepted. -/
  | initStart (idle : s.top = .idle) (status : t.status = { s.status with busy := true }) (top : t.top = .gen)
      (cksum : t.cksum = s.cksum)
  /-- `INIT` completes. -/
  | initEnd (gen : s.top = .gen) (loop : s.gph = .finish)
      (status : t.status = { s.status with initDone := true, busy := false }) (top : t.top = .idle)
      (rsp : t.rsp = some .done) (cksum : t.cksum = s.cksum)
  /-- A checksum command is accepted. -/
  | callStart (idle : s.top = .idle) (status : t.status = { s.status with valid := false, busy := true })
      (top : t.top = .run)
  /-- The Voter finds a majority, in a call or for `VOTE`. -/
  | answer (decides : s.top = .voting ∨ s.top = .idle)
      (status : t.status = { s.status with valid := true, busy := false }) (top : t.top = .idle)
      (rsp : t.rsp = some (.value t.cksum)) (count : t.rspCount = s.rspCount + 1)
  /-- A fatal condition is taken. -/
  | fatal (cause : Cause) (running : s.status.halt = false)
      (status : t.status = { s.status with halt := true, cause := cause, valid := false, busy := false })
      (top : t.top = .halted) (rsp : t.rsp = some (.fatal cause))

/-- The change of `STATUS` does not depend on the ports. -/
theorem StatusChange.of_ports {es : List Event} {q : List Arrival} {eRes : Tri Word} {eTbl : Tri Table}
    (h : StatusChange (((s.setEvents es).setQueue q).setMasks eRes eTbl) t) : StatusChange s t := by
  cases h with
  | same status top cksum => exact .same status top cksum
  | initStart idle status top cksum => exact .initStart idle status top cksum
  | initEnd gen loop status top rsp cksum => exact .initEnd gen loop status top rsp cksum
  | callStart idle status top => exact .callStart idle status top
  | answer decides status top rsp count => exact .answer decides status top rsp count
  | fatal cause running status top rsp => exact .fatal cause running status top rsp

/-- The Voter in `u` changes the `STATUS` of `s`, where `u` is `s` itself, in a call, or `s` with `VALID` cleared and the
operands loaded, in `VOTE`. -/
theorem applyVote_statusChange {u : State} (decides : s.top = .voting ∨ s.top = .idle) (halt : s.status.halt = false)
    (status : u.status = s.status ∨ u.status = { s.status with valid := false }) (count : u.rspCount = s.rspCount) :
    StatusChange s u.applyVote := by
  obtain ⟨v, -, e⟩ | ⟨-, e⟩ := applyVote_cases u
  · refine e ▸ .answer decides ?_ rfl rfl (by simp [count])
    obtain h | h := status <;> simp [h]
  · refine e ▸ .fatal .noMajority halt ?_ rfl rfl
    obtain h | h := status <;> simp [h]

theorem Row.statusChange (h : Row s t) (hs : ControlInv s) : StatusChange s t := by
  cases h with
  | masks eRes eTbl => exact .same rfl (.inl rfl) rfl
  | initStart halt busy done => exact .initStart (hs.idle halt busy) rfl rfl rfl
  | callTooLarge halt busy done => exact .fatal .inputTooLarge halt rfl rfl rfl
  | callStart eng seed len data halt busy done bound fits exists_ => exact .callStart (hs.idle halt busy) rfl rfl
  | vote r0 r1 r2 halt busy => exact applyVote_statusChange (.inr (hs.idle halt busy)) halt (.inr rfl) rfl
  | probe v halt busy => exact .same rfl (.inl rfl) rfl
  | pure v running => exact .same rfl (.inl rfl) rfl
  | build gen loop =>
    obtain ⟨_, _, _, _, e⟩ := storeEntry_eq (s.setGx (tblEntry s.gi))
    exact e ▸ .same rfl (.inl rfl) rfl
  | check gen loop =>
    obtain ⟨_, _, _, e⟩ | e := checkEntry_eq s
    · exact e ▸ .same rfl (.inl rfl) rfl
    · exact e ▸ .fatal .tableMismatch (hs.halt_false (by simp [gen])) rfl rfl rfl
  | finish gen loop => exact .initEnd gen loop rfl rfl rfl rfl
  | chinit c run idle => exact .same rfl (.inl rfl) rfl
  | swstep c b run going eng left byte => exact .same rfl (.inl rfl) rfl
  | hwstep8 c b run going eng left few byte => exact .same rfl (.inl rfl) rfl
  | hwstep64 c w run going eng left word => exact .same rfl (.inl rfl) rfl
  | chfin c run going atEnd => exact .same rfl (.inl rfl) rfl
  | toVoting run done => exact .same rfl (.inr ⟨run, rfl⟩) rfl
  | voter voting => exact applyVote_statusChange (.inl voting) (hs.halt_false (by simp [voting])) (.inl rfl) rfl
  | wait idle => exact .same rfl (.inl rfl) rfl

/-- A step that asserts no reset changes `STATUS` in one of these ways. -/
theorem step_statusChange (hs : ControlInv s) (h : step s = .next t) (hr : ∀ rest, s.events ≠ .reset :: rest) :
    StatusChange s t := by
  obtain ⟨es, q, eRes, eTbl, hrow⟩ := step_row_of_no_reset h hr
  exact (hrow.statusChange (hs.ports es q eRes eTbl)).of_ports

/-- A step that asserts reset. -/
theorem step_reset {rest : List Event} (h : step s = .next t) (he : s.events = .reset :: rest) :
    t = (s.setEvents rest).applyReset := by
  obtain ⟨rest', he', rfl⟩ | ⟨hne, -⟩ := step_row h
  · rw [he] at he'
    cases he'
    rfl
  · exact absurd he (hne rest)

/-! ### The word on the port `STATUS` -/

theorem Status.word_extract_cause (st : Status) : st.word.extractLsb' 3 3 = causeCode st.cause := by
  apply BitVec.eq_of_getLsbD_eq
  intro i hi
  simp only [Status.word, BitVec.getLsbD_extractLsb', hi, decide_true, Bool.true_and, BitVec.getLsbD_append]
  rw [if_neg (by omega), if_neg (by omega), if_neg (by omega), if_pos (by omega)]
  congr 1
  omega

/-- The places of the one-bit fields of `STATUS` (10_state.md R27). -/
theorem Status.word_bits (st : Status) :
    st.word.getLsbD 0 = st.initDone ∧ st.word.getLsbD 1 = st.valid ∧ st.word.getLsbD 2 = st.halt ∧
      st.word.getLsbD 6 = st.busy ∧ st.word.getLsbD 7 = false := by
  simp only [Status.word, BitVec.getLsbD_append]
  simp

/-! ### The rules of `STATUS` -/

/-- What `STATUS` says in a consistent halted block (60_exceptions.md R246). -/
theorem ControlInv.halted_status (h : ControlInv s) (halted : s.top = .halted) :
    s.status.halt = true ∧ s.status.cause ≠ .none ∧ s.status.valid = false ∧ s.status.busy = false := by
  have hh := h.halt_iff.mpr halted
  refine ⟨hh, ?_, ?_, ?_⟩
  · simp [h.cause_iff, hh]
  · simpa [halted] using h.valid_only
  · simpa [halted] using h.busy_iff

/-- Settles O49: the bits by the layout of the word, the events by the changes a step can make. -/
theorem statusBitsChangeOnlyAsTheSpecSays : Obligations.StatusBitsChangeOnlyAsTheSpecSays := by
  refine ⟨fun st => ?_, fun s t rest he h => ?_, fun s t hs h hr => ?_⟩
  · obtain ⟨h0, h1, h2, h6, h7⟩ := st.word_bits
    rw [st.word_extract_cause]
    exact ⟨h0, h1, h2, congrArg causeCode, congrArg causeCode, congrArg causeCode, congrArg causeCode, h6, h7⟩
  · rw [step_reset h he]
    rfl
  · have ht := stepKeepsControl s t hs h
    have hcause := hs.cause_iff.mpr
    cases step_statusChange hs h hr with
    | same status top cksum =>
      obtain top | ⟨run, top⟩ := top
      · simp +contextual [status, top, cksum, hcause, hs.busy_iff, hs.halted_status]
      · simp +contextual [status, top, cksum, hcause, run, hs.busy_true (.inl run)]
    | initStart idle status top cksum => simp +contextual [status, top, cksum, hcause, idle]
    | initEnd gen loop status top rsp cksum => simp +contextual [status, top, cksum, rsp, hcause, gen, loop]
    | callStart idle status top => simp +contextual [status, top, hcause, idle]
    | answer decides status top rsp count =>
      have hvoting : s.top = .voting → s.status.valid = false := fun hv => by simpa [hv] using hs.valid_only
      obtain hd | hd := decides
      · simp +contextual [status, top, rsp, count, hcause, hd, hvoting]
      · simp +contextual [status, top, rsp, count, hcause, hd]
    | fatal cause running status top rsp =>
      have hc : cause ≠ .none := by simpa [status] using (ht.halted_status top).2.1
      simp +contextual [status, top, rsp, running, hc]

/-! ### What is constant after `INIT` and during a call -/

/-- Once `INIT` is done, no row writes a table entry (10_state.md R21). -/
theorem Row.tbl_eq (h : Row s t) (hs : ControlInv s) (done : s.status.initDone = true) : t.tbl = s.tbl := by
  have not_gen : s.top ≠ .gen := fun gen => by simp [hs.gen_before_done gen] at done
  cases h with
  | build gen loop => exact absurd gen not_gen
  | check gen loop => exact absurd gen not_gen
  | callTooLarge halt busy _ => simp
  | vote r0 r1 r2 halt busy => simp
  | voter voting => simp
  | _ => rfl

/-- Settles O51: after `INIT` the generator's rows, the only ones that write entries, are out of reach. -/
theorem tablesAreImmutableAfterInit : Obligations.TablesAreImmutableAfterInit := by
  intro s t hs done h hr
  obtain ⟨es, q, eRes, eTbl, hrow⟩ := step_row_of_no_reset h hr
  exact hrow.tbl_eq (hs.ports es q eRes eTbl) done

/-- The operand latches and the engine of the call (10_state.md R25, R26). -/
def State.operands (s : State) : Word × Nat × List Byte × Engine := (s.seed, s.len, s.buf, s.eng)

@[simp] theorem applyVote_operands (s : State) : s.applyVote.operands = s.operands := by
  obtain ⟨v, -, h⟩ | ⟨-, h⟩ := applyVote_cases s <;> rw [h] <;> rfl

/-- During a call no row writes an operand latch or the engine: the command rows, which do, need a block that is not
busy. -/
theorem Row.operands_eq (h : Row s t) (hs : ControlInv s) (call : s.top = .run ∨ s.top = .voting) :
    t.operands = s.operands := by
  have not_gen : s.top ≠ .gen := fun gen => by simp [gen] at call
  have not_free : s.status.busy ≠ false := by simp [hs.busy_true call]
  cases h with
  | callStart eng seed len data halt busy done bound fits exists_ => exact absurd busy not_free
  | vote r0 r1 r2 halt busy => exact absurd busy not_free
  | build gen loop => exact absurd gen not_gen
  | check gen loop => exact absurd gen not_gen
  | voter voting => exact applyVote_operands s
  | _ => rfl

/-- Settles O52: during a call no row writes the latches or the engine, also not the one that ends it. -/
theorem operandsAreConstantDuringACall : Obligations.OperandsAreConstantDuringACall := by
  intro s t hs call h hr
  obtain ⟨es, q, eRes, eTbl, hrow⟩ := step_row_of_no_reset h hr
  simpa [State.operands] using hrow.operands_eq (hs.ports es q eRes eTbl) call

/-! ### The mask ports -/

/-- The Voter replaces no mask. -/
theorem applyVote_currentDraw (s : State) : s.applyVote.currentDraw = s.currentDraw := by
  obtain ⟨v, -, h⟩ | ⟨-, h⟩ := applyVote_cases s <;> rw [h] <;> rfl

theorem checkEntry_currentDraw (s : State) : s.checkEntry.currentDraw = s.currentDraw := by
  obtain ⟨_, _, _, e⟩ | e := checkEntry_eq s <;> rw [e] <;> rfl

theorem startChecksum_currentDraw {eng : Engine} {seed len : Word} {data : List Byte}
    (h : startChecksum eng seed len data s = .next t) : t.currentDraw = s.currentDraw := by
  obtain ⟨-, rfl⟩ | ⟨-, -, rfl⟩ := startChecksum_next.mp h <;> rfl

/-- No instruction replaces a mask. -/
theorem exec_currentDraw {i : Instr} (h : exec i s = .next t) : t.currentDraw = s.currentDraw := by
  cases i with
  | init =>
    obtain ⟨-, -, -, rfl⟩ := execInit_next.mp h
    rfl
  | crc32c seed len data =>
    obtain ⟨-, -, -, hk⟩ := execCrc32c_next.mp h
    exact startChecksum_currentDraw hk
  | crc32cSw seed len data =>
    obtain ⟨-, -, -, hk⟩ := execCrc32cSw_next.mp h
    exact startChecksum_currentDraw hk
  | crc32cHw seed len data =>
    obtain ⟨-, -, -, -, -, hk⟩ := execCrc32cHw_next.mp h
    exact startChecksum_currentDraw hk
  | vote r0 r1 r2 =>
    obtain ⟨-, -, rfl⟩ := execVote_next.mp h
    exact applyVote_currentDraw _
  | detect =>
    obtain ⟨-, -, rfl⟩ := execDetect_next.mp h
    rfl
  | rdwcHw =>
    obtain ⟨-, -, rfl⟩ := execRdwcHw_next.mp h
    rfl
  | rdwcSw =>
    obtain ⟨-, -, rfl⟩ := execRdwcSw_next.mp h
    rfl
  | tblbit =>
    cases h
    rfl
  | tblent =>
    cases h
    rfl
  | chinit c =>
    obtain ⟨-, rfl⟩ := execChinit_next.mp h
    rfl
  | swstep c =>
    obtain ⟨-, -, _, -, rfl⟩ := execSwstep_next.mp h
    rfl
  | hwstep8 c =>
    obtain ⟨-, -, _, -, rfl⟩ := execHwstep8_next.mp h
    rfl
  | hwstep64 c =>
    obtain ⟨-, -, _, -, rfl⟩ := execHwstep64_next.mp h
    rfl
  | chfin c =>
    obtain ⟨-, rfl⟩ := execChfin_next.mp h
    rfl

theorem beforeMicro_currentDraw (i : Instr) (s : State) : (beforeMicro i s).currentDraw = s.currentDraw := by
  unfold beforeMicro
  split <;> rfl

theorem afterMicro_currentDraw (i : Instr) (s : State) : (afterMicro i s).currentDraw = s.currentDraw := by
  unfold afterMicro
  split
  · obtain ⟨_, _, _, _, e⟩ := storeEntry_eq s
    rw [e]
    rfl
  · rfl

/-- The sequencer replaces no mask as it runs a micro-operation. -/
theorem runMicro_currentDraw {i : Instr} (h : runMicro i s = .next t) : t.currentDraw = s.currentDraw := by
  obtain ⟨-, u, hu, rfl⟩ := runMicro_next.mp h
  rw [afterMicro_currentDraw, exec_currentDraw hu, beforeMicro_currentDraw]

/-- A presented command brings its own draw. -/
theorem present_currentDraw {a : Arrival} (h : present a s = .next t) : t.currentDraw = a.draw := by
  unfold present at h
  split at h
  · exact exec_currentDraw h
  · cases h

theorem issue_currentDraw {uw : BitVec 6} (h : issue uw s = .next t) : t.currentDraw = s.currentDraw := by
  unfold issue at h
  split at h
  · exact runMicro_currentDraw h
  · cases h

theorem generate_currentDraw (h : generate s = .next t) : t.currentDraw = s.currentDraw := by
  unfold generate at h
  split at h
  · exact runMicro_currentDraw h
  · cases h
    exact checkEntry_currentDraw s
  · cases h
    rfl

theorem runChannels_currentDraw (h : runChannels s = .next t) : t.currentDraw = s.currentDraw := by
  unfold runChannels at h
  split at h
  · exact runMicro_currentDraw h
  · split at h
    · cases h
      rfl
    · cases h

/-- Left to itself the block keeps its masks, but for the draw of the command the host presents. -/
theorem advance_currentDraw (h : advance s = .next t) :
    t.currentDraw = s.currentDraw ∨ ∃ a q, s.top = .idle ∧ s.hostQueue = a :: q ∧ t.currentDraw = a.draw := by
  unfold advance at h
  split at h
  case h_1 idle =>
    split at h
    case h_1 =>
      cases h
      exact .inl rfl
    case h_2 a q hq => exact .inr ⟨a, q, idle, hq, present_currentDraw h⟩
  case h_2 => exact .inl (generate_currentDraw h)
  case h_3 => exact .inl (runChannels_currentDraw h)
  case h_4 =>
    cases h
    exact .inl (applyVote_currentDraw s)
  case h_5 => cases h

/-- A step keeps the masks, or is a change of them, or presents a command, which brings its draw (10_state.md R30). -/
theorem step_currentDraw (h : step s = .next t) :
    t.currentDraw = s.currentDraw ∨ (∃ rest, s.events = .masks t.eRes t.eTbl :: rest) ∨
      ∃ a es q, Taken s a es q ∧ t.currentDraw = a.draw := by
  obtain ⟨-, h⟩ := step_next.mp h
  unfold takeNext at h
  split at h
  case h_1 e rest he =>
    cases e with
    | proceed =>
      obtain hk | ⟨a, q, idle, hq, hd⟩ := advance_currentDraw h
      · exact .inl hk
      · exact .inr (.inr ⟨a, rest, q, .inr ⟨.inl he, idle, hq⟩, hd⟩)
    | reset =>
      cases h
      exact .inl rfl
    | masks eRes eTbl =>
      cases h
      exact .inr (.inl ⟨rest, he⟩)
    | command a => exact .inr (.inr ⟨a, rest, s.hostQueue, .inl ⟨he, rfl⟩, present_currentDraw h⟩)
    | uop uw => exact .inl (issue_currentDraw (s := s.setEvents rest) h)
  case h_2 he =>
    obtain hk | ⟨a, q, idle, hq, hd⟩ := advance_currentDraw h
    · exact .inl hk
    · exact .inr (.inr ⟨a, [], q, .inr ⟨.inr ⟨he, rfl⟩, idle, hq⟩, hd⟩)

theorem currentDraw_eq {d : Draw} : s.currentDraw = d ↔ s.eRes = d.eRes ∧ s.eTbl = d.eTbl := by
  cases d
  simp [State.currentDraw]

/-- Settles O60: the masks change in a step only as `step_currentDraw` says. -/
theorem maskPortsAreTheEnvironments : Obligations.MaskPortsAreTheEnvironments := by
  refine fun s => ⟨fun eRes eTbl rest hs he => ?_, fun t h => ?_⟩
  · rw [step_of_exists hs]
    unfold takeNext
    rw [he]
    rfl
  · obtain hk | hm | ⟨a, es, q, ht, hd⟩ := step_currentDraw h
    · exact .inl (currentDraw_eq.mp hk)
    · exact .inr (.inl hm)
    · refine .inr (.inr ⟨a, es, currentDraw_eq.mp hd, ?_⟩)
      obtain ⟨he, -⟩ | ⟨hp, idle, hq⟩ := ht
      · exact .inl he
      · exact .inr ⟨hp, idle, q, hq⟩

/-! ### Reset and the configuration -/

theorem Row.cfg_eq (h : Row s t) : t.cfg = s.cfg := by
  cases h with
  | vote r0 r1 r2 halt busy => exact applyVote_cfg _
  | voter voting => exact applyVote_cfg s
  | build gen loop =>
    obtain ⟨_, _, _, _, e⟩ := storeEntry_eq (s.setGx (tblEntry s.gi))
    exact e ▸ rfl
  | check gen loop =>
    obtain ⟨_, _, _, e⟩ | e := checkEntry_eq s
    · exact e ▸ rfl
    · exact e ▸ rfl
  | _ => rfl

/-- No step changes the configuration (10_state.md R28). -/
theorem step_cfg (h : step s = .next t) : t.cfg = s.cfg :=
  step_keeps_of_rows (P := fun u => u.cfg = s.cfg) (fun _ hu => hu) (fun _ _ _ _ _ hu => hu)
    (fun _ _ hu hr => hr.cfg_eq.trans hu) rfl h

/-- Settles O9: each value stands in `State.reset`, and what holds none is out of its lifetime there. -/
theorem resetValuesOfTheSpec : Obligations.ResetValuesOfTheSpec :=
  ⟨fun _ => ⟨rfl, rfl, rfl⟩, rfl, rfl, fun c => Tri.get_all _ c, rfl, by decide, rfl, rfl, rfl, rfl, rfl, rfl⟩

theorem Cfg.word_extract_arch (c : Cfg) : c.word.extractLsb' 2 2 = archCode c.target.arch := by
  apply BitVec.eq_of_getLsbD_eq
  intro i hi
  simp only [Cfg.word, BitVec.getLsbD_extractLsb', hi, decide_true, Bool.true_and, BitVec.getLsbD_append]
  rw [if_neg (by omega), if_neg (by omega), if_pos (by omega)]
  congr 1
  omega

theorem Cfg.word_extract_high (c : Cfg) : c.word.extractLsb' 4 4 = 0#4 := by
  apply BitVec.eq_of_getLsbD_eq
  intro i hi
  simp only [Cfg.word, BitVec.getLsbD_extractLsb', hi, decide_true, Bool.true_and, BitVec.getLsbD_append]
  rw [if_neg (by omega), if_neg (by omega), if_neg (by omega)]
  simp

/-- The capability requires the architecture family (10_state.md R28). -/
theorem Target.arch_ne_none_of_hwCap {g : Target} (h : g.hwCap = true) : g.arch ≠ .none := by
  cases g <;> simp [Target.arch, Target.hwCap] at h ⊢

theorem Cfg.word_bits (c : Cfg) : c.word.getLsbD 0 = c.target.hwCap ∧ c.word.getLsbD 1 = c.hwEn := by
  simp only [Cfg.word, BitVec.getLsbD_append]
  simp

/-- Settles O45: the bits by the layout of the word, the constancy row by row. -/
theorem cfgIsAConstantWord : Obligations.CfgIsAConstantWord := by
  refine ⟨fun c => ?_, fun s t h => step_cfg h⟩
  obtain ⟨h0, h1⟩ := c.word_bits
  rw [c.word_extract_arch]
  exact ⟨h0, h1, congrArg archCode, congrArg archCode, congrArg archCode, c.word_extract_high,
    Target.arch_ne_none_of_hwCap⟩

end Sys2Proof.Machine

/-! PROOFS: the memory (20_memory.md). The eight bytes of `Word64` and where it is defined; and the isolation of the
channels: a micro-operation reads and writes the elements of its own channel and reads otherwise only what no channel
writes. -/

namespace Sys2Proof.Machine

variable {s t : State}

/-! ### `Word64` -/

/-- A word that is read has its eight bytes in the buffer, each at its own place (20_memory.md R65). -/
theorem bufRead_of_word64 {k : Nat} {w : BitVec 64} (h : word64 s k = some w) {j : Nat} (hj : j < 8) :
    bufRead s (k + j) = some (wordByte w j) := by
  obtain ⟨b0, b1, b2, b3, b4, b5, b6, b7, rfl, hb⟩ := word64_eq_some h
  calc bufRead s (k + j) = ((s.buf.drop k).take 8)[j]? := by
        rw [List.getElem?_take_of_lt hj, List.getElem?_drop]
        rfl
    _ = some (wordByte (assembleWord b0 b1 b2 b3 b4 b5 b6 b7) j) := by
        rw [hb, List.getElem?_eq_getElem (by simpa using hj)]
        exact congrArg some (wordByte_assemble b0 b1 b2 b3 b4 b5 b6 b7 ⟨j, hj⟩).symm

/-- Settles O24: the word that is read is its eight bytes, and the last of them bounds the place. -/
theorem wordAssemblyIsLittleEndian : Obligations.WordAssemblyIsLittleEndian := by
  refine fun s k => ⟨fun w h j hj => bufRead_of_word64 h hj, fun ⟨w, h⟩ => ?_, fun h => word64_isSome (by omega)⟩
  have last : s.buf[k + 7]? = some (wordByte w 7) := bufRead_of_word64 h (by decide)
  exact (List.getElem?_eq_some_iff.mp last).1

/-! ### The elements of one channel -/

/-- What channel `c` has of its own in a call: `ACC[c]`, `RES[c]`, `CHP[c]`, `POS[c]` (10_state.md R35, 20_memory.md
R76). -/
structure ChannelData where
  acc : Word
  res : Word
  chp : ChPhase
  pos : Nat

/-- The elements of channel `c`. -/
def State.channel (s : State) (c : Channel) : ChannelData :=
  { acc := s.acc.get c, res := s.res.get c, chp := s.chp.get c, pos := s.pos.get c }

/-- New values for the elements of channel `c`. -/
def State.setChannel (s : State) (c : Channel) (x : ChannelData) : State :=
  { s with acc := s.acc.set c x.acc, res := s.res.set c x.res, chp := s.chp.set c x.chp, pos := s.pos.set c x.pos }

section Elements

variable {c d : Channel} (x : ChannelData)

@[simp] theorem State.setChannel_top : (s.setChannel d x).top = s.top := rfl
@[simp] theorem State.setChannel_eng : (s.setChannel d x).eng = s.eng := rfl
@[simp] theorem State.setChannel_len : (s.setChannel d x).len = s.len := rfl

theorem State.setChannel_acc_other (h : c ≠ d) : (s.setChannel d x).acc.get c = s.acc.get c :=
  Tri.get_set_other _ _ h

theorem State.setChannel_chp_other (h : c ≠ d) : (s.setChannel d x).chp.get c = s.chp.get c :=
  Tri.get_set_other _ _ h

theorem State.setChannel_pos_other (h : c ≠ d) : (s.setChannel d x).pos.get c = s.pos.get c :=
  Tri.get_set_other _ _ h

theorem State.channel_setChannel_other (h : c ≠ d) : (s.setChannel d x).channel c = s.channel c := by
  simp only [State.channel, State.setChannel, Tri.get_set_other _ _ h]

theorem State.setChannel_comm (y : ChannelData) (h : c ≠ d) :
    (s.setChannel c x).setChannel d y = (s.setChannel d y).setChannel c x := by
  simp only [State.setChannel, Tri.set_comm _ _ _ h]

/-! The enabling conditions of a channel read no element of another channel. -/

theorem chinitEnabled_setChannel_other (h : c ≠ d) : chinitEnabled (s.setChannel d x) c = chinitEnabled s c := by
  rw [Bool.eq_iff_iff, chinitEnabled_iff, chinitEnabled_iff]
  simp [State.setChannel_chp_other x h]

theorem swstepEnabled_setChannel_other (h : c ≠ d) : swstepEnabled (s.setChannel d x) c = swstepEnabled s c := by
  rw [Bool.eq_iff_iff, swstepEnabled_iff, swstepEnabled_iff]
  simp [State.setChannel_chp_other x h, State.setChannel_pos_other x h]

theorem hwstep8Enabled_setChannel_other (h : c ≠ d) : hwstep8Enabled (s.setChannel d x) c = hwstep8Enabled s c := by
  rw [Bool.eq_iff_iff, hwstep8Enabled_iff, hwstep8Enabled_iff]
  simp [State.setChannel_chp_other x h, State.setChannel_pos_other x h]

theorem hwstep64Enabled_setChannel_other (h : c ≠ d) :
    hwstep64Enabled (s.setChannel d x) c = hwstep64Enabled s c := by
  rw [Bool.eq_iff_iff, hwstep64Enabled_iff, hwstep64Enabled_iff]
  simp [State.setChannel_chp_other x h, State.setChannel_pos_other x h]

theorem chfinEnabled_setChannel_other (h : c ≠ d) : chfinEnabled (s.setChannel d x) c = chfinEnabled s c := by
  rw [Bool.eq_iff_iff, chfinEnabled_iff, chfinEnabled_iff]
  simp [State.setChannel_chp_other x h, State.setChannel_pos_other x h]

end Elements

/-! ### What a micro-operation writes, as a write of its channel's elements -/

theorem State.start_eq_setChannel (s : State) (c : Channel) (a : Word) (p : Nat) (ph : ChPhase) :
    ((s.setAcc c a).setPos c p).setChp c ph = s.setChannel c { s.channel c with acc := a, pos := p, chp := ph } := by
  simp [State.setAcc, State.setPos, State.setChp, State.setChannel, State.channel]

theorem State.consume_eq_setChannel (s : State) (c : Channel) (a : Word) (p : Nat) :
    (s.setAcc c a).setPos c p = s.setChannel c { s.channel c with acc := a, pos := p } := by
  simp [State.setAcc, State.setPos, State.setChannel, State.channel]

theorem State.latch_eq_setChannel (s : State) (c : Channel) (r : Word) (ph : ChPhase) :
    (s.setRes c r).setChp c ph = s.setChannel c { s.channel c with res := r, chp := ph } := by
  simp [State.setRes, State.setChp, State.setChannel, State.channel]

/-- Channel `c` consumes `n` bytes by `f` the same way whatever channel `d` holds. -/
theorem State.consume_setChannel_other {c d : Channel} (s : State) (y : ChannelData) (h : c ≠ d) (f : Word → Word)
    (n : Nat) :
    ((s.setChannel d y).setAcc c (f ((s.setChannel d y).acc.get c))).setPos c ((s.setChannel d y).pos.get c + n) =
      (s.setChannel d y).setChannel c { s.channel c with acc := f (s.acc.get c), pos := s.pos.get c + n } := by
  rw [State.consume_eq_setChannel, State.channel_setChannel_other y h, State.setChannel_acc_other y h,
    State.setChannel_pos_other y h]

/-- A micro-operation of channel `c` that has a step writes elements of channel `c` only, and has the same step with the
same values whatever another channel holds (20_memory.md R76). -/
theorem exec_eq_setChannel {i : Instr} {c : Channel} (hi : channelOf i = some c) (h : exec i s = .next t) :
    ∃ x, t = s.setChannel c x ∧
      ∀ d y, c ≠ d → exec i (s.setChannel d y) = .next ((s.setChannel d y).setChannel c x) := by
  cases i with
  | chinit c =>
    cases hi
    obtain ⟨en, rfl⟩ := execChinit_next.mp h
    refine ⟨_, s.start_eq_setChannel c _ _ _, fun d y hd => execChinit_next.mpr ⟨?_, ?_⟩⟩
    · rwa [chinitEnabled_setChannel_other y hd]
    · rw [State.start_eq_setChannel, State.channel_setChannel_other y hd]
      rfl
  | swstep c =>
    cases hi
    obtain ⟨en, init, b, hb, rfl⟩ := execSwstep_next.mp h
    refine ⟨_, s.consume_eq_setChannel c _ _, fun d y hd => execSwstep_next.mpr
      ⟨?_, init, b, ?_, (s.consume_setChannel_other y hd (swStep (s.tbl.get c) · b) 1).symm⟩⟩
    · rwa [swstepEnabled_setChannel_other y hd]
    · rwa [State.setChannel_pos_other y hd]
  | hwstep8 c =>
    cases hi
    obtain ⟨arch, en, b, hb, rfl⟩ := execHwstep8_next.mp h
    refine ⟨_, s.consume_eq_setChannel c _ _, fun d y hd => execHwstep8_next.mpr
      ⟨arch, ?_, b, ?_, (s.consume_setChannel_other y hd (hw8 · b) 1).symm⟩⟩
    · rwa [hwstep8Enabled_setChannel_other y hd]
    · rwa [State.setChannel_pos_other y hd]
  | hwstep64 c =>
    cases hi
    obtain ⟨arch, en, w, hw, rfl⟩ := execHwstep64_next.mp h
    refine ⟨_, s.consume_eq_setChannel c _ _, fun d y hd => execHwstep64_next.mpr
      ⟨arch, ?_, w, ?_, (s.consume_setChannel_other y hd (hw64 · w) 8).symm⟩⟩
    · rwa [hwstep64Enabled_setChannel_other y hd]
    · rwa [State.setChannel_pos_other y hd]
  | chfin c =>
    cases hi
    obtain ⟨en, rfl⟩ := execChfin_next.mp h
    refine ⟨_, s.latch_eq_setChannel c _ _, fun d y hd => execChfin_next.mpr ⟨?_, ?_⟩⟩
    · rwa [chfinEnabled_setChannel_other y hd]
    · rw [State.latch_eq_setChannel, State.channel_setChannel_other y hd, State.setChannel_acc_other y hd]
      rfl
  | _ => cases hi

/-- Settles O29: each micro-operation writes its own channel's elements, the same in either order. -/
theorem channelsAreIsolated : Obligations.ChannelsAreIsolated := by
  intro s t u i j c d hi hj hcd ht hu
  obtain ⟨x, rfl, hx⟩ := exec_eq_setChannel hi ht
  obtain ⟨y, rfl, hy⟩ := exec_eq_setChannel hj hu
  refine ⟨(s.setChannel c x).setChannel d y, hy c x hcd.symm, ?_⟩
  rw [State.setChannel_comm x y hcd]
  exact hx d y hcd

end Sys2Proof.Machine

/-! PROOFS: the encoding (30_encoding.md). What a word must carry to spell an instruction, said once for both kinds of
word; what the decoder refuses; the fields of `RSP`. -/

namespace Sys2Proof

/-! ### The code tables, in both directions -/

theorem HostOp.ofCode_eq_some {op : BitVec 8} {h : HostOp} : HostOp.ofCode op = some h ↔ op = h.code :=
  ⟨fun e => (HostOp.code_of_ofCode e).symm, fun e => e ▸ HostOp.ofCode_code h⟩

theorem MicroOp.ofCode_eq_some {op : BitVec 4} {u : MicroOp} : MicroOp.ofCode op = some u ↔ op = u.code :=
  ⟨fun e => (MicroOp.code_of_ofCode e).symm, fun e => e ▸ MicroOp.ofCode_code u⟩

theorem Channel.ofCode_eq_some {ch : BitVec 2} {c : Channel} : Channel.ofCode ch = some c ↔ ch = c.code :=
  ⟨fun e => (Channel.code_of_ofCode e).symm, fun e => e ▸ Channel.ofCode_code c⟩

/-! ### Which words spell an instruction -/

/-- The operands a presentation carries in the fields of format HB: `DATA` fits `LEN`, and within the bound it is the
presentation's (R94, R96). -/
structure Presentation.Carries (p : Presentation) (seed len : Word) (data : List Byte) : Prop where
  seed_eq : cwA p.cw = seed
  len_eq : cwB p.cw = len
  fits : dataFits len data = true
  data_eq : len.toNat ≤ Config.maxInputSize → p.data = data

/-- The word has the code of the instruction's row and the operands in the fields of its format (R92 to R94, R98). -/
def Encoded.Spells : Encoded → Instr → Prop
  | .command p, .init => cwOp p.cw = HostOp.code .init
  | .command p, .crc32c seed len data => cwOp p.cw = HostOp.code .crc32c ∧ p.Carries seed len data
  | .command p, .crc32cSw seed len data => cwOp p.cw = HostOp.code .crc32cSw ∧ p.Carries seed len data
  | .command p, .crc32cHw seed len data => cwOp p.cw = HostOp.code .crc32cHw ∧ p.Carries seed len data
  | .command p, .vote r0 r1 r2 => cwOp p.cw = HostOp.code .vote ∧ cwA p.cw = r0 ∧ cwB p.cw = r1 ∧ cwC p.cw = r2
  | .command p, .detect => cwOp p.cw = HostOp.code .detect
  | .command p, .rdwcHw => cwOp p.cw = HostOp.code .rdwcHw
  | .command p, .rdwcSw => cwOp p.cw = HostOp.code .rdwcSw
  | .micro uw, .tblbit => uwOp uw = MicroOp.code .tblbit
  | .micro uw, .tblent => uwOp uw = MicroOp.code .tblent
  | .micro uw, .chinit c => uwOp uw = MicroOp.code .chinit ∧ uwCh uw = c.code
  | .micro uw, .swstep c => uwOp uw = MicroOp.code .swstep ∧ uwCh uw = c.code
  | .micro uw, .hwstep8 c => uwOp uw = MicroOp.code .hwstep8 ∧ uwCh uw = c.code
  | .micro uw, .hwstep64 c => uwOp uw = MicroOp.code .hwstep64 ∧ uwCh uw = c.code
  | .micro uw, .chfin c => uwOp uw = MicroOp.code .chfin ∧ uwCh uw = c.code
  | _, _ => False

theorem decodeBuffer_eq_ok {mk : Word → Word → List Byte → Instr} {p : Presentation} {i : Instr} :
    decodeBuffer mk p = .ok i ↔ ∃ seed len data, i = mk seed len data ∧ p.Carries seed len data := by
  rw [decodeBuffer_ok]
  constructor
  · rintro (⟨hb, hl, rfl⟩ | ⟨hb, rfl⟩)
    · exact ⟨_, _, _, rfl, rfl, rfl, by simp [dataFits, hb, hl], fun _ => rfl⟩
    · exact ⟨_, _, _, rfl, rfl, rfl, by simp [dataFits, hb], fun h => absurd h (Nat.not_le_of_lt hb)⟩
  · rintro ⟨seed, len, data, rfl, rfl, rfl, fits, hd⟩
    by_cases hb : (cwB p.cw).toNat ≤ Config.maxInputSize
    · obtain rfl := hd hb
      exact .inl ⟨hb, by simpa [dataFits, hb] using fits, rfl⟩
    · obtain rfl : data = [] := by simpa [dataFits, hb] using fits
      exact .inr ⟨Nat.lt_of_not_le hb, rfl⟩

theorem decodeChannel_eq_ok {mk : Channel → Instr} {uw : BitVec 6} {i : Instr} :
    decodeChannel mk uw = .ok i ↔ ∃ c, i = mk c ∧ uwCh uw = c.code := by
  simp only [decodeChannel_ok, Channel.ofCode_eq_some, and_comm]

theorem spells_of_decodeCommand {p : Presentation} {i : Instr} (h : decodeCommand p = .ok i) :
    (Encoded.command p).Spells i := by
  unfold decodeCommand at h
  -- the rows of the map in its order, after the reserved codes
  split at h
  case h_1 => cases h
  all_goals have op := HostOp.ofCode_eq_some.mp ‹_›
  case h_3 | h_4 | h_5 =>
    obtain ⟨seed, len, data, rfl, carries⟩ := decodeBuffer_eq_ok.mp h
    exact ⟨op, carries⟩
  case h_6 =>
    cases h
    exact ⟨op, rfl, rfl, rfl⟩
  all_goals
    cases h
    exact op

theorem spells_of_decodeMicro {uw : BitVec 6} {i : Instr} (h : decodeMicro uw = .ok i) :
    (Encoded.micro uw).Spells i := by
  unfold decodeMicro at h
  -- the rows of the map in its order, after the reserved codes
  split at h
  case h_1 => cases h
  all_goals have op := MicroOp.ofCode_eq_some.mp ‹_›
  case h_2 | h_3 =>
    cases h
    exact op
  all_goals
    obtain ⟨c, rfl, ch⟩ := decodeChannel_eq_ok.mp h
    exact ⟨op, ch⟩

theorem decode_of_spells {e : Encoded} {i : Instr} (h : e.Spells i) : decode e = .ok i := by
  cases e with
  | command p =>
    cases i
    case init | detect | rdwcHw | rdwcSw => rw [decode, decodeCommand, HostOp.ofCode_eq_some.mpr h]
    case crc32c | crc32cSw | crc32cHw =>
      obtain ⟨op, carries⟩ := h
      rw [decode, decodeCommand, HostOp.ofCode_eq_some.mpr op]
      exact decodeBuffer_eq_ok.mpr ⟨_, _, _, rfl, carries⟩
    case vote =>
      obtain ⟨op, rfl, rfl, rfl⟩ := h
      rw [decode, decodeCommand, HostOp.ofCode_eq_some.mpr op]
    all_goals cases h
  | micro uw =>
    cases i
    case tblbit | tblent => rw [decode, decodeMicro, MicroOp.ofCode_eq_some.mpr h]
    case chinit | swstep | hwstep8 | hwstep64 | chfin =>
      obtain ⟨op, ch⟩ := h
      rw [decode, decodeMicro, MicroOp.ofCode_eq_some.mpr op]
      exact decodeChannel_eq_ok.mpr ⟨_, rfl, ch⟩
    all_goals cases h

/-- A word decodes to an instruction exactly when it spells it. -/
theorem decode_eq_ok {e : Encoded} {i : Instr} : decode e = .ok i ↔ e.Spells i := by
  refine ⟨fun h => ?_, decode_of_spells⟩
  cases e with
  | command p => exact spells_of_decodeCommand h
  | micro uw => exact spells_of_decodeMicro h

theorem decodeCommand_eq_ok {p : Presentation} {i : Instr} : decodeCommand p = .ok i ↔ (Encoded.command p).Spells i :=
  decode_eq_ok (e := .command p)

theorem decodeMicro_eq_ok {uw : BitVec 6} {i : Instr} : decodeMicro uw = .ok i ↔ (Encoded.micro uw).Spells i :=
  decode_eq_ok (e := .micro uw)

/-! ### Encoding and decoding -/

/-- The words of a well-formed instruction spell it. -/
theorem encode_spells {i : Instr} (hwf : i.wf = true) : (encode i).Spells i := by
  cases i
  case init | detect | rdwcHw | rdwcSw => exact cwOp_append ..
  case crc32c | crc32cSw | crc32cHw =>
    exact ⟨cwOp_append .., cwA_append .., cwB_append .., hwf, fun _ => rfl⟩
  case vote => exact ⟨cwOp_append .., cwA_append .., cwB_append .., cwC_append ..⟩
  case tblbit | tblent => exact uwOp_append ..
  case chinit | swstep | hwstep8 | hwstep64 | chfin => exact ⟨uwOp_append .., uwCh_append ..⟩

/-- Settles O2: the words of a well-formed instruction have its code and its operands. -/
theorem decodeOfEncodeIsTheInstruction : Obligations.DecodeOfEncodeIsTheInstruction :=
  fun _ hwf => decode_eq_ok.mpr (encode_spells hwf)

/-- `DATA` of a format-HB word that spells an instruction fits `LEN`; no other format has a condition (R94, R96). -/
theorem Encoded.Spells.wf {e : Encoded} {i : Instr} (h : e.Spells i) : i.wf = true := by
  cases i
  case crc32c | crc32cSw | crc32cHw =>
    cases e with
    | command p => exact h.2.fits
    | micro uw => cases h
  all_goals rfl

/-- Settles O3: a word that decodes spells its instruction. -/
theorem decodedInstructionIsWellFormed : Obligations.DecodedInstructionIsWellFormed :=
  fun _ _ h => (decode_eq_ok.mp h).wf

/-- Once one presentation carries the operands, another does exactly when its fields agree: that `DATA` fits `LEN` is a
fact of the operands alone. -/
theorem Presentation.Carries.iff_fields {p q : Presentation} {seed len : Word} {data : List Byte}
    (h : p.Carries seed len data) :
    q.Carries seed len data ↔
      cwA q.cw = seed ∧ cwB q.cw = len ∧ (len.toNat ≤ Config.maxInputSize → q.data = data) :=
  ⟨fun hq => ⟨hq.seed_eq, hq.len_eq, hq.data_eq⟩, fun ⟨ha, hb, hd⟩ => ⟨ha, hb, h.fits, hd⟩⟩

/-- Settles O4: both presentations decode by the same fields, and `DATA` fits `LEN` already in the first. -/
theorem ignoredFieldsAreIgnoredAndNoOthers : Obligations.IgnoredFieldsAreIgnoredAndNoOthers := by
  intro p q i hp
  have spells := decodeCommand_eq_ok.mp hp
  rw [decodeCommand_eq_ok]
  cases i
  case init | detect | rdwcHw | rdwcSw =>
    rw [show cwOp p.cw = _ from spells]
    exact (and_iff_left trivial).symm
  case crc32c | crc32cSw | crc32cHw =>
    obtain ⟨op, carries⟩ := spells
    rw [op]
    exact and_congr_right fun _ => carries.iff_fields
  case vote =>
    rw [spells.1]
    exact Iff.rfl
  all_goals cases spells

/-- Settles O1: sixteen closed words, run through the decoder. -/
theorem wordsOfTheSpecDecode : Obligations.WordsOfTheSpecDecode := by
  unfold Obligations.WordsOfTheSpecDecode
  decide

/-! ### What the decoder refuses -/

theorem HostOp.code_range (h : HostOp) : 0x01#8 ≤ h.code ∧ h.code ≤ 0x08#8 := by cases h <;> decide

theorem Channel.code_ne_three (c : Channel) : c.code ≠ 3#2 := by cases c <;> decide

theorem HostOp.ofCode_reserved {op : BitVec 8} (h : op = 0x00#8 ∨ 0x09#8 ≤ op) : HostOp.ofCode op = none := by
  refine Option.eq_none_iff_forall_ne_some.mpr fun k hk => ?_
  obtain ⟨low, high⟩ := HostOp.ofCode_eq_some.mp hk ▸ k.code_range
  bv_omega

/-- The sixteen values of `UOP`. -/
theorem MicroOp.ofCode_eq_none : ∀ {uop : BitVec 4}, MicroOp.ofCode uop = none ↔ uop = 0x0#4 ∨ 0x8#4 ≤ uop := by decide

/-- `OP = 0x00` and `0x09` to `0xFF` are reserved (R96). -/
theorem decodeCommand_reserved {p : Presentation} (h : cwOp p.cw = 0x00#8 ∨ 0x09#8 ≤ cwOp p.cw) :
    decodeCommand p = .error (.reservedOpcode (cwOp p.cw)) := by
  rw [decodeCommand, HostOp.ofCode_reserved h]

/-- A format-HB command whose `DATA` does not have `LEN` bytes is malformed (R96). -/
theorem decodeBuffer_malformed {mk : Word → Word → List Byte → Instr} {p : Presentation}
    (within : (cwB p.cw).toNat ≤ Config.maxInputSize) (hl : p.data.length ≠ (cwB p.cw).toNat) :
    decodeBuffer mk p = .error (.malformedData (cwB p.cw) p.data.length) := by
  simp only [decodeBuffer, if_pos within, if_neg hl]

theorem decodeCommand_malformed {p : Presentation} (op : cwOp p.cw = 0x02#8 ∨ cwOp p.cw = 0x03#8 ∨ cwOp p.cw = 0x04#8)
    (within : (cwB p.cw).toNat ≤ Config.maxInputSize) (hl : p.data.length ≠ (cwB p.cw).toNat) :
    decodeCommand p = .error (.malformedData (cwB p.cw) p.data.length) := by
  unfold decodeCommand
  obtain op | op | op := op
  · rw [op, show HostOp.ofCode 0x02#8 = some .crc32c from rfl]
    exact decodeBuffer_malformed within hl
  · rw [op, show HostOp.ofCode 0x03#8 = some .crc32cSw from rfl]
    exact decodeBuffer_malformed within hl
  · rw [op, show HostOp.ofCode 0x04#8 = some .crc32cHw from rfl]
    exact decodeBuffer_malformed within hl

theorem decodeMicro_reserved {uw : BitVec 6} (h : uwOp uw = 0x0#4 ∨ 0x8#4 ≤ uwOp uw) :
    decodeMicro uw = .error (.reservedMicroOp (uwOp uw)) := by
  rw [decodeMicro, MicroOp.ofCode_eq_none.mpr h]

theorem decodeChannel_reserved (mk : Channel → Instr) {uw : BitVec 6} (h : uwCh uw = 3#2) :
    decodeChannel mk uw = .error .reservedChannel := by
  have absent : Channel.ofCode (uwCh uw) = none :=
    Option.eq_none_iff_forall_ne_some.mpr fun c hc => c.code_ne_three ((Channel.ofCode_eq_some.mp hc).symm.trans h)
  rw [decodeChannel, absent]

/-- The reserved code of `CH` is refused for every operation on a channel, `UOP` 0x3 to 0x7 (R98). -/
theorem decodeMicro_reservedChannel {uw : BitVec 6} (low : 0x3#4 ≤ uwOp uw) (high : uwOp uw ≤ 0x7#4)
    (h : uwCh uw = 3#2) : decodeMicro uw = .error .reservedChannel := by
  unfold decodeMicro
  split
  case h_1 absent =>
    have reserved := MicroOp.ofCode_eq_none.mp absent
    bv_omega
  case h_2 op | h_3 op =>
    rw [MicroOp.ofCode_eq_some.mp op] at low
    exact absurd low (by decide)
  all_goals exact decodeChannel_reserved _ h

/-- Settles O6: each code stands in the map or is reserved. -/
theorem microOperationWordsDecodeByTheMap : Obligations.MicroOperationWordsDecodeByTheMap := fun _ =>
  ⟨decodeMicro_reserved, decodeMicro_reservedChannel, fun op => decodeMicro_eq_ok.mpr op,
    fun op => decodeMicro_eq_ok.mpr op, fun _ ch =>
    ⟨fun op => decodeMicro_eq_ok.mpr ⟨op, ch⟩, fun op => decodeMicro_eq_ok.mpr ⟨op, ch⟩,
      fun op => decodeMicro_eq_ok.mpr ⟨op, ch⟩, fun op => decodeMicro_eq_ok.mpr ⟨op, ch⟩,
      fun op => decodeMicro_eq_ok.mpr ⟨op, ch⟩⟩⟩

end Sys2Proof

namespace Sys2Proof.Machine

/-! ### The fields of `RSP` -/

section ResponseFields

variable (n : Nat) (r : Response)

theorem Response.word_extract_rk : (r.word n).extractLsb' 0 2 = r.rk := by
  rw [Response.word, BitVec.extractLsb'_append_eq_of_add_le (by omega), BitVec.extractLsb'_eq_self]

theorem Response.word_extract_cause : (r.word n).extractLsb' 2 3 = r.causeField := by
  rw [Response.word, BitVec.extractLsb'_append_eq_of_le (by omega), BitVec.extractLsb'_append_eq_of_add_le (by omega),
    BitVec.extractLsb'_eq_self]

theorem Response.word_extract_zero : (r.word n).extractLsb' 5 3 = 0#3 := by
  rw [Response.word, BitVec.extractLsb'_append_eq_of_le (by omega), BitVec.extractLsb'_append_eq_of_le (by omega),
    BitVec.extractLsb'_append_eq_of_add_le (by omega), BitVec.extractLsb'_eq_self]

theorem Response.word_extract_value : (r.word n).extractLsb' 8 32 = r.valueField n := by
  rw [Response.word, BitVec.extractLsb'_append_eq_of_le (by omega), BitVec.extractLsb'_append_eq_of_le (by omega),
    BitVec.extractLsb'_append_eq_left]

/-- The low byte of `RSP` is the three fields under `VALUE`. -/
theorem Response.word_extract_low : (r.word n).extractLsb' 0 8 = 0#3 ++ r.causeField ++ r.rk := by
  apply BitVec.eq_of_getLsbD_eq
  intro i hi
  simp only [Response.word, BitVec.getLsbD_extractLsb', hi, decide_true, Bool.true_and, BitVec.getLsbD_append,
    Nat.zero_add, show i - 2 - 3 < 3 by omega, if_true]

end ResponseFields

/-- Settles O46: each field stands in its place of the word, and its values are those of R95 and R240. -/
theorem responseBits : Obligations.ResponseBits := fun n v =>
  ⟨(Response.word_extract_low n .done).trans (show 0#3 ++ 0#3 ++ 0#2 = 0x00#8 by decide),
    (Response.word_extract_low n (.value v)).trans (show 0#3 ++ 0#3 ++ 1#2 = 0x01#8 by decide),
    Response.word_extract_value n (.value v),
    fun cause => ⟨Response.word_extract_rk n (.fatal cause), Response.word_extract_zero n (.fatal cause)⟩,
    Response.word_extract_cause n (.fatal .tableMismatch), Response.word_extract_cause n (.fatal .inputTooLarge),
    Response.word_extract_cause n (.fatal .noMajority)⟩

end Sys2Proof.Machine

/-! PROOFS: the admission of host commands (30_encoding.md R102): which condition refuses, and that
nothing else does. -/

namespace Sys2Proof.Machine

open Host (Outcome)

variable {s : State}

/-! ### What the shared conditions answer -/

section Admission

variable {k : Outcome State Fault Refusal}

theorem admitAny_of_halted (halt : s.status.halt = true) : admitAny s k = .refused .halted := by
  rw [admitAny, if_pos halt]

theorem admitAny_of_busy (halt : s.status.halt = false) (busy : s.status.busy = true) :
    admitAny s k = .refused .busy := by
  simp [admitAny, halt, busy]

theorem admitAny_of_free (halt : s.status.halt = false) (busy : s.status.busy = false) : admitAny s k = k := by
  simp [admitAny, halt, busy]

theorem admitChecksum_of_notInitialised (halt : s.status.halt = false) (busy : s.status.busy = false)
    (init : s.status.initDone = false) : admitChecksum s k = .refused .notInitialised := by
  simp [admitChecksum, admitAny_of_free halt busy, init]

theorem admitChecksum_of_initialised (halt : s.status.halt = false) (busy : s.status.busy = false)
    (init : s.status.initDone = true) : admitChecksum s k = k := by
  simp [admitChecksum, admitAny_of_free halt busy, init]

theorem admitAny_ne_fault {f : Fault} (hk : k ≠ .fault f) : admitAny s k ≠ .fault f := by
  unfold admitAny
  split
  · exact nofun
  · split
    · exact nofun
    · exact hk

theorem admitChecksum_ne_fault {f : Fault} (hk : k ≠ .fault f) : admitChecksum s k ≠ .fault f := by
  refine admitAny_ne_fault ?_
  split
  · exact hk
  · exact nofun

end Admission

theorem startChecksum_ne_fault {eng : Engine} {seed len : Word} {data : List Byte} {f : Fault} :
    startChecksum eng seed len data s ≠ .fault f := by
  unfold startChecksum
  split
  · exact nofun
  · split <;> exact nofun

/-- A checksum command that is admitted and well formed has a step, fatal above the bound (R94). -/
theorem startChecksum_of_fits {len : Word} {data : List Byte} (fits : dataFits len data = true) (eng : Engine)
    (seed : Word) (s : State) : ∃ t, startChecksum eng seed len data s = .next t := by
  by_cases hb : len.toNat ≤ Config.maxInputSize
  · exact ⟨_, startChecksum_next.mpr (.inr ⟨hb, by simpa [dataFits, hb] using fits, rfl⟩)⟩
  · exact ⟨_, startChecksum_next.mpr (.inl ⟨Nat.lt_of_not_le hb, rfl⟩)⟩

/-! ### The host commands -/

/-- Every host command asks first that the block is neither halted nor busy. -/
theorem exec_host_eq_admitAny {i : Instr} (hi : isHostCommand i = true) (s : State) :
    ∃ k, exec i s = admitAny s k := by
  cases i
  case init | crc32c | crc32cSw | crc32cHw | vote | detect | rdwcHw | rdwcSw => exact ⟨_, rfl⟩
  all_goals cases hi

/-- No host command faults. -/
theorem exec_host_ne_fault {i : Instr} (hi : isHostCommand i = true) (s : State) (f : Fault) :
    exec i s ≠ .fault f := by
  cases i
  case init =>
    refine admitAny_ne_fault ?_
    split <;> exact nofun
  case crc32c | crc32cSw => exact admitChecksum_ne_fault startChecksum_ne_fault
  case crc32cHw =>
    refine admitChecksum_ne_fault ?_
    split
    · exact nofun
    · split
      · exact startChecksum_ne_fault
      · exact nofun
  case vote | detect | rdwcHw | rdwcSw => exact admitAny_ne_fault nofun
  all_goals cases hi

/-- A well-formed host command has a step exactly in its row of R102. -/
theorem exec_host_next_iff_admitted {i : Instr} (hwf : i.wf = true) (hi : isHostCommand i = true) (s : State) :
    (∃ t, exec i s = .next t) ↔ Admitted s i := by
  cases i
  case init => simp [exec, execInit_next, Admitted]
  case crc32c seed len data =>
    obtain ⟨u, hu⟩ := startChecksum_of_fits hwf (selectEngine s.cfg) seed s
    simp [exec, execCrc32c_next, hu, Admitted]
  case crc32cSw seed len data =>
    obtain ⟨u, hu⟩ := startChecksum_of_fits hwf .sw seed s
    simp [exec, execCrc32cSw_next, hu, Admitted]
  case crc32cHw seed len data =>
    obtain ⟨u, hu⟩ := startChecksum_of_fits hwf .hw seed s
    simp [exec, execCrc32cHw_next, hu, Admitted]
  case vote => simp [exec, execVote_next, Admitted]
  case detect => simp [exec, execDetect_next, Admitted]
  case rdwcHw => simp [exec, execRdwcHw_next, Admitted]
  case rdwcSw => simp [exec, execRdwcSw_next, Admitted]
  all_goals cases hi

/-- What does not fault is refused exactly when it has no step. -/
theorem refused_iff_not_next {o : Outcome State Fault Refusal} (hf : ∀ f, o ≠ .fault f) :
    (∃ r, o = .refused r) ↔ ¬ ∃ t, o = .next t := by
  cases o with
  | next t => simp
  | fault f => exact absurd rfl (hf f)
  | refused r => simp

/-- Settles O11: a step by the row of each command, a refusal otherwise because no host command faults. -/
theorem admittedExactlyWhenTheSpecSays : Obligations.AdmittedExactlyWhenTheSpecSays := by
  intro s i hwf hi
  have next := exec_host_next_iff_admitted hwf hi s
  exact ⟨next, (refused_iff_not_next (exec_host_ne_fault hi s)).trans (not_congr next)⟩

/-- Settles O13: `HALT` and `BUSY` by the condition every host command asks first, the others command by command. -/
theorem refusedByTheConditionThatFails : Obligations.RefusedByTheConditionThatFails := by
  intro s i seed len data hi
  obtain ⟨k, hk⟩ := exec_host_eq_admitAny hi s
  rw [hk]
  refine ⟨admitAny_of_halted, admitAny_of_busy, fun halt busy => ⟨fun init => ?_, fun init => ?_, fun init arch => ?_,
    fun init arch cap => ?_⟩⟩
  · exact (admitAny_of_free halt busy).trans (if_pos init)
  · exact ⟨admitChecksum_of_notInitialised halt busy init, admitChecksum_of_notInitialised halt busy init,
      admitChecksum_of_notInitialised halt busy init⟩
  · exact (admitChecksum_of_initialised halt busy init).trans (if_pos arch)
  · exact (admitChecksum_of_initialised halt busy init).trans (by rw [if_neg arch, cap]; rfl)

end Sys2Proof.Machine

/-! PROOFS: what a step runs (30_encoding.md R91, R96, R98; 41_dispatcher.md R149): the event that is due, or the
block's own next step, and the instruction that each of them decodes to. -/

namespace Sys2Proof.Machine

open Host (Outcome)

variable {s t : State} {rest : List Event}

/-! ### From a step to what is due -/

theorem step_of_event {e : Event} (hs : s.sequenceExists = true) (he : s.events = e :: rest) :
    step s = occur e (s.setEvents rest) := by
  rw [step_of_exists hs, takeNext, he]

theorem step_of_proceeds (hs : s.sequenceExists = true) (hp : s.Proceeds rest) :
    step s = advance (s.setEvents rest) := by
  obtain he | ⟨he, rfl⟩ := hp
  · exact step_of_event hs he
  · have same : s.setEvents [] = s := he ▸ rfl
    rw [step_of_exists hs, takeNext, he, same]

theorem advance_of_idle {a : Arrival} {q : List Arrival} (idle : s.top = .idle) (hq : s.hostQueue = a :: q) :
    advance s = present a (s.setQueue q) := by
  simp only [advance, idle, hq]

theorem advance_of_build (gen : s.top = .gen) (build : s.gph = .build) : advance s = runMicro .tblent s := by
  simp only [advance, gen, generate, build]

theorem advance_of_nextMicro {i : Instr} (run : s.top = .run) (h : nextMicro s = some i) :
    advance s = runMicro i s := by
  simp only [advance, run, runChannels, h]

theorem present_of_decode {a : Arrival} {i : Instr} (h : decodeCommand a.cmd = .ok i) :
    present a s = exec i (s.applyDraw a.draw) := by
  rw [present, h]

theorem present_of_error {a : Arrival} {e : DecodeError} (h : decodeCommand a.cmd = .error e) :
    present a s = .refused (.invalid e) := by
  rw [present, h]

theorem issue_of_decode {uw : BitVec 6} {i : Instr} (h : decodeMicro uw = .ok i) : issue uw s = runMicro i s := by
  rw [issue, h]

theorem issue_of_error {uw : BitVec 6} {e : DecodeError} (h : decodeMicro uw = .error e) :
    issue uw s = .refused (.invalid e) := by
  rw [issue, h]

/-- The idle block that nothing else reaches presents the host's next command (70_reset_and_hazards.md R288). -/
theorem step_of_queue {a : Arrival} {q : List Arrival} (hs : s.sequenceExists = true) (hp : s.Proceeds rest)
    (idle : s.top = .idle) (hq : s.hostQueue = a :: q) : step s = present a ((s.setEvents rest).setQueue q) :=
  (step_of_proceeds hs hp).trans (advance_of_idle (s := s.setEvents rest) idle hq)

/-! ### From the sequencer to `exec` -/

/-- Outside the building loop the sequencer adds nothing to a micro-operation. -/
theorem runMicro_of_not_building {i : Instr} (top : s.top ≠ .halted) (h : ¬ (i = .tblent ∧ s.building = true)) :
    runMicro i s = exec i s := by
  by_cases hi : i = .tblent
  · subst hi
    rw [runMicro, if_neg top, beforeMicro, if_neg h]
    exact congrArg Outcome.next (if_neg h)
  · exact runMicro_of_ne hi top

/-- In the building loop `TBLENT` is given `GI` and followed by the table write (R149, row `GEN`). -/
theorem runMicro_of_building (gen : s.top = .gen) (build : s.gph = .build) (h : exec .tblent s.supplyIndex = .next t) :
    runMicro .tblent s = .next t.storeEntry := by
  have building : s.building = true := building_iff.mpr ⟨gen, build⟩
  have before : beforeMicro .tblent s = s.supplyIndex := if_pos ⟨rfl, building⟩
  refine runMicro_next.mpr ⟨by simp [gen], t, before ▸ h, ?_⟩
  cases h
  exact (if_pos ⟨rfl, building⟩).symm

/-- The sequencer's own choice is a micro-operation of a channel, to which it adds nothing. -/
theorem runMicro_of_nextMicro {i : Instr} (run : s.top = .run) (h : nextMicro s = some i) :
    runMicro i s = exec i s := by
  obtain ⟨c, hc⟩ := nextMicro_some h
  refine runMicro_of_ne ?_ (by simp [run])
  rintro rfl
  cases (enabledMicro_channel hc).1

/-- Settles O7: the step is what is due, and that decodes to the instruction. -/
theorem stepRunsTheDecodedInstruction : Obligations.StepRunsTheDecodedInstruction := by
  refine fun s i rest hs => ⟨fun a he hi => ?_, fun a q hp idle hq hi => ?_, fun uw he hi top hb => ?_,
    fun hp run hn => ?_, fun due gen build t ht => ?_⟩
  · exact (step_of_event hs he).trans (present_of_decode hi)
  · exact (step_of_queue hs hp idle hq).trans (present_of_decode hi)
  · refine (step_of_event hs he).trans ((issue_of_decode hi).trans (runMicro_of_not_building top ?_))
    rwa [building_iff]
  · have run' : (s.setEvents rest).top = .run := run
    exact (step_of_proceeds hs hp).trans ((advance_of_nextMicro run' hn).trans (runMicro_of_nextMicro run' hn))
  · have hrun : runMicro .tblent (s.setEvents rest) = .next t.storeEntry := runMicro_of_building gen build ht
    obtain ⟨uw, he, hi⟩ | hp := due
    · exact (step_of_event hs he).trans ((issue_of_decode hi).trans hrun)
    · exact (step_of_proceeds hs hp).trans ((advance_of_build (s := s.setEvents rest) gen build).trans hrun)

/-- Settles O5: the decoder's own refusals, and that the step names them in each way a word can arrive. -/
theorem reservedAndMalformedCommandsAreRefused : Obligations.ReservedAndMalformedCommandsAreRefused := by
  refine ⟨fun p => ⟨decodeCommand_reserved, decodeCommand_malformed⟩, fun s a e rest hd hs => ⟨fun he => ?_,
    fun q hp idle hq => ?_⟩, fun s uw e rest hd hs he => ?_⟩
  · exact (step_of_event hs he).trans (present_of_error hd)
  · exact (step_of_queue hs hp idle hq).trans (present_of_error hd)
  · exact (step_of_event hs he).trans (issue_of_error hd)

end Sys2Proof.Machine

/-! PROOFS: a word placed by `withFetchWord` (log entry 11): the state it is placed in has the instruction's engine and
enables it, and the pending sequence stays well-formed. -/

namespace Sys2Proof.Machine

open Host (Outcome)

variable {s : State}

/-! ### The state in which a word is placed -/

theorem toOption_eq_some {ε α : Type} {x : Except ε α} {a : α} : x.toOption = some a ↔ x = .ok a := by
  cases x <;> simp [Except.toOption]

theorem decodeTableWord_eq_some {nbits w : Nat} {i : Instr} :
    decodeTableWord nbits w = some i ↔ ∃ e, tableWord nbits w = some e ∧ decode e = .ok i := by
  unfold decodeTableWord
  cases tableWord nbits w <;> simp [toOption_eq_some]

theorem decodeTableWord_command {w : Nat} {i : Instr} (h : decodeTableWord 104 w = some i) :
    ∃ p, tableWord 104 w = some (.command p) ∧ decodeCommand p = .ok i := by
  obtain ⟨e, he, hd⟩ := decodeTableWord_eq_some.mp h
  cases e with
  | command p => exact ⟨p, he, hd⟩
  | micro uw => simp [tableWord] at he

theorem decodeTableWord_micro {w : Nat} {i : Instr} (h : decodeTableWord 8 w = some i) :
    ∃ uw, tableWord 8 w = some (.micro uw) ∧ decodeMicro uw = .ok i := by
  obtain ⟨e, he, hd⟩ := decodeTableWord_eq_some.mp h
  cases e with
  | command p => simp [tableWord] at he
  | micro uw => exact ⟨uw, he, hd⟩

/-- What is pending stays, and so does the configuration unless it gets the Hardware Engine. -/
theorem selecting_frame (s : State) (i : Instr) :
    (s.selecting i).events = s.events ∧ (s.selecting i).hostQueue = s.hostQueue ∧
      ((s.selecting i).cfg = s.cfg ∨ (s.selecting i).cfg.target.arch ≠ .none) := by
  cases i
  case init | crc32c | crc32cSw | vote | detect | rdwcHw | rdwcSw => exact ⟨rfl, rfl, .inl rfl⟩
  case tblbit | tblent =>
    rw [State.selecting, State.unhalted]
    split <;> exact ⟨rfl, rfl, .inl rfl⟩
  case chinit | swstep | chfin =>
    rw [State.selecting]
    split <;> exact ⟨rfl, rfl, .inl rfl⟩
  case crc32cHw | hwstep8 | hwstep64 =>
    rw [State.selecting]
    split
    · exact ⟨rfl, rfl, .inl rfl⟩
    · exact ⟨rfl, rfl, .inr nofun⟩

theorem selecting_host {i : Instr} (hi : isHostCommand i = true) (hw : ∀ seed len data, i ≠ .crc32cHw seed len data) :
    s.selecting i = s := by
  cases i
  case init | crc32c | crc32cSw | vote | detect | rdwcHw | rdwcSw => rfl
  case crc32cHw => exact absurd rfl (hw _ _ _)
  all_goals cases hi

/-! Each micro-operation on a channel is enabled where its word is placed, and what it reads is there. -/

theorem selecting_chinit (s : State) (c : Channel) : chinitEnabled (s.selecting (.chinit c)) c = true := by
  rw [State.selecting]
  split
  · assumption
  · simp [chinitEnabled, State.inCall]

theorem selecting_swstep (s : State) (c : Channel) :
    swstepEnabled (s.selecting (.swstep c)) c = true ∧ (s.selecting (.swstep c)).status.initDone = true ∧
      (s.selecting (.swstep c)).buf.length = (s.selecting (.swstep c)).len := by
  rw [State.selecting]
  split
  · rename_i h
    simpa [and_assoc] using h
  · simp [swstepEnabled, State.inCall, State.withBytesLeft]

theorem selecting_hwstep8 (s : State) (c : Channel) :
    hwstep8Enabled (s.selecting (.hwstep8 c)) c = true ∧
      (s.selecting (.hwstep8 c)).buf.length = (s.selecting (.hwstep8 c)).len ∧
      (s.selecting (.hwstep8 c)).cfg.target.arch ≠ .none := by
  rw [State.selecting]
  split
  · rename_i h
    simpa [and_assoc] using h
  · simp [hwstep8Enabled, State.inCall, State.withBytesLeft, State.withEngine, Config.wordBytes, Target.arch]

theorem selecting_hwstep64 (s : State) (c : Channel) :
    hwstep64Enabled (s.selecting (.hwstep64 c)) c = true ∧
      (s.selecting (.hwstep64 c)).buf.length = (s.selecting (.hwstep64 c)).len ∧
      (s.selecting (.hwstep64 c)).cfg.target.arch ≠ .none := by
  rw [State.selecting]
  split
  · rename_i h
    simpa [and_assoc] using h
  · simp [hwstep64Enabled, State.inCall, State.withBytesLeft, State.withEngine, Config.wordBytes, Target.arch]

theorem selecting_chfin (s : State) (c : Channel) : chfinEnabled (s.selecting (.chfin c)) c = true := by
  rw [State.selecting]
  split
  · assumption
  · simp [chfinEnabled, State.inCall, State.withBytesLeft]

theorem selecting_crc32cHw (s : State) (seed len : Word) (data : List Byte) :
    (s.selecting (.crc32cHw seed len data)).cfg.target.arch ≠ .none := by
  rw [State.selecting]
  split
  · rename_i h
    simp only [Bool.and_eq_true, bne_iff_ne] at h
    exact h.2
  · exact nofun

theorem unhalted_top (s : State) : s.unhalted.top ≠ .halted := by
  unfold State.unhalted
  split
  · exact nofun
  · assumption

/-! ### The static check of R184 -/

theorem existsIn_of_engine {g : Target} (h : g.arch ≠ .none) (i : Instr) : i.existsIn g = true := by
  cases i <;> simp [Instr.existsIn, h]

theorem existsIn_selecting (s : State) (i : Instr) : i.existsIn (s.selecting i).cfg.target = true := by
  cases i
  case crc32cHw seed len data => exact existsIn_of_engine (selecting_crc32cHw s seed len data) _
  case hwstep8 c => exact existsIn_of_engine (selecting_hwstep8 s c).2.2 _
  case hwstep64 c => exact existsIn_of_engine (selecting_hwstep64 s c).2.2 _
  all_goals rfl

theorem sequenceExists_iff : s.sequenceExists = true ↔ ∀ i ∈ s.sequence, i.existsIn s.cfg.target = true :=
  List.all_eq_true

theorem selecting_sequenceExists (hs : s.sequenceExists = true) (i : Instr) :
    (s.selecting i).sequenceExists = true := by
  obtain ⟨he, hq, hc | hc⟩ := selecting_frame s i
  · simpa only [State.sequenceExists, State.sequence, he, hq, hc] using hs
  · exact sequenceExists_iff.mpr fun j _ => existsIn_of_engine hc j

/-- One more event is pending: the sequence has its instruction besides. -/
theorem sequenceExists_cons {e : Event} {i : Instr} (hs : s.sequenceExists = true) (he : e.instr? = some i)
    (hi : i.existsIn s.cfg.target = true) : (s.setEvents (e :: s.events)).sequenceExists = true := by
  rw [sequenceExists_iff] at hs ⊢
  have seq : (s.setEvents (e :: s.events)).sequence = i :: s.sequence := by
    simp [State.sequence, he]
  rw [seq]
  exact List.forall_mem_cons.mpr ⟨hi, hs⟩

/-! ### The step that takes the placed word -/

/-- A step with an event that carries `i` put before what is pending, in the state in which the word of `i` is
placed. -/
theorem step_of_placed {e : Event} {i : Instr} (hs : s.sequenceExists = true) (he : e.instr? = some i) :
    step ((s.selecting i).setEvents (e :: (s.selecting i).events)) = occur e (s.selecting i) :=
  step_of_event (sequenceExists_cons (selecting_sequenceExists hs i) he (existsIn_selecting s i)) rfl

/-- A 104-bit word that decodes is a command, and it is due after it is placed. -/
theorem step_of_placed_command {w : Nat} {i : Instr} (hs : s.sequenceExists = true)
    (h : decodeTableWord 104 w = some i) :
    isHostCommand i = true ∧ step (s.withFetchWord 104 w) = exec i (s.selecting i) := by
  obtain ⟨p, hp, hd⟩ := decodeTableWord_command h
  refine ⟨decodeCommand_isHost hd, ?_⟩
  have placed : s.withFetchWord 104 w =
      (s.selecting i).setEvents (.command ⟨p, (s.selecting i).currentDraw⟩ :: (s.selecting i).events) := by
    simp only [State.withFetchWord, hp, State.placeWord, decode, hd]
  rw [placed]
  exact (step_of_placed (e := .command ⟨p, _⟩) hs (toOption_eq_some.mpr hd)).trans (present_of_decode hd)

/-- An 8-bit word that decodes is a micro-operation word, and it is due after it is placed. -/
theorem step_of_placed_micro {w : Nat} {i : Instr} (hs : s.sequenceExists = true) (h : decodeTableWord 8 w = some i) :
    isHostCommand i = false ∧ step (s.withFetchWord 8 w) = runMicro i (s.selecting i) := by
  obtain ⟨uw, hu, hd⟩ := decodeTableWord_micro h
  refine ⟨decodeMicro_isMicro hd, ?_⟩
  have placed : s.withFetchWord 8 w = (s.selecting i).setEvents (.uop uw :: (s.selecting i).events) := by
    simp only [State.withFetchWord, hu, State.placeWord, decode, hd]
  rw [placed]
  exact (step_of_placed (e := .uop uw) hs (toOption_eq_some.mpr hd)).trans (issue_of_decode hd)

/-- A micro-operation on a channel has a step in the state in which its word is placed. -/
theorem exec_selecting_channel {i : Instr} {c : Channel} (hc : channelOf i = some c) (s : State) :
    (s.selecting i).top = .run ∧ ∃ t, exec i (s.selecting i) = .next t := by
  cases i
  case chinit c =>
    have enabled := selecting_chinit s c
    exact ⟨(chinitEnabled_iff.mp enabled).1, _, execChinit_next.mpr ⟨enabled, rfl⟩⟩
  case swstep c =>
    obtain ⟨enabled, init, whole⟩ := selecting_swstep s c
    obtain ⟨run, -, -, within⟩ := swstepEnabled_iff.mp enabled
    exact ⟨run, _, execSwstep_next.mpr ⟨enabled, init, _, List.getElem?_eq_getElem (whole ▸ within), rfl⟩⟩
  case hwstep8 c =>
    obtain ⟨enabled, whole, arch⟩ := selecting_hwstep8 s c
    obtain ⟨run, -, -, within, -⟩ := hwstep8Enabled_iff.mp enabled
    exact ⟨run, _, execHwstep8_next.mpr ⟨arch, enabled, _, List.getElem?_eq_getElem (whole ▸ within), rfl⟩⟩
  case hwstep64 c =>
    obtain ⟨enabled, whole, arch⟩ := selecting_hwstep64 s c
    obtain ⟨run, -, -, within⟩ := hwstep64Enabled_iff.mp enabled
    obtain ⟨w, hw⟩ := word64_isSome (whole ▸ within)
    exact ⟨run, _, execHwstep64_next.mpr ⟨arch, enabled, w, hw, rfl⟩⟩
  case chfin c =>
    have enabled := selecting_chfin s c
    exact ⟨(chfinEnabled_iff.mp enabled).1, _, execChfin_next.mpr ⟨enabled, rfl⟩⟩
  all_goals cases hc

/-- A micro-operation runs to completion in the state in which its word is placed. -/
theorem exec_selecting_micro {i : Instr} (hi : isHostCommand i = false) (s : State) :
    (s.selecting i).top ≠ .halted ∧ ∃ t, exec i (beforeMicro i (s.selecting i)) = .next t := by
  cases hc : channelOf i with
  | some c =>
    obtain ⟨run, next⟩ := exec_selecting_channel hc s
    have hne : i ≠ .tblent := by
      rintro rfl
      cases hc
    exact ⟨by simp [run], (beforeMicro_of_ne hne _).symm ▸ next⟩
  | none =>
    cases i
    case tblbit | tblent => exact ⟨unhalted_top s, _, rfl⟩
    case init | crc32c | crc32cSw | crc32cHw | vote | detect | rdwcHw | rdwcSw => cases hi
    all_goals cases hc

/-- Settles O8: the placed word is due, it decodes to the instruction, and the state it is placed in enables it. -/
theorem placedWordIsRunNext : Obligations.PlacedWordIsRunNext := by
  refine fun s w i hs => ⟨fun h => ?_, fun h => ?_⟩
  · obtain ⟨host, hstep⟩ := step_of_placed_command hs h
    exact ⟨hstep, selecting_host host⟩
  · obtain ⟨micro, hstep⟩ := step_of_placed_micro hs h
    obtain ⟨top, t, ht⟩ := exec_selecting_micro micro s
    exact ⟨t, ht, hstep.trans (runMicro_next.mpr ⟨top, t, ht, rfl⟩)⟩

end Sys2Proof.Machine

/-! PROOFS: the CRC Table Generator (40_table_generator.md). The laws of the table (R125), one step of either loop of `INIT`
(R122), and the whole of `INIT`: each loop is run by an invariant indexed by the place it has reached, 0 to 768. -/

namespace Sys2Proof.Machine

variable {s t u : State}

/-! ### The two pure micro-operations -/

theorem exec_tblbit (s : State) : exec .tblbit s = .next (s.setGx (bitStep s.gx)) := rfl

theorem exec_tblent (s : State) : exec .tblent s = .next (s.setGx (tblEntry (s.gx.setWidth 8))) := rfl

/-- Eight bit iterations, written out (R121). -/
theorem tblEntry_eq_bitStep (i : Byte) :
    tblEntry i = bitStep (bitStep (bitStep (bitStep (bitStep (bitStep (bitStep (bitStep (i.setWidth 32)))))))) := rfl

/-- Settles O15: both replace `gx` alone, by one bit iteration and by eight. -/
theorem pureMicroOperations : Obligations.PureMicroOperations := fun s =>
  ⟨exec_tblbit s, by rw [exec_tblent, tblEntry_eq_bitStep]; rfl⟩

/-! ### The laws of the table -/

/-- R125 (a). -/
theorem tblEntry_xor (a b : Byte) : tblEntry (a ^^^ b) = tblEntry a ^^^ tblEntry b := by
  rw [tblEntry, BitVec.setWidth_xor, bitSteps_xor]
  rfl

/-- A word is its low byte and what stands above it. -/
theorem word_eq_low_xor_high (x : Word) : x = (x.setWidth 8).setWidth 32 ^^^ (x >>> 8) <<< 8 := by
  apply BitVec.eq_of_getLsbD_eq
  intro k hk
  by_cases low : k < 8
  · simp [low, hk]
  · simp [low, hk, Nat.add_sub_cancel' (Nat.le_of_not_lt low)]

/-- Eight bit iterations shift what stands above the low byte and take the low byte's entry, whatever the word: the
table-driven step. -/
theorem bitSteps_eight (x : Word) : bitSteps 8 x = (x >>> 8) ^^^ tblEntry (x.setWidth 8) := by
  have high : bitSteps 8 ((x >>> 8) <<< 8) = x >>> 8 := by
    rw [bitSteps_of_low_zeros 8 _ (fun k hk => by simp [hk])]
    apply BitVec.eq_of_getLsbD_eq
    intro k hk
    by_cases low : 8 + k < 32
    · simp [low]
    · simp [low, BitVec.getLsbD_of_ge x (8 + k) (by omega)]
  calc bitSteps 8 x
      = bitSteps 8 ((x.setWidth 8).setWidth 32 ^^^ (x >>> 8) <<< 8) := by rw [← word_eq_low_xor_high]
    _ = tblEntry (x.setWidth 8) ^^^ bitSteps 8 ((x >>> 8) <<< 8) := bitSteps_xor 8 _ _
    _ = (x >>> 8) ^^^ tblEntry (x.setWidth 8) := by rw [high, BitVec.xor_comm]

/-- A byte has nothing above its low 8 bits. -/
theorem xor_byte_shiftRight (x : Word) (b : Byte) : (x ^^^ b.setWidth 32) >>> 8 = x >>> 8 := by
  apply BitVec.eq_of_getLsbD_eq
  intro k hk
  simp

/-- Settles O16: linearity is that of the bit iteration, and (b) is the split of a word into its low byte and the rest. -/
theorem lawsOfTheTable : Obligations.LawsOfTheTable := by
  refine ⟨tblEntry_xor, by decide, by decide, by decide, by decide, by decide, by decide, by decide, by decide,
    fun x b => ?_⟩
  rw [bitSteps_eight, xor_byte_shiftRight, ← swIndex_eq]
  rfl

/-! ### One step of the generator -/

/-- The building loop goes on to the next entry. -/
theorem storeEntry_of_some {c : Channel} {i : Byte} (h : nextIndex s.gc s.gi = some (c, i)) :
    s.storeEntry.gph = .build ∧ s.storeEntry.gc = c ∧ s.storeEntry.gi = i := by
  simp [State.storeEntry, State.afterBuild, h]

/-- After the last entry of the building loop the checking loop starts at channel 1. -/
theorem storeEntry_of_none (h : nextIndex s.gc s.gi = none) :
    s.storeEntry.gph = .check ∧ s.storeEntry.gc = .c1 ∧ s.storeEntry.gi = 0#8 := by
  simp [State.storeEntry, State.afterBuild, h]

/-- The building loop's write reaches the entry at the generator's place and no other. -/
theorem tableRead_storeEntry (s : State) (c : Channel) (i : Byte) :
    tableRead (s.storeEntry.tbl.get c) i =
      if c = s.gc ∧ i = s.gi then s.gx ^^^ tableRead (s.eTbl.get s.gc) s.gi else tableRead (s.tbl.get c) i := by
  have written : s.storeEntry.tbl = s.tbl.set s.gc
      (tableWrite (s.tbl.get s.gc) s.gi (s.gx ^^^ tableRead (s.eTbl.get s.gc) s.gi)) := by
    unfold State.storeEntry State.afterBuild
    split <;> rfl
  rw [written, Tri.get_set]
  by_cases hc : c = s.gc
  · simp [hc, tableRead_write]
  · simp [hc]

/-- The checking loop goes on to the next entry. -/
theorem afterCheck_of_some {c : Channel} {i : Byte} (h : nextIndex s.gc s.gi = some (c, i)) :
    s.afterCheck.gph = .check ∧ s.afterCheck.gc = c ∧ s.afterCheck.gi = i := by
  simp [State.afterCheck, h]

/-- After the last comparison comes the completion. -/
theorem afterCheck_of_none (h : nextIndex s.gc s.gi = none) : s.afterCheck.gph = .finish := by
  simp [State.afterCheck, h]

/-- In the building loop the block computes the entry of `GI` and writes it with its mask. -/
theorem advance_build (gen : s.top = .gen) (build : s.gph = .build) :
    advance s = .next (s.setGx (tblEntry s.gi)).storeEntry := by
  have operand : exec .tblent s.supplyIndex = .next (s.setGx (tblEntry s.gi)) := by
    simp [exec_tblent, State.supplyIndex, State.setGx]
  rw [advance_of_build gen build, runMicro_of_building gen build operand]

/-- A comparison that finds the two entries equal. -/
theorem advance_check_of_eq (gen : s.top = .gen) (check : s.gph = .check)
    (same : tableRead (s.tbl.get s.gc) s.gi = tableRead s.tbl.c0 s.gi) : advance s = .next s.afterCheck := by
  simp only [advance, gen, generate, check, State.checkEntry, if_pos same]

/-- A comparison that finds them different (R123). -/
theorem advance_check_of_ne (gen : s.top = .gen) (check : s.gph = .check)
    (differ : tableRead (s.tbl.get s.gc) s.gi ≠ tableRead s.tbl.c0 s.gi) :
    advance s = .next (s.raiseFatal .tableMismatch) := by
  simp only [advance, gen, generate, check, State.checkEntry, if_neg differ]

theorem advance_finish (gen : s.top = .gen) (finish : s.gph = .finish) : advance s = .next s.finishInit := by
  simp only [advance, gen, generate, finish]

/-- The loop passes from the last index of channel 0 to channel 1, from there to channel 2, and ends there. -/
theorem nextIndex_last : nextIndex .c0 255#8 = some (.c1, 0#8) ∧ nextIndex .c1 255#8 = some (.c2, 0#8) ∧
    nextIndex .c2 255#8 = none := ⟨rfl, rfl, rfl⟩

/-- Settles O18: the step is the generator's row on the state without the event taken, and `nextIndex` says where it
goes on. -/
theorem generatorSteps : Obligations.GeneratorSteps := by
  intro s rest hs hp gen
  have own := step_of_proceeds hs hp
  have gen' : (s.setEvents rest).top = .gen := gen
  obtain ⟨last0, last1, last2⟩ := nextIndex_last
  refine ⟨fun build => ?_, fun check differ => ?_, fun check same => ?_, fun finish => ?_⟩
  · refine ⟨_, own.trans (advance_build gen' build), tableRead_storeEntry _, ?_,
      fun hi => storeEntry_of_some (nextIndex_of_ne hi s.gc), fun hi hc => storeEntry_of_some ?_,
      fun hi hc => storeEntry_of_some ?_, fun hi hc => storeEntry_of_none ?_⟩
    · obtain ⟨tb, ph, c, i, e⟩ := storeEntry_eq ((s.setEvents rest).setGx (tblEntry s.gi))
      exact e ▸ rfl
    · exact hi ▸ hc ▸ last0
    · exact hi ▸ hc ▸ last1
    · exact hi ▸ hc ▸ last2
  · exact own.trans (advance_check_of_ne gen' check differ)
  · refine ⟨_, own.trans (advance_check_of_eq gen' check same), ?_,
      fun hi => afterCheck_of_some (nextIndex_of_ne hi s.gc), fun hi hc => afterCheck_of_some ?_,
      fun hi hc => afterCheck_of_some ?_, fun hi hc => afterCheck_of_none ?_⟩
    · obtain ⟨ph, c, i, e⟩ := afterCheck_eq_setGen (s.setEvents rest)
      exact e ▸ rfl
    · exact hi ▸ hc ▸ last0
    · exact hi ▸ hc ▸ last1
    · exact hi ▸ hc ▸ last2
  · exact own.trans (advance_finish gen' finish)

/-! ### Runs by an indexed invariant -/

/-- An invariant that each of `n` steps carries from its index to the next holds at the end of the run of `n` steps. -/
theorem run_of_indexed {P : Nat → State → Prop} {n : Nat} (start : P 0 s)
    (hstep : ∀ k u, k < n → P k u → ∃ v, step u = .next v ∧ P (k + 1) v) :
    ∃ u : State, Host.Core.run core n s = .next u ∧ P n u := by
  induction n with
  | zero => exact ⟨s, rfl, start⟩
  | succ n ih =>
    obtain ⟨u, hu, hP⟩ := ih fun k u hk => hstep k u (Nat.lt_succ_of_lt hk)
    obtain ⟨v, hv, hQ⟩ := hstep n u (Nat.lt_succ_self n) hP
    exact ⟨v, (run_add n 1 s u hu).trans (run_succ 0 u v hv), hQ⟩

/-! ### The building loop -/

/-- `u` is `s` with other tables and another place of the generator, and nothing else changed. -/
def GeneratorFrame (s u : State) : Prop :=
  ∃ tb x ph c i, u = { s with tbl := tb, gx := x, gph := ph, gc := c, gi := i }

/-- The building loop is at place `n`, or past its last place with the checking loop at its start, entry `(1, 0)`. -/
def State.BuildsAt (s : State) (n : Nat) : Prop :=
  (s.gph = .build ∧ entryPlace s.gc s.gi = n) ∨ (s.gph = .check ∧ s.gc = .c1 ∧ s.gi = 0#8 ∧ n = 768)

/-- What `n` steps of the building loop make of `s`: the first `n` entries are written, each with its mask. -/
structure Built (s : State) (n : Nat) (u : State) : Prop where
  frame : GeneratorFrame s u
  place : u.BuildsAt n
  written : ∀ c i, entryPlace c i < n → tableRead (u.tbl.get c) i = tblEntry i ^^^ tableRead (s.eTbl.get c) i

section Frame

variable (h : GeneratorFrame s u)
include h

theorem GeneratorFrame.undisturbed (alone : s.Undisturbed) : u.Undisturbed := by
  obtain ⟨tb, x, ph, c, i, rfl⟩ := h
  exact alone

theorem GeneratorFrame.top_eq : u.top = s.top := by
  obtain ⟨tb, x, ph, c, i, rfl⟩ := h
  rfl

theorem GeneratorFrame.eTbl_eq : u.eTbl = s.eTbl := by
  obtain ⟨tb, x, ph, c, i, rfl⟩ := h
  rfl

theorem GeneratorFrame.status_eq : u.status = s.status := by
  obtain ⟨tb, x, ph, c, i, rfl⟩ := h
  rfl

theorem GeneratorFrame.storeEntry (v : Word) : GeneratorFrame s (u.setGx v).storeEntry := by
  obtain ⟨tb, x, ph, c, i, rfl⟩ := h
  obtain ⟨tb', ph', c', i', e⟩ := storeEntry_eq (State.setGx { s with tbl := tb, gx := x, gph := ph, gc := c, gi := i } v)
  exact ⟨tb', v, ph', c', i', e⟩

theorem GeneratorFrame.afterCheck : GeneratorFrame s u.afterCheck := by
  obtain ⟨tb, x, ph, c, i, rfl⟩ := h
  obtain ⟨ph', c', i', e⟩ := afterCheck_eq_setGen { s with tbl := tb, gx := x, gph := ph, gc := c, gi := i }
  exact ⟨tb, x, ph', c', i', e⟩

end Frame

theorem storeEntry_buildsAt (s : State) : s.storeEntry.BuildsAt (entryPlace s.gc s.gi + 1) := by
  cases hn : nextIndex s.gc s.gi with
  | some ci =>
    obtain ⟨hph, hc, hi⟩ := storeEntry_of_some hn
    exact .inl ⟨hph, by rw [hc, hi, entryPlace_of_nextIndex hn]⟩
  | none =>
    obtain ⟨hph, hc, hi⟩ := storeEntry_of_none hn
    exact .inr ⟨hph, hc, hi, entryPlace_of_nextIndex_none hn⟩

/-- One step of the building loop writes the entry at its place. -/
theorem Built.step {n : Nat} (alone : s.Undisturbed) (gen : s.top = .gen) (hn : n < 768) (h : Built s n u) :
    ∃ v, step u = .next v ∧ Built s (n + 1) v := by
  obtain ⟨build, at_n⟩ | ⟨-, -, -, rfl⟩ := h.place
  · have hstep := (step_undisturbed (h.frame.undisturbed alone)).trans (advance_build (h.frame.top_eq.trans gen) build)
    refine ⟨_, hstep, h.frame.storeEntry _, at_n ▸ storeEntry_buildsAt _, fun c i hlt => ?_⟩
    rw [tableRead_storeEntry]
    split
    case isTrue here =>
      obtain ⟨rfl, rfl⟩ := here
      rw [State.setGx_eTbl, h.frame.eTbl_eq]
      rfl
    case isFalse elsewhere =>
      have before : entryPlace c i ≠ n := fun e => elsewhere (entryPlace_inj (e.trans at_n.symm))
      exact h.written c i (by omega)
  · omega

/-- The whole building loop, from entry `(0, 0)`: 768 steps. -/
theorem run_build (alone : s.Undisturbed) (gen : s.top = .gen) (build : s.gph = .build) (hc : s.gc = .c0)
    (hi : s.gi = 0#8) : ∃ u : State, Host.Core.run core 768 s = .next u ∧ Built s 768 u := by
  have start : Built s 0 s :=
    ⟨⟨_, _, _, _, _, rfl⟩, .inl ⟨build, by rw [hc, hi]; rfl⟩, fun _ _ h => absurd h (Nat.not_lt_zero _)⟩
  exact run_of_indexed start fun _ _ hk hu => hu.step alone gen hk

/-! ### The checking loop -/

/-- The checking loop is at place `n`, or past its last place. -/
def State.ChecksAt (s : State) (n : Nat) : Prop :=
  (s.gph = .check ∧ entryPlace s.gc s.gi = n) ∨ (s.gph = .finish ∧ n = 768)

theorem State.ChecksAt.entry {c : Channel} {i : Byte} (h : s.ChecksAt (entryPlace c i)) :
    s.gph = .check ∧ s.gc = c ∧ s.gi = i := by
  obtain ⟨check, at_place⟩ | ⟨-, past⟩ := h
  · exact ⟨check, entryPlace_inj at_place⟩
  · exact absurd past (Nat.ne_of_lt (entryPlace_lt c i))

theorem State.ChecksAt.finish (h : s.ChecksAt 768) : s.gph = .finish := by
  obtain ⟨-, at_place⟩ | ⟨finish, -⟩ := h
  · exact absurd at_place (Nat.ne_of_lt (entryPlace_lt _ _))
  · exact finish

/-- What `INIT` makes of `s` up to place `n` of the checking loop: every entry written with its mask, and no difference
found so far. -/
structure Checked (s : State) (n : Nat) (u : State) : Prop where
  frame : GeneratorFrame s u
  place : u.ChecksAt n
  written : ∀ c i, tableRead (u.tbl.get c) i = tblEntry i ^^^ tableRead (s.eTbl.get c) i

/-- Past its last place the building loop has written every entry and started the checking loop at place 256. -/
theorem Built.checked (h : Built s 768 u) : Checked s 256 u where
  frame := h.frame
  place := by
    obtain ⟨-, at_place⟩ | ⟨check, hc, hi, -⟩ := h.place
    · exact absurd at_place (Nat.ne_of_lt (entryPlace_lt _ _))
    · exact .inl ⟨check, by rw [hc, hi]; rfl⟩
  written c i := h.written c i (entryPlace_lt c i)

/-- Two entries at one index are equal exactly when their masks are. -/
theorem Checked.tableRead_eq_iff {n : Nat} (h : Checked s n u) (c : Channel) (i : Byte) :
    tableRead (u.tbl.get c) i = tableRead u.tbl.c0 i ↔ tableRead (s.eTbl.get c) i = tableRead s.eTbl.c0 i := by
  have entry0 : tableRead u.tbl.c0 i = tblEntry i ^^^ tableRead s.eTbl.c0 i := h.written .c0 i
  rw [h.written c i, entry0]
  exact BitVec.xor_right_inj _

theorem afterCheck_checksAt (s : State) : s.afterCheck.ChecksAt (entryPlace s.gc s.gi + 1) := by
  cases hn : nextIndex s.gc s.gi with
  | some ci =>
    obtain ⟨hph, hc, hi⟩ := afterCheck_of_some hn
    exact .inl ⟨hph, by rw [hc, hi, entryPlace_of_nextIndex hn]⟩
  | none => exact .inr ⟨afterCheck_of_none hn, entryPlace_of_nextIndex_none hn⟩

theorem afterCheck_tbl (s : State) : s.afterCheck.tbl = s.tbl := by
  obtain ⟨ph, c, i, e⟩ := afterCheck_eq_setGen s
  rw [e]
  rfl

/-- The masks of channels 1 and 2 agree with channel 0's at every place below `n`. -/
def MasksAgreeBelow (s : State) (n : Nat) : Prop :=
  ∀ c i, entryPlace c i < n → tableRead (s.eTbl.get c) i = tableRead s.eTbl.c0 i

/-- One comparison below a place up to which the masks agree. -/
theorem Checked.step {n m : Nat} (alone : s.Undisturbed) (gen : s.top = .gen) (agree : MasksAgreeBelow s m)
    (hm : m ≤ 768) (hn : n < m) (h : Checked s n u) : ∃ v, step u = .next v ∧ Checked s (n + 1) v := by
  obtain ⟨check, at_n⟩ | ⟨-, rfl⟩ := h.place
  · have same : tableRead (u.tbl.get u.gc) u.gi = tableRead u.tbl.c0 u.gi :=
      (h.tableRead_eq_iff _ _).mpr (agree _ _ (at_n ▸ hn))
    have hstep := (step_undisturbed (h.frame.undisturbed alone)).trans
      (advance_check_of_eq (h.frame.top_eq.trans gen) check same)
    exact ⟨_, hstep, h.frame.afterCheck, at_n ▸ afterCheck_checksAt u, afterCheck_tbl u ▸ h.written⟩
  · omega

/-! ### The whole of `INIT` -/

theorem exec_init (halt : s.status.halt = false) (busy : s.status.busy = false) (done : s.status.initDone = false) :
    exec .init s = .next s.beginInit := execInit_next.mpr ⟨halt, busy, done, rfl⟩

/-- `INIT`, accepted and left to itself, runs the whole building loop and then as many comparisons as find the masks to
agree. -/
theorem run_init {m : Nat} (alone : s.Undisturbed) (agree : MasksAgreeBelow s (256 + m)) (hm : 256 + m ≤ 768) :
    ∃ u : State, Host.Core.run core (768 + m) s.beginInit = .next u ∧ Checked s.beginInit (256 + m) u := by
  obtain ⟨b, hb, built⟩ := run_build (s := s.beginInit) alone rfl rfl rfl rfl
  obtain ⟨u, hu, checked⟩ := run_of_indexed (P := fun k u => Checked s.beginInit (256 + k) u) built.checked
    fun _ _ hk h => h.step alone rfl agree hm (Nat.add_lt_add_left hk 256)
  exact ⟨u, (run_add 768 m _ _ hb).trans hu, checked⟩

/-- Settles O19: the building loop, all 512 comparisons, the completion. -/
theorem initRunBuildsTheTables : Obligations.InitRunBuildsTheTables := by
  intro s halt busy done alone agree
  obtain ⟨w, hw, checked⟩ := run_init (m := 512) alone (fun c i _ => agree c i) (Nat.le_refl 768)
  have last := (step_undisturbed (checked.frame.undisturbed alone)).trans
    (advance_finish checked.frame.top_eq checked.place.finish)
  refine ⟨_, w.finishInit, exec_init halt busy done, (run_add 1280 1 _ _ hw).trans (run_succ 0 _ _ last),
    checked.written, ?_⟩
  obtain ⟨tb, x, ph, c, i, rfl⟩ := checked.frame
  rfl

/-- Where a mask differs from channel 0's there is a first place at which one does. -/
theorem exists_first_differing_mask (h : ∃ c i, tableRead (s.eTbl.get c) i ≠ tableRead s.eTbl.c0 i) :
    ∃ c i, tableRead (s.eTbl.get c) i ≠ tableRead s.eTbl.c0 i ∧ MasksAgreeBelow s (entryPlace c i) := by
  classical
  have places : ∃ n c i, entryPlace c i = n ∧ tableRead (s.eTbl.get c) i ≠ tableRead s.eTbl.c0 i := by
    obtain ⟨c, i, differ⟩ := h
    exact ⟨_, c, i, rfl, differ⟩
  obtain ⟨c, i, at_first, differ⟩ := Nat.find_spec places
  refine ⟨c, i, differ, fun d j before => ?_⟩
  by_contra differs
  exact Nat.find_min places (at_first ▸ before) ⟨d, j, rfl, differs⟩

/-- Settles O20: the building loop, the comparisons before the first entry whose mask differs, and the one that finds
it. -/
theorem initRunReportsAMismatch : Obligations.InitRunReportsAMismatch := by
  intro s halt busy done alone differ
  obtain ⟨c, i, differ, agree⟩ := exists_first_differing_mask differ
  have hc : c ≠ .c0 := by
    rintro rfl
    exact differ rfl
  obtain ⟨m, hm⟩ := Nat.exists_eq_add_of_le (le_entryPlace hc i)
  have bound := entryPlace_lt c i
  obtain ⟨w, hw, checked⟩ := run_init alone (hm ▸ agree) (by omega)
  obtain ⟨check, hgc, hgi⟩ := State.ChecksAt.entry (hm ▸ checked.place)
  have mismatch : tableRead (w.tbl.get w.gc) w.gi ≠ tableRead w.tbl.c0 w.gi := by
    rw [hgc, hgi]
    exact mt (checked.tableRead_eq_iff c i).mp differ
  have last := (step_undisturbed (checked.frame.undisturbed alone)).trans
    (advance_check_of_ne checked.frame.top_eq check mismatch)
  refine ⟨_, 768 + m + 1, w.raiseFatal .tableMismatch, exec_init halt busy done, by omega,
    (run_add (768 + m) 1 _ _ hw).trans (run_succ 0 _ _ last), rfl, rfl, ?_⟩
  simp [checked.frame.status_eq, done]

end Sys2Proof.Machine

/-! PROOFS: the calls the Dispatcher starts (41_dispatcher.md R141 to R147): the start of a checksum command, its run up to
the Voter on either engine, and what the Voter's answer leaves; for fault-free hardware the answer is the reference. -/

namespace Sys2Proof.Machine

variable {s t w : State}

/-! ### The two byte steps on fault-free tables -/

/-- On the fault-free table the table-driven step is the 8-bit form (R125 (b), 43_hardware_engine.md R180). -/
theorem hw8_eq_swStep (crc : Word) (b : Byte) : hw8 crc b = swStep goodTable crc b := by
  rw [hw8, bitSteps_eight, xor_byte_shiftRight, swStep, tableRead_good]
  rfl

/-- A channel that has consumed the whole buffer holds the complement of the reference: on the Hardware Engine whatever the
tables hold, on the Software Engine on fault-free tables (42_software_engine.md R165, 43_hardware_engine.md R182). -/
theorem not_accAfter_eq_ref (tables : s.eng = .sw → s.GoodTables) (c : Channel) (bs : List Byte) :
    ~~~(accAfter s c bs) = crc32cRef s.seed bs := by
  rw [crc32cRef_eq]
  cases he : s.eng with
  | sw =>
    have same : swStep (s.tbl.get c) = hw8 := by
      funext crc b
      rw [tables he, Tri.get_all, hw8_eq_swStep]
    simp only [accAfter, he, same]
  | hw => simp only [accAfter, he]

/-- Each channel of a whole call ends with the reference, its own mask entered. -/
theorem callResults_eq (tables : s.eng = .sw → s.GoodTables) {g : Word} (hg : g = crc32cRef s.seed s.buf) :
    callResults s = ⟨s.upset g .c0, s.upset g .c1, s.upset g .c2⟩ := by
  subst hg
  simp only [callResults, not_accAfter_eq_ref tables]
  rfl

/-! ### The start of a call -/

/-- `Select()`, written out (R140, R143). -/
theorem selectEngine_eq (c : Cfg) :
    selectEngine c = if c.target.arch ≠ .none ∧ c.target.hwCap = true ∧ c.hwEn = true then .hw else .sw := by
  simp [selectEngine, and_assoc]

theorem startChecksum_of_whole {len : Word} {data : List Byte} (bound : len.toNat ≤ Config.maxInputSize)
    (whole : data.length = len.toNat) (eng : Engine) (seed : Word) (s : State) :
    startChecksum eng seed len data s = .next (s.clearValid.latchCall eng seed len.toNat data) :=
  startChecksum_next.mpr (.inr ⟨bound, whole, rfl⟩)

section Start

variable {len : Word} {data : List Byte} (halt : s.status.halt = false) (busy : s.status.busy = false)
  (init : s.status.initDone = true) (bound : len.toNat ≤ Config.maxInputSize) (whole : data.length = len.toNat)
include halt busy init bound whole

/-- `CRC32C` starts the call on the selected engine (R141). -/
theorem exec_crc32c_starts (seed : Word) :
    exec (.crc32c seed len data) s = .next (s.clearValid.latchCall (selectEngine s.cfg) seed len.toNat data) :=
  execCrc32c_next.mpr ⟨halt, busy, init, startChecksum_of_whole bound whole _ seed s⟩

/-- `CRC32C.SW` starts it on the Software Engine (42_software_engine.md R163). -/
theorem exec_crc32cSw_starts (seed : Word) :
    exec (.crc32cSw seed len data) s = .next (s.clearValid.latchCall .sw seed len.toNat data) :=
  execCrc32cSw_next.mpr ⟨halt, busy, init, startChecksum_of_whole bound whole .sw seed s⟩

/-- `CRC32C.HW` starts it on the Hardware Engine, where that exists and the CPU has it (43_hardware_engine.md R183). -/
theorem exec_crc32cHw_starts (seed : Word) (arch : s.cfg.target.arch ≠ .none) (cap : s.cfg.target.hwCap = true) :
    exec (.crc32cHw seed len data) s = .next (s.clearValid.latchCall .hw seed len.toNat data) :=
  execCrc32cHw_next.mpr ⟨halt, busy, init, arch, cap, startChecksum_of_whole bound whole .hw seed s⟩

end Start

/-! ### The whole call -/

/-- What a call leaves alone: the tables, the configuration and the tunables, the operand of the pure micro-operations, the
masks, and what is pending. -/
def State.surroundings (s : State) : Tri Table × Cfg × (Word × Word) × Word × (Tri Word × Tri Table) ×
    (List Event × List Arrival) :=
  (s.tbl, s.cfg, (s.wcpbHw, s.wcpbSw), s.gx, (s.eRes, s.eTbl), (s.events, s.hostQueue))

theorem surroundings_eq : t.surroundings = s.surroundings ↔
    t.tbl = s.tbl ∧ t.cfg = s.cfg ∧ (t.wcpbHw = s.wcpbHw ∧ t.wcpbSw = s.wcpbSw) ∧ t.gx = s.gx ∧
      (t.eRes = s.eRes ∧ t.eTbl = s.eTbl) ∧ (t.events = s.events ∧ t.hostQueue = s.hostQueue) := by
  simp only [State.surroundings, Prod.mk.injEq]

@[simp] theorem applyVote_surroundings (s : State) : s.applyVote.surroundings = s.surroundings := by
  obtain ⟨v, -, h⟩ | ⟨-, h⟩ := applyVote_cases s <;> rw [h] <;> rfl

/-- A block with the same surroundings is undisturbed too: what is pending and the configuration are among them. -/
theorem undisturbed_of_surroundings_eq (alone : s.Undisturbed) (h : t.surroundings = s.surroundings) :
    t.Undisturbed := by
  obtain ⟨-, cfg, -, -, -, events, queue⟩ := surroundings_eq.mp h
  simpa only [State.Undisturbed, State.sequenceExists, State.sequence, cfg, events, queue] using alone

/-- `w` is about to decide on the call that was accepted in `s` and whose fault-free result is `g`. -/
structure DecidesCall (s : State) (g : Word) (w : State) : Prop where
  results : w.res = ⟨s.upset g .c0, s.upset g .c1, s.upset g .c2⟩
  status : w.status = { s.status with valid := false, busy := true }
  surroundings : w.surroundings = s.surroundings
  count : w.rspCount = s.rspCount

/-- A call that is accepted in the ready block and left to itself comes to the Voter, which decides in the last of its
steps (R212). -/
theorem run_accepted_call {eng : Engine} {seed g : Word} {len : Nat} {data : List Byte} (ready : s.Ready)
    (alone : s.Undisturbed) (tables : eng = .sw → s.GoodTables) (engine : eng = .hw → s.cfg.target.arch ≠ .none)
    (whole : data.length = len) (hg : g = crc32cRef seed data) :
    ∃ w : State, Host.Core.run core (callSteps eng len) (s.clearValid.latchCall eng seed len data) = .next w.applyVote ∧
      DecidesCall s g w := by
  obtain ⟨-, idle, init, -, -, -⟩ := ready
  obtain ⟨acc, pos, hrun⟩ := run_call (s := s.clearValid.latchCall eng seed len data) alone rfl idle init whole engine
  exact ⟨_, hrun, callResults_eq (s := s.clearValid.latchCall eng seed len data) tables hg, rfl, rfl, rfl⟩

/-- Where two results agree the Voter answers their value (44_tmr_voter.md R212). -/
theorem DecidesCall.applyVote_eq {g v : Word} (h : DecidesCall s g w)
    (vote : voteOf (s.upset g .c0) (s.upset g .c1) (s.upset g .c2) = some v) : w.applyVote = w.commitChecksum v := by
  obtain ⟨v', hv, e⟩ | ⟨hv, -⟩ := applyVote_cases w <;> rw [h.results, vote] at hv <;> cases hv
  exact e

/-- The answer leaves the block ready for the next command. -/
theorem DecidesCall.ready {g : Word} (h : DecidesCall s g w) (ready : s.Ready) (v : Word) :
    (w.commitChecksum v).Ready := by
  obtain ⟨-, -, init, halt, -, cause⟩ := ready
  simp [State.Ready, h.status, init, halt, cause]

/-- Without a mask every channel ends with the fault-free result. -/
theorem upset_of_zero (zero : s.eRes = Tri.all 0#32) (g : Word) (c : Channel) : s.upset g c = g := by
  simp [State.upset, zero]

/-- A whole `CRC32C` on fault-free hardware (R141, R144): the engine `Select()` gives exists in the configuration, and the
reference is the result on either. -/
theorem run_dispatched_call {len : Word} {data : List Byte} (seed : Word) (ready : s.Ready) (alone : s.Undisturbed)
    (good : s.GoodTables) (zero : s.eRes = Tri.all 0#32) (bound : len.toNat ≤ Config.maxInputSize)
    (whole : data.length = len.toNat) :
    ∃ t u : State, exec (.crc32c seed len data) s = .next t ∧
      Host.Core.run core (callSteps t.eng len.toNat) t = .next u ∧ u.Ready ∧
      u.rsp = some (.value (crc32cRef seed data)) ∧ u.readCksum = some (crc32cRef seed data) ∧
      u.surroundings = s.surroundings := by
  have ⟨_, _, init, halt, busy, _⟩ := ready
  obtain ⟨w, hrun, decides⟩ := run_accepted_call (eng := selectEngine s.cfg) ready alone (fun _ => good)
    (fun hw => (selectEngine_hw hw).1) whole rfl
  have vote : voteOf (s.upset (crc32cRef seed data) .c0) (s.upset (crc32cRef seed data) .c1)
      (s.upset (crc32cRef seed data) .c2) = some (crc32cRef seed data) := by
    simp [upset_of_zero zero, voteOf]
  have frame := (applyVote_surroundings w).trans decides.surroundings
  rw [decides.applyVote_eq vote] at hrun frame
  exact ⟨_, _, exec_crc32c_starts halt busy init bound whole seed, hrun, decides.ready ready _, rfl, rfl, frame⟩

/-- Settles O34: the run of a dispatched call, of whose surroundings the tables and the configuration are a part. -/
theorem dispatchedCallAnswersTheReference : Obligations.DispatchedCallAnswersTheReference := by
  intro s seed len data ready alone good zero bound whole
  obtain ⟨t, u, accepted, hrun, ready', rsp, cksum, frame⟩ :=
    run_dispatched_call seed ready alone good zero bound whole
  obtain ⟨tbl, cfg, -⟩ := surroundings_eq.mp frame
  exact ⟨t, u, accepted, hrun, ready', rsp, cksum, tbl, cfg⟩

/-- The complement at the end of one call is undone at the start of the next (R145). -/
theorem crc32cRef_append (seed : Word) (a b : List Byte) :
    crc32cRef (crc32cRef seed a) b = crc32cRef seed (a ++ b) := by
  simp only [crc32cRef, BitVec.not_not, List.foldl_append]

/-- Settles O37: the second call starts in the block the first leaves, which is ready, undisturbed and fault-free again. -/
theorem seedChainsTwoCalls : Obligations.SeedChainsTwoCalls := by
  refine ⟨crc32cRef_append, ?_⟩
  intro s seed lenA lenB dataA dataB ready alone good zero boundA boundB wholeA wholeB
  obtain ⟨t, u, accepted, hrun, ready', rsp, -, frame⟩ :=
    run_dispatched_call seed ready alone good zero boundA wholeA
  obtain ⟨tbl, -, -, -, ⟨eRes, -⟩, -⟩ := surroundings_eq.mp frame
  obtain ⟨t', u', accepted', hrun', -, rsp', -, -⟩ := run_dispatched_call (crc32cRef seed dataA) ready'
    (undisturbed_of_surroundings_eq alone frame) (tbl.trans good) (eRes.trans zero) boundB wholeB
  exact ⟨t, u, _, t', u', accepted, hrun, rsp, accepted', hrun', crc32cRef_append seed dataA dataB ▸ rsp'⟩

end Sys2Proof.Machine

/-! PROOFS: the rows of the transition table (41_dispatcher.md R149): where a micro-operation of a channel has a step and
where it stops, that the rows of a channel exclude each other, that a consistent block always has a step; and the acceptance
of the commands and `DETECT` (R140). -/

namespace Sys2Proof.Machine

variable {s t : State}

/-! ### The rows of a channel -/

/-- A micro-operation of a channel that has a step is in its row. -/
theorem admitted_of_exec_channel {i : Instr} {c : Channel} (hi : channelOf i = some c) (h : exec i s = .next t) :
    Admitted s i := by
  cases i
  case chinit => exact (execChinit_next.mp h).1
  case swstep => exact (execSwstep_next.mp h).1
  case hwstep8 =>
    obtain ⟨arch, enabled, -⟩ := execHwstep8_next.mp h
    exact ⟨arch, enabled⟩
  case hwstep64 =>
    obtain ⟨arch, enabled, -⟩ := execHwstep64_next.mp h
    exact ⟨arch, enabled⟩
  case chfin => exact (execChfin_next.mp h).1
  all_goals cases hi

/-- With the whole buffer and initialised tables a micro-operation of a channel has a step exactly in its row (R149). -/
theorem exec_channel_next_iff_admitted {i : Instr} {c : Channel} (hi : channelOf i = some c)
    (whole : s.buf.length = s.len) (init : s.status.initDone = true) : (∃ t, exec i s = .next t) ↔ Admitted s i := by
  refine ⟨fun ⟨t, h⟩ => admitted_of_exec_channel hi h, fun h => ?_⟩
  cases i
  case chinit => exact ⟨_, execChinit_next.mpr ⟨h, rfl⟩⟩
  case swstep c =>
    obtain ⟨-, -, -, left⟩ := swstepEnabled_iff.mp h
    exact ⟨_, execSwstep_next.mpr ⟨h, init, _, List.getElem?_eq_getElem (whole ▸ left), rfl⟩⟩
  case hwstep8 c =>
    obtain ⟨arch, enabled⟩ := h
    obtain ⟨-, -, -, left, -⟩ := hwstep8Enabled_iff.mp enabled
    exact ⟨_, execHwstep8_next.mpr ⟨arch, enabled, _, List.getElem?_eq_getElem (whole ▸ left), rfl⟩⟩
  case hwstep64 c =>
    obtain ⟨arch, enabled⟩ := h
    obtain ⟨-, -, -, left⟩ := hwstep64Enabled_iff.mp enabled
    obtain ⟨word, hword⟩ := word64_isSome (whole ▸ left)
    exact ⟨_, execHwstep64_next.mpr ⟨arch, enabled, word, hword, rfl⟩⟩
  case chfin => exact ⟨_, execChfin_next.mpr ⟨h, rfl⟩⟩
  all_goals cases hi

/-- Settles O12: each row of `Admitted`, with `LEN - POS[c]` where the row compares `POS[c]` with `LEN`. -/
theorem enabledExactlyInItsRow : Obligations.EnabledExactlyInItsRow := by
  intro s c whole init
  have row (i : Instr) (hi : channelOf i = some c) := exec_channel_next_iff_admitted hi whole init
  refine ⟨(row (.chinit c) rfl).trans chinitEnabled_iff, (row (.swstep c) rfl).trans swstepEnabled_iff,
    (row (.hwstep64 c) rfl).trans (and_congr_right fun _ => hwstep64Enabled_iff.trans ?_),
    (row (.hwstep8 c) rfl).trans (and_congr_right fun _ => hwstep8Enabled_iff.trans ?_),
    (row (.chfin c) rfl).trans chfinEnabled_iff⟩
  · have left : s.pos.get c + 8 ≤ s.len ↔ s.len - s.pos.get c ≥ 8 := by omega
    rw [left]
  · have left : s.pos.get c < s.len ∧ s.len < s.pos.get c + 8 ↔
        0 < s.len - s.pos.get c ∧ s.len - s.pos.get c < 8 := by omega
    rw [left]

/-- The row a micro-operation is in is the one the sequencer finds for its channel: no earlier row is enabled with it. -/
theorem enabledMicro_of_admitted {i : Instr} {c : Channel} (hi : channelOf i = some c) (h : Admitted s i) :
    enabledMicro s c = some i := by
  cases i
  case chinit =>
    cases hi
    exact if_pos h
  case swstep =>
    cases hi
    obtain ⟨-, going, -, -⟩ := swstepEnabled_iff.mp h
    simp [enabledMicro, chinitEnabled, going, show swstepEnabled s c = true from h]
  case hwstep64 =>
    cases hi
    obtain ⟨-, enabled⟩ := h
    obtain ⟨-, going, eng, -⟩ := hwstep64Enabled_iff.mp enabled
    simp [enabledMicro, chinitEnabled, swstepEnabled, going, eng, enabled]
  case hwstep8 =>
    cases hi
    obtain ⟨-, enabled⟩ := h
    obtain ⟨-, going, eng, -, few⟩ := hwstep8Enabled_iff.mp enabled
    have no64 : hwstep64Enabled s c = false := by
      rw [← Bool.not_eq_true, hwstep64Enabled_iff]
      omega
    simp [enabledMicro, chinitEnabled, swstepEnabled, no64, going, eng, enabled]
  case chfin =>
    cases hi
    obtain ⟨-, going, atEnd⟩ := chfinEnabled_iff.mp h
    simp [enabledMicro, chinitEnabled, swstepEnabled, hwstep64Enabled, hwstep8Enabled, Config.wordBytes, going, atEnd,
      show chfinEnabled s c = true from h]
  all_goals cases hi

/-- Settles O28: both are the one micro-operation the sequencer finds for the channel. -/
theorem oneRowPerChannel : Obligations.OneRowPerChannel := by
  intro s t u i j c hi hj ht hu
  have found_i := enabledMicro_of_admitted hi (admitted_of_exec_channel hi ht)
  have found_j := enabledMicro_of_admitted hj (admitted_of_exec_channel hj hu)
  exact Option.some.inj (found_i.symm.trans found_j)

/-! ### Progress -/

/-- What the sequencer finds for a channel is in its row, where the selected engine exists. -/
theorem admitted_of_enabledMicro {i : Instr} {c : Channel} (engine : s.eng = .hw → s.cfg.target.arch ≠ .none)
    (h : enabledMicro s c = some i) : Admitted s i := by
  unfold enabledMicro at h
  split at h
  case isTrue enabled => cases h; exact enabled
  split at h
  case isTrue enabled => cases h; exact enabled
  split at h
  case isTrue enabled =>
    cases h
    obtain ⟨-, -, eng, -⟩ := hwstep64Enabled_iff.mp enabled
    exact ⟨engine eng, enabled⟩
  split at h
  case isTrue enabled =>
    cases h
    obtain ⟨-, -, eng, -⟩ := hwstep8Enabled_iff.mp enabled
    exact ⟨engine eng, enabled⟩
  split at h
  case isTrue enabled => cases h; exact enabled
  case isFalse => cases h

/-- A channel of a consistent running call that is not done is in some row: before its start that of `CHINIT`, at the end
of the buffer that of `CHFIN`, in between that of a step of the selected engine. -/
theorem exists_admitted_of_not_done (hs : ControlInv s) (run : s.top = .run) {c : Channel}
    (not_done : s.chp.get c ≠ .chDone) : ∃ i, channelOf i = some c ∧ Admitted s i := by
  cases going : s.chp.get c with
  | chDone => exact absurd going not_done
  | chIdle => exact ⟨.chinit c, rfl, chinitEnabled_iff.mpr ⟨run, going⟩⟩
  | chRun =>
    have within : s.pos.get c ≤ s.len := hs.pos_within run c (by simp [going])
    obtain left | atEnd := Nat.lt_or_eq_of_le within
    · cases eng : s.eng with
      | sw => exact ⟨.swstep c, rfl, swstepEnabled_iff.mpr ⟨run, going, eng, left⟩⟩
      | hw =>
        obtain ⟨arch, -⟩ := hs.engine_exists run eng
        obtain few | word := Nat.lt_or_ge s.len (s.pos.get c + 8)
        · exact ⟨.hwstep8 c, rfl, arch, hwstep8Enabled_iff.mpr ⟨run, going, eng, left, few⟩⟩
        · exact ⟨.hwstep64 c, rfl, arch, hwstep64Enabled_iff.mpr ⟨run, going, eng, word⟩⟩
    · exact ⟨.chfin c, rfl, chfinEnabled_iff.mpr ⟨run, going, atEnd⟩⟩

/-- The sequencer of a consistent running call finds nothing for any channel only when all are done. -/
theorem done_of_nextMicro_none (hs : ControlInv s) (run : s.top = .run) (h : nextMicro s = none) :
    s.chp = Tri.all .chDone := by
  refine Tri.ext_get fun c => ?_
  rw [Tri.get_all]
  by_contra not_done
  obtain ⟨i, hi, admitted⟩ := exists_admitted_of_not_done hs run not_done
  cases (nextMicro_none.mp h c).symm.trans (enabledMicro_of_admitted hi admitted)

/-- In a consistent running call the sequencer's choice has a step, and where it has none all channels are done. -/
theorem runChannels_has_next (hs : ControlInv s) (run : s.top = .run) : ∃ t, runChannels s = .next t := by
  cases h : nextMicro s with
  | some i =>
    obtain ⟨c, hc⟩ := nextMicro_some h
    obtain ⟨whole, -⟩ := hs.buffer_whole run
    have admitted := admitted_of_enabledMicro (fun eng => (hs.engine_exists run eng).1) hc
    obtain ⟨t, ht⟩ := (exec_channel_next_iff_admitted (enabledMicro_channel hc).1 whole
      (hs.call_after_init (.inl run))).mpr admitted
    exact ⟨t, by rw [runChannels, h]; exact (runMicro_of_nextMicro run h).trans ht⟩
  | none =>
    have done := done_of_nextMicro_none hs run h
    exact ⟨_, by rw [runChannels, h]; exact if_pos (allDone_iff.mpr done)⟩

/-- The generator always has a step. -/
theorem generate_has_next (gen : s.top = .gen) : ∃ t, generate s = .next t := by
  unfold generate
  cases build : s.gph with
  | build => exact ⟨_, runMicro_of_building gen build rfl⟩
  | check => exact ⟨_, rfl⟩
  | finish => exact ⟨_, rfl⟩

/-- The idle block with nothing to present waits (log entry 8). -/
theorem advance_of_empty_queue (idle : s.top = .idle) (queue : s.hostQueue = []) : advance s = .next s := by
  simp only [advance, idle, queue]

/-- A consistent block that is not halted always has a step of its own, if there is nothing to present. -/
theorem advance_has_next (hs : ControlInv s) (queue : s.hostQueue = []) (top : s.top ≠ .halted) :
    ∃ t, advance s = .next t := by
  cases h : s.top with
  | idle => exact ⟨s, advance_of_empty_queue h queue⟩
  | gen => simpa only [advance, h] using generate_has_next h
  | run => simpa only [advance, h] using runChannels_has_next hs h
  | voting => exact ⟨s.applyVote, by simp only [advance, h]⟩
  | halted => exact absurd h top

/-- Settles O54: the step is the block's own, which no phase but the halted one lacks. -/
theorem nothingIsStuck : Obligations.NothingIsStuck := by
  intro s rest hs hp queue
  rw [step_of_proceeds hs hp]
  exact ⟨fun hc top => advance_has_next (s := s.setEvents rest) (hc.of_control_eq rfl) queue top,
    fun idle => advance_of_empty_queue (s := s.setEvents rest) idle queue⟩

/-! ### Where a micro-operation stops -/

theorem word64_eq_none {k : Nat} (h : s.buf.length < k + 8) : word64 s k = none := by
  refine Option.eq_none_iff_forall_ne_some.mpr fun w hw => ?_
  have := ((wordAssemblyIsLittleEndian s k).2).mp ⟨w, hw⟩
  omega

/-- Settles O14: the branches of the five meanings other than the next state. -/
theorem microOperationStops : Obligations.MicroOperationStops := by
  intro s c
  have outside {k : Nat} (h : s.buf.length ≤ k) : bufRead s k = none := List.getElem?_eq_none h
  refine ⟨fun off => ?_, fun off => ?_, fun arch => ⟨?_, ?_⟩, fun arch off => ?_, fun arch off => ?_, fun off => ?_,
    fun on short => ?_, fun on left init => ?_, fun arch on short => ?_, fun arch on short => ?_⟩
  · simp [exec, execChinit, off]
  · simp [exec, execSwstep, off]
  · simp [exec, execHwstep8, arch]
  · simp [exec, execHwstep64, arch]
  · simp [exec, execHwstep8, arch, off]
  · simp [exec, execHwstep64, arch, off]
  · simp [exec, execChfin, off]
  · simp [exec, execSwstep, on, outside short]
  · have byte : bufRead s (s.pos.get c) = some s.buf[s.pos.get c] := List.getElem?_eq_getElem left
    simp [exec, execSwstep, on, byte, tableOf, init]
  · simp [exec, execHwstep8, arch, on, outside short]
  · simp [exec, execHwstep64, arch, on, word64_eq_none short]

/-! ### The acceptance of the commands, and the probe -/

/-- Settles O17: the accepted `INIT` is `beginInit`. -/
theorem initStartsTheGenerator : Obligations.InitStartsTheGenerator := fun _ halt busy done => exec_init halt busy done

/-- Settles O30: the three commands start the same call, each on its engine. -/
theorem checksumCommandsStartACall : Obligations.ChecksumCommandsStartACall := by
  intro s seed len data halt busy init bound whole
  refine ⟨exec_crc32cSw_starts halt busy init bound whole seed, exec_crc32cHw_starts halt busy init bound whole seed, ?_⟩
  rw [← selectEngine_eq]
  exact exec_crc32c_starts halt busy init bound whole seed

/-- The answer of `DETECT`, written out (R140). -/
theorem detectAnswer_selectEngine (c : Cfg) : detectAnswer (selectEngine c) =
    if c.target.arch ≠ .none ∧ c.target.hwCap = true ∧ c.hwEn = true then 1#32 else 0#32 := by
  rw [selectEngine_eq, apply_ite detectAnswer]
  rfl

/-- Settles O43: the word by the map of R93, the refusal by the admission of R102, and `CFG` is kept by every step. -/
theorem detectAnswersTheSelection : Obligations.DetectAnswersTheSelection := by
  intro s
  refine ⟨fun a b c data => decodeCommand_eq_ok.mpr (cwOp_append a b c 0x06#8),
    (admittedExactlyWhenTheSpecSays s .detect rfl rfl).2.mpr, fun halt busy => ?_, fun t h => step_cfg h⟩
  rw [← detectAnswer_selectEngine]
  exact execDetect_next.mpr ⟨halt, busy, rfl⟩

end Sys2Proof.Machine

/-! PROOFS: the Software Engine (42_software_engine.md) and what both engines share: the micro-operations of a channel
(R160 to R162), the accumulator as the fold of the bytes consumed (R164), the whole `CRC32C.SW` (R163), and that the channel
schedule does not matter (R164). -/

namespace Sys2Proof.Machine

variable {s t : State} {c : Channel}

/-! ### The accumulator of the bytes consumed -/

/-- The byte step of channel `c`: by its own table on the Software Engine, the 8-bit form on the Hardware Engine (R161,
43_hardware_engine.md R180). -/
def State.byteStep (s : State) (c : Channel) : Word → Byte → Word :=
  match s.eng with
  | .sw => swStep (s.tbl.get c)
  | .hw => hw8

theorem byteStep_of_sw (eng : s.eng = .sw) : s.byteStep c = swStep (s.tbl.get c) := by simp only [State.byteStep, eng]

theorem byteStep_of_hw (eng : s.eng = .hw) : s.byteStep c = hw8 := by simp only [State.byteStep, eng]

theorem accAfter_eq_foldl (s : State) (c : Channel) (bs : List Byte) :
    accAfter s c bs = bs.foldl (s.byteStep c) (~~~s.seed) := by
  unfold accAfter State.byteStep
  cases s.eng <;> rfl

theorem accAfter_append (bs bs' : List Byte) :
    accAfter s c (bs ++ bs') = bs'.foldl (s.byteStep c) (accAfter s c bs) := by
  simp only [accAfter_eq_foldl, List.foldl_append]

/-- One byte more is one byte step more. -/
theorem accAfter_take_succ {k : Nat} {b : Byte} (hb : s.buf[k]? = some b) :
    accAfter s c (s.buf.take (k + 1)) = s.byteStep c (accAfter s c (s.buf.take k)) b := by
  rw [List.take_add_one, hb, accAfter_append]
  rfl

/-- On the Hardware Engine one word more is one word step more (43_hardware_engine.md R182). -/
theorem accAfter_take_word (eng : s.eng = .hw) {k : Nat} {w : BitVec 64} (hw : word64 s k = some w) :
    accAfter s c (s.buf.take (k + 8)) = hw64 (accAfter s c (s.buf.take k)) w := by
  obtain ⟨b0, b1, b2, b3, b4, b5, b6, b7, rfl, eight⟩ := word64_eq_some hw
  rw [List.take_add, eight, accAfter_append, byteStep_of_hw eng, hw64_assemble]

/-! ### The accumulators stay those of the bytes consumed -/

/-- The fields `AccumulatorInv` speaks of. -/
def State.consumption (s : State) : Top × Tri ChPhase × (Tri Word × Tri Nat) × (Engine × Tri Table) ×
    (Word × Nat × List Byte) :=
  (s.top, s.chp, (s.acc, s.pos), (s.eng, s.tbl), (s.seed, s.len, s.buf))

theorem AccumulatorInv.of_consumption_eq (h : AccumulatorInv s) (e : t.consumption = s.consumption) :
    AccumulatorInv t := by
  cases s
  cases t
  simp only [State.consumption, Prod.mk.injEq] at e
  obtain ⟨rfl, rfl, ⟨rfl, rfl⟩, ⟨rfl, rfl⟩, rfl, rfl, rfl⟩ := e
  exact ⟨h.acc_of_consumed, h.done_consumed_all⟩

/-- Outside a running call there is nothing to keep. -/
theorem AccumulatorInv.of_not_run (h : t.top ≠ .run) : AccumulatorInv t :=
  ⟨fun run => absurd run h, fun run => absurd run h⟩

/-- Before the first `CHINIT` there is nothing to keep. -/
theorem AccumulatorInv.of_channels_idle (idle : t.chp = Tri.all .chIdle) : AccumulatorInv t := by
  constructor <;> simp [idle]

@[simp] theorem State.setChannel_acc_same (x : ChannelData) : (s.setChannel c x).acc.get c = x.acc :=
  Tri.get_set_same ..

@[simp] theorem State.setChannel_res_same (x : ChannelData) : (s.setChannel c x).res.get c = x.res :=
  Tri.get_set_same ..

@[simp] theorem State.setChannel_chp_same (x : ChannelData) : (s.setChannel c x).chp.get c = x.chp :=
  Tri.get_set_same ..

@[simp] theorem State.setChannel_pos_same (x : ChannelData) : (s.setChannel c x).pos.get c = x.pos :=
  Tri.get_set_same ..

/-- One channel goes on to the accumulator of the bytes before its new position; it is done only at the end of the
buffer. -/
theorem AccumulatorInv.setChannel (h : AccumulatorInv s) {x : ChannelData}
    (acc : x.acc = accAfter s c (s.buf.take x.pos)) (done : x.chp = .chDone → x.pos = s.len) :
    AccumulatorInv (s.setChannel c x) where
  acc_of_consumed run d started := by
    by_cases hd : d = c
    · subst hd
      rw [State.setChannel_acc_same, State.setChannel_pos_same]
      exact acc
    · rw [State.setChannel_chp_other x hd] at started
      rw [State.setChannel_acc_other x hd, State.setChannel_pos_other x hd]
      exact h.acc_of_consumed run d started
  done_consumed_all run d hdone := by
    by_cases hd : d = c
    · subst hd
      rw [State.setChannel_chp_same] at hdone
      rw [State.setChannel_pos_same]
      exact done hdone
    · rw [State.setChannel_chp_other x hd] at hdone
      rw [State.setChannel_pos_other x hd]
      exact h.done_consumed_all run d hdone

/-- A running channel consumes the bytes up to its new position. -/
theorem AccumulatorInv.consume (h : AccumulatorInv s) (going : s.chp.get c = .chRun) {a : Word} {p : Nat}
    (acc : a = accAfter s c (s.buf.take p)) : AccumulatorInv ((s.setAcc c a).setPos c p) := by
  rw [State.consume_eq_setChannel]
  exact h.setChannel acc (by simp [State.channel, going])

/-- The Voter ends in the idle or in the halted block. -/
theorem applyVote_top (s : State) : s.applyVote.top = .idle ∨ s.applyVote.top = .halted := by
  obtain ⟨v, -, h⟩ | ⟨-, h⟩ := applyVote_cases s <;> simp [h]

theorem applyVote_top_ne_run (s : State) : s.applyVote.top ≠ .run := by
  obtain h | h := applyVote_top s <;> simp [h]

/-- Every row of R149 keeps the accumulators. -/
theorem Row.keeps_accumulators (h : Row s t) (hc : ControlInv s) (hs : AccumulatorInv s) : AccumulatorInv t := by
  cases h with
  | masks eRes eTbl => exact hs.of_consumption_eq rfl
  | initStart halt busy done => exact .of_not_run (by simp)
  | callTooLarge halt busy done => exact .of_not_run (by simp)
  | callStart eng seed len data halt busy done bound fits exists_ =>
    exact .of_channels_idle (hc.channels_idle (.inl (hc.idle halt busy)))
  | vote r0 r1 r2 halt busy => exact .of_not_run (applyVote_top_ne_run _)
  | probe v halt busy => exact hs.of_consumption_eq rfl
  | pure v running => exact hs.of_consumption_eq rfl
  | build gen loop =>
    obtain ⟨_, _, _, _, e⟩ := storeEntry_eq (s.setGx (tblEntry s.gi))
    exact .of_not_run (by simp [e, gen])
  | check gen loop =>
    obtain ⟨_, _, _, e⟩ | e := checkEntry_eq s <;> exact .of_not_run (by simp [e, gen])
  | finish gen loop => exact .of_not_run (by simp)
  | chinit c run idle =>
    rw [State.start_eq_setChannel]
    exact hs.setChannel (accAfter_eq_foldl s c []).symm (by simp)
  | swstep c b run going eng left byte =>
    refine hs.consume going ?_
    rw [accAfter_take_succ byte, byteStep_of_sw eng, hs.acc_of_consumed run c (by simp [going])]
  | hwstep8 c b run going eng left few byte =>
    refine hs.consume going ?_
    rw [accAfter_take_succ byte, byteStep_of_hw eng, hs.acc_of_consumed run c (by simp [going])]
  | hwstep64 c w run going eng left word =>
    refine hs.consume going ?_
    rw [accAfter_take_word eng word, hs.acc_of_consumed run c (by simp [going])]
  | chfin c run going atEnd =>
    rw [State.latch_eq_setChannel]
    exact hs.setChannel (hs.acc_of_consumed run c (by simp [going])) (fun _ => atEnd)
  | toVoting run done => exact .of_not_run (by simp)
  | voter voting => exact .of_not_run (applyVote_top_ne_run s)
  | wait idle => exact hs

/-- Settles O58: with the consistency of the control every row keeps the accumulators, and after reset no call runs. -/
theorem stepKeepsAccumulators : Obligations.StepKeepsAccumulators := by
  intro s t hc hs h
  obtain ⟨-, ht⟩ := step_keeps_of_rows (P := fun s => ControlInv s ∧ AccumulatorInv s)
    (fun s _ => ⟨.applyReset s, .of_channels_idle rfl⟩)
    (fun _ es q eRes eTbl ⟨hc, hs⟩ => ⟨hc.ports es q eRes eTbl, hs.of_consumption_eq rfl⟩)
    (fun _ _ ⟨hc, hs⟩ hr => ⟨hr.keeps_control hc, hr.keeps_accumulators hc hs⟩) ⟨hc, hs⟩ h
  exact ht

/-- At the end of the buffer a started channel has consumed all of it. -/
theorem AccumulatorInv.acc_at_end (h : AccumulatorInv s) (run : s.top = .run) (started : s.chp.get c ≠ .chIdle)
    (atEnd : s.pos.get c = s.len) (whole : s.buf.length = s.len) : s.acc.get c = accAfter s c s.buf := by
  rw [h.acc_of_consumed run c started, atEnd, ← whole, List.take_length]

/-- Settles O27: `CHFIN` latches the complement of the accumulator, which is that of the whole buffer. -/
theorem channelEndsWithTheReference : Obligations.ChannelEndsWithTheReference := by
  intro s c hs good mask whole run going atEnd
  have acc := hs.acc_at_end run (by simp [going]) atEnd whole
  refine ⟨_, execChfin_next.mpr ⟨chfinEnabled_iff.mpr ⟨run, going, atEnd⟩, rfl⟩, ?_⟩
  simp [mask, acc, not_accAfter_eq_ref (fun _ => good)]

/-! ### The micro-operations of a channel -/

/-- Settles O21: the word by the map of R98, the step by the row of `CHINIT`, the refusal by O14. -/
theorem chinitStartsTheChannel : Obligations.ChinitStartsTheChannel := by
  intro s c
  obtain ⟨refused, -⟩ := microOperationStops s c
  refine ⟨decodeMicro_eq_ok.mpr ⟨uwOp_append .., uwCh_append ..⟩, fun run idle => ?_, fun off => refused ?_⟩
  · have complement : s.seed ^^^ 0xFFFFFFFF#32 = ~~~s.seed := BitVec.xor_allOnes
    rw [complement]
    exact execChinit_next.mpr ⟨chinitEnabled_iff.mpr ⟨run, idle⟩, rfl⟩
  · rwa [← Bool.not_eq_true, chinitEnabled_iff]

/-- Settles O22: the word by the map of R98, the step by the row of `SWSTEP` with the index of the read written out, the
refusal by O14. -/
theorem swstepConsumesOneByte : Obligations.SwstepConsumesOneByte := by
  intro s c b
  obtain ⟨-, refused, -⟩ := microOperationStops s c
  refine ⟨decodeMicro_eq_ok.mpr ⟨uwOp_append .., uwCh_append ..⟩, fun run going eng left byte init => ?_,
    fun off => refused ?_⟩
  · rw [← swIndex_eq]
    exact execSwstep_next.mpr ⟨swstepEnabled_iff.mpr ⟨run, going, eng, left⟩, init, b, byte, rfl⟩
  · rwa [← Bool.not_eq_true, swstepEnabled_iff]

/-- Settles O26: the word by the map of R98, the step by the row of `CHFIN`, the refusal by O14. -/
theorem chfinLatchesTheResult : Obligations.ChfinLatchesTheResult := by
  intro s c
  obtain ⟨-, -, -, -, -, refused, -⟩ := microOperationStops s c
  refine ⟨decodeMicro_eq_ok.mpr ⟨uwOp_append .., uwCh_append ..⟩, fun run going atEnd => ?_, fun off => refused ?_⟩
  · exact execChfin_next.mpr ⟨chfinEnabled_iff.mpr ⟨run, going, atEnd⟩, rfl⟩
  · rwa [← Bool.not_eq_true, chfinEnabled_iff]

/-! ### The whole call under every mask -/

@[simp] theorem applyVote_rspCount (s : State) : s.applyVote.rspCount = s.rspCount + 1 := by
  obtain ⟨v, -, h⟩ | ⟨-, h⟩ := applyVote_cases s <;> rw [h] <;> rfl

/-- Where the three results differ the Voter raises `NO_MAJORITY` (44_tmr_voter.md R212). -/
theorem DecidesCall.applyVote_eq_fatal {g : Word} {w : State} (h : DecidesCall s g w)
    (vote : voteOf (s.upset g .c0) (s.upset g .c1) (s.upset g .c2) = none) :
    w.applyVote = w.raiseFatal .noMajority := by
  obtain ⟨v, hv, -⟩ | ⟨-, e⟩ := applyVote_cases w
  · rw [h.results, vote] at hv
    cases hv
  · exact e

section Answer

variable {g : Word} {w : State} (h : DecidesCall s g w) (ready : s.Ready)
include h ready

/-- The answer of a call whose results have a majority. -/
theorem DecidesCall.answer {v : Word} (vote : voteOf (s.upset g .c0) (s.upset g .c1) (s.upset g .c2) = some v) :
    w.applyVote.Ready ∧ w.applyVote.status.valid = true ∧ w.applyVote.cksum = v ∧
      w.applyVote.rsp = some (.value v) := by
  rw [h.applyVote_eq vote]
  exact ⟨h.ready ready v, rfl, rfl, rfl⟩

/-- The halt of a call whose results have none. -/
theorem DecidesCall.noMajority (vote : voteOf (s.upset g .c0) (s.upset g .c1) (s.upset g .c2) = none) :
    w.applyVote.top = .halted ∧ w.applyVote.rsp = some (.fatal .noMajority) ∧ w.applyVote.status =
      { initDone := true, valid := false, halt := true, cause := .noMajority, busy := false } := by
  have ⟨_, _, init, _, _, _⟩ := ready
  rw [h.applyVote_eq_fatal vote]
  exact ⟨rfl, rfl, by simp [h.status, init]⟩

end Answer

/-- Settles O32: the call on the Software Engine comes to the Voter, which answers or halts and leaves the surroundings
alone. -/
theorem softwareCallAnswersTheVote : Obligations.SoftwareCallAnswersTheVote := by
  intro s seed len data g ready alone good bound whole hg
  have ⟨_, _, init, halt, busy, _⟩ := ready
  have ⟨no_events, _⟩ := alone
  obtain ⟨w, hrun, decides⟩ := run_accepted_call (eng := .sw) ready alone (fun _ => good) nofun whole hg
  obtain ⟨tbl, cfg, ⟨wcpbHw, wcpbSw⟩, gx, ⟨eRes, eTbl⟩, events, queue⟩ :=
    surroundings_eq.mp ((applyVote_surroundings w).trans decides.surroundings)
  have count : w.applyVote.rspCount = s.rspCount + 1 := by rw [applyVote_rspCount, decides.count]
  exact ⟨_, w.applyVote, exec_crc32cSw_starts halt busy init bound whole seed, hrun, fun _ => decides.answer ready,
    decides.noMajority ready, tbl, cfg, wcpbHw, wcpbSw, gx, count, eRes, eTbl, events.trans no_events, queue⟩

/-! ### A step that only the channel schedule reaches -/

/-- One step outside `INIT` of a block that nothing but the channel schedule reaches; what was due is already taken from
`s`. -/
inductive ScheduledStep (s : State) : State → Prop
  /-- A micro-operation of a channel, named by the schedule or selected by the sequencer. -/
  | channel {i : Instr} {c : Channel} {t : State} (hi : channelOf i = some c) (h : exec i s = .next t) : ScheduledStep s t
  /-- A pure micro-operation. -/
  | pure (v : Word) : ScheduledStep s (s.setGx v)
  /-- All channels done. -/
  | toVoting (run : s.top = .run) (done : s.chp = Tri.all .chDone) : ScheduledStep s (s.setTop .voting)
  /-- The Voter. -/
  | voter (voting : s.top = .voting) : ScheduledStep s s.applyVote
  /-- Nothing to do. -/
  | wait (idle : s.top = .idle) : ScheduledStep s s

/-- Outside the building loop a micro-operation that the sequencer runs is one of a channel or a pure one. -/
theorem scheduledStep_of_runMicro {i : Instr} (hi : isHostCommand i = false) (gen : s.top ≠ .gen)
    (h : runMicro i s = .next t) : ScheduledStep s t := by
  have halted : s.top ≠ .halted := (runMicro_next.mp h).1
  rw [runMicro_of_not_building halted (fun building => gen (building_iff.mp building.2).1)] at h
  cases i
  case tblbit | tblent =>
    cases h
    exact .pure _
  case chinit | swstep | hwstep8 | hwstep64 | chfin => exact .channel rfl h
  all_goals cases hi

theorem scheduledStep_of_advance (queue : s.hostQueue = []) (gen : s.top ≠ .gen) (h : advance s = .next t) :
    ScheduledStep s t := by
  cases top : s.top with
  | idle =>
    cases (advance_of_empty_queue top queue).symm.trans h
    exact .wait top
  | gen => exact absurd top gen
  | run =>
    cases next : nextMicro s with
    | some i =>
      obtain ⟨c, hc⟩ := nextMicro_some next
      exact scheduledStep_of_runMicro (enabledMicro_channel hc).2 gen ((advance_of_nextMicro top next).symm.trans h)
    | none =>
      simp only [advance, top, runChannels, next] at h
      split at h
      case isTrue done =>
        cases h
        exact .toVoting top (allDone_iff.mp done)
      case isFalse => cases h
  | voting =>
    simp only [advance, top] at h
    cases h
    exact .voter top
  | halted =>
    simp only [advance, top] at h
    cases h

/-- A step that only the channel schedule reaches takes what is due, and is one of `ScheduledStep`. -/
theorem step_scheduled (only : s.OnlyScheduled) (queue : s.hostQueue = []) (gen : s.top ≠ .gen)
    (h : step s = .next t) : ∃ rest, (s.setEvents rest).OnlyScheduled ∧ ScheduledStep (s.setEvents rest) t := by
  obtain ⟨hs, -⟩ := step_next.mp h
  cases events : s.events with
  | nil =>
    rw [step_of_proceeds hs (.inr ⟨events, rfl⟩)] at h
    exact ⟨[], by simp [State.OnlyScheduled], scheduledStep_of_advance (s := s.setEvents []) queue gen h⟩
  | cons e rest =>
    rw [State.OnlyScheduled, events] at only
    refine ⟨rest, fun e' he' => only e' (List.mem_cons_of_mem e he'), ?_⟩
    rw [step_of_event hs events] at h
    obtain rfl | ⟨uw, rfl⟩ := only e List.mem_cons_self
    · exact scheduledStep_of_advance (s := s.setEvents rest) queue gen h
    · have issued : issue uw (s.setEvents rest) = .next t := h
      cases decoded : decodeMicro uw with
      | ok i =>
        rw [issue_of_decode decoded] at issued
        exact scheduledStep_of_runMicro (s := s.setEvents rest) (decodeMicro_isMicro decoded) gen issued
      | error e =>
        rw [issue_of_error decoded] at issued
        cases issued

/-- Such a step adds nothing to what is pending. -/
theorem ScheduledStep.pending_eq (h : ScheduledStep s t) : t.events = s.events ∧ t.hostQueue = s.hostQueue := by
  cases h with
  | channel hi h =>
    obtain ⟨x, rfl, -⟩ := exec_eq_setChannel hi h
    exact ⟨rfl, rfl⟩
  | voter voting =>
    obtain ⟨-, -, -, -, -, pending⟩ := surroundings_eq.mp (applyVote_surroundings s)
    exact pending
  | _ => exact ⟨rfl, rfl⟩

/-- Such a step starts no `INIT`. -/
theorem ScheduledStep.top_ne_gen (h : ScheduledStep s t) (gen : s.top ≠ .gen) : t.top ≠ .gen := by
  cases h with
  | channel hi h =>
    obtain ⟨x, rfl, -⟩ := exec_eq_setChannel hi h
    exact gen
  | toVoting run done => simp
  | voter voting => exact applyVote_top_ne_gen s
  | _ => exact gen

/-! ### The result a channel will end with -/

/-- The result channel `c` of a call ends with, whatever is done in which order from here: the one it has latched, or the one
it will latch at the end of the buffer. -/
def State.finalResult (s : State) (c : Channel) : Word :=
  if s.chp.get c = .chDone then s.res.get c else ~~~(accAfter s c s.buf) ^^^ s.eRes.get c

theorem finalResult_of_done (done : s.chp.get c = .chDone) : s.finalResult c = s.res.get c := if_pos done

theorem finalResult_of_not_done (h : s.chp.get c ≠ .chDone) :
    s.finalResult c = ~~~(accAfter s c s.buf) ^^^ s.eRes.get c := if_neg h

/-- A channel that is not done and stays so, or latches the result it was to latch, leaves every channel's final result. -/
theorem finalResult_setChannel {x : ChannelData} (not_done : s.chp.get c ≠ .chDone)
    (latch : x.chp = .chDone → x.res = s.finalResult c) (d : Channel) :
    (s.setChannel c x).finalResult d = s.finalResult d := by
  by_cases hd : d = c
  · subst hd
    by_cases hx : x.chp = .chDone
    · rw [finalResult_of_done (by simpa using hx), State.setChannel_res_same, latch hx]
    · rw [finalResult_of_not_done (by simpa using hx), finalResult_of_not_done not_done]
      rfl
  · simp only [State.finalResult, State.setChannel, Tri.get_set_other _ _ hd]
    rfl

/-- Consuming bytes leaves them: a final result that is not latched yet counts on the whole buffer. -/
theorem finalResult_consume (going : s.chp.get c = .chRun) (a : Word) (p : Nat) (d : Channel) :
    ((s.setAcc c a).setPos c p).finalResult d = s.finalResult d := by
  rw [State.consume_eq_setChannel]
  exact finalResult_setChannel (by simp [going]) (by simp [State.channel, going]) d

/-- A micro-operation of a channel leaves every channel's final result: at the end of the buffer `CHFIN` latches the one
it was to latch. -/
theorem exec_channel_finalResult {i : Instr} (hc : ControlInv s) (hs : AccumulatorInv s) (hi : channelOf i = some c)
    (h : exec i s = .next t) (d : Channel) : t.finalResult d = s.finalResult d := by
  cases i with
  | chinit c =>
    obtain ⟨enabled, rfl⟩ := execChinit_next.mp h
    obtain ⟨-, idle⟩ := chinitEnabled_iff.mp enabled
    rw [State.start_eq_setChannel]
    exact finalResult_setChannel (by simp [idle]) (by simp) d
  | swstep c =>
    obtain ⟨enabled, -, b, -, rfl⟩ := execSwstep_next.mp h
    obtain ⟨-, going, -⟩ := swstepEnabled_iff.mp enabled
    exact finalResult_consume going _ _ d
  | hwstep8 c =>
    obtain ⟨-, enabled, b, -, rfl⟩ := execHwstep8_next.mp h
    obtain ⟨-, going, -⟩ := hwstep8Enabled_iff.mp enabled
    exact finalResult_consume going _ _ d
  | hwstep64 c =>
    obtain ⟨-, enabled, w, -, rfl⟩ := execHwstep64_next.mp h
    obtain ⟨-, going, -⟩ := hwstep64Enabled_iff.mp enabled
    exact finalResult_consume going _ _ d
  | chfin c =>
    obtain ⟨enabled, rfl⟩ := execChfin_next.mp h
    obtain ⟨run, going, atEnd⟩ := chfinEnabled_iff.mp enabled
    obtain ⟨whole, -⟩ := hc.buffer_whole run
    have not_done : s.chp.get c ≠ .chDone := by simp [going]
    have acc := hs.acc_at_end run (by simp [going]) atEnd whole
    rw [State.latch_eq_setChannel]
    exact finalResult_setChannel not_done (fun _ => by rw [finalResult_of_not_done not_done, acc]) d
  | _ => cases hi

/-- A step that only the channel schedule reaches and after which the call goes on is a step of the call, and leaves every
channel's final result. -/
theorem ScheduledStep.keeps_finalResult (h : ScheduledStep s t) (hc : ControlInv s) (hs : AccumulatorInv s)
    (call : t.top = .run ∨ t.top = .voting) :
    (s.top = .run ∨ s.top = .voting) ∧ ∀ c, t.finalResult c = s.finalResult c := by
  cases h with
  | channel hi h =>
    refine ⟨?_, exec_channel_finalResult hc hs hi h⟩
    obtain ⟨x, rfl, -⟩ := exec_eq_setChannel hi h
    exact call
  | pure v => exact ⟨call, fun _ => rfl⟩
  | toVoting run done => exact ⟨.inl run, fun _ => rfl⟩
  | voter voting => obtain top | top := applyVote_top s <;> simp [top] at call
  | wait idle => exact ⟨call, fun _ => rfl⟩

/-! ### Every schedule -/

/-- What every step keeps of a block that nothing but the channel schedule reaches: it is consistent, and while a call goes
on its channels will end with the results `r`. -/
structure ScheduledCall (r : Channel → Word) (s : State) : Prop where
  control : ControlInv s
  accumulators : AccumulatorInv s
  only : s.OnlyScheduled
  queue : s.hostQueue = []
  not_gen : s.top ≠ .gen
  results : s.top = .run ∨ s.top = .voting → ∀ c, s.finalResult c = r c

theorem ScheduledCall.step {r : Channel → Word} (h : ScheduledCall r s) (ht : step s = .next t) :
    ScheduledCall r t := by
  obtain ⟨rest, only, hstep⟩ := step_scheduled h.only h.queue h.not_gen ht
  obtain ⟨events, queue⟩ := hstep.pending_eq
  exact {
    control := stepKeepsControl s t h.control ht
    accumulators := stepKeepsAccumulators s t h.control h.accumulators ht
    only := fun e he => only e (events ▸ he)
    queue := queue.trans h.queue
    not_gen := hstep.top_ne_gen h.not_gen
    results := fun call c => by
      obtain ⟨call', same⟩ := hstep.keeps_finalResult (h.control.of_control_eq rfl)
        (h.accumulators.of_consumption_eq rfl) call
      exact (same c).trans (h.results call' c) }

/-- A run under any schedule that reaches the Voter holds the final results of the state it started in. -/
theorem res_of_scheduled_run {u : State} {e : List Event} {n : Nat} (hc : ControlInv s) (hs : AccumulatorInv s)
    (run : s.top = .run) (queue : s.hostQueue = []) (only : ∀ x ∈ e, x = .proceed ∨ ∃ uw, x = .uop uw)
    (hrun : Host.Core.run core n { s with events := e } = .next u) (voting : u.top = .voting) (c : Channel) :
    u.res.get c = s.finalResult c := by
  have start : ScheduledCall s.finalResult { s with events := e } :=
    ⟨hc.of_control_eq rfl, hs.of_consumption_eq rfl, only, queue, by simp [run], fun _ _ => rfl⟩
  have atEnd : ScheduledCall s.finalResult u := run_keeps (fun _ _ h ht => h.step ht) n _ u start hrun
  have done : u.chp.get c = .chDone := by simp [atEnd.control.channels_done voting]
  exact (finalResult_of_done done).symm.trans (atEnd.results (.inr voting) c)

/-- Settles O38: under either schedule the results are the final results of the common start. -/
theorem scheduleDoesNotMatter : Obligations.ScheduleDoesNotMatter := by
  intro s u u' e e' n n' hc hs run queue only only' hrun voting hrun' voting'
  refine Tri.ext_get fun c => ?_
  rw [res_of_scheduled_run hc hs run queue only hrun voting, res_of_scheduled_run hc hs run queue only' hrun' voting']

end Sys2Proof.Machine

/-! PROOFS: the Hardware Engine (43_hardware_engine.md): the whole `CRC32C.HW` (R182, R183), that both engines answer the
same (R186), the static check of a pending sequence (R184), the definition of `Hw64` without the byte loop (R181), and the
two micro-operations (R180, R181). -/

namespace Sys2Proof.Machine

variable {s : State}

/-! ### The whole call under every mask -/

/-- Settles O33: the call on the Hardware Engine, which asks nothing of the tables, comes to the Voter as that of the
Software Engine does. -/
theorem hardwareCallAnswersTheVote : Obligations.HardwareCallAnswersTheVote := by
  intro s seed len data g ready alone arch cap bound whole hg
  have ⟨_, _, init, halt, busy, _⟩ := ready
  have ⟨no_events, _⟩ := alone
  obtain ⟨w, hrun, decides⟩ := run_accepted_call (eng := .hw) ready alone nofun (fun _ => arch) whole hg
  obtain ⟨tbl, cfg, ⟨wcpbHw, wcpbSw⟩, gx, ⟨eRes, eTbl⟩, events, queue⟩ :=
    surroundings_eq.mp ((applyVote_surroundings w).trans decides.surroundings)
  have count : w.applyVote.rspCount = s.rspCount + 1 := by rw [applyVote_rspCount, decides.count]
  exact ⟨_, w.applyVote, exec_crc32cHw_starts halt busy init bound whole seed arch cap, hrun,
    fun _ => decides.answer ready, decides.noMajority ready, tbl, cfg, wcpbHw, wcpbSw, gx, count, eRes, eTbl,
    events.trans no_events, queue⟩

/-! ### The two engines -/

/-- Without a mask the three results agree on the fault-free one. -/
theorem voteOf_upset_of_zero (zero : s.eRes = Tri.all 0#32) (g : Word) :
    voteOf (s.upset g .c0) (s.upset g .c1) (s.upset g .c2) = some g := by
  simp only [upset_of_zero zero, voteOf, if_true]

/-- A word step on `Word64(k)` is the 8-bit form on the bytes from `k`, in ascending order (R181, 20_memory.md R65). -/
theorem hw64_of_word64 {k : Nat} {w : BitVec 64} (h : word64 s k = some w) (crc : Word) :
    hw64 crc w = ((s.buf.drop k).take 8).foldl hw8 crc := by
  obtain ⟨b0, b1, b2, b3, b4, b5, b6, b7, rfl, eight⟩ := word64_eq_some h
  rw [hw64_assemble, eight]

/-- Settles O36: without a mask the vote of either whole call, O33's and O32's, is the reference. -/
theorem enginesAnswerTheSame : Obligations.EnginesAnswerTheSame := by
  refine ⟨hw8_eq_swStep, fun _ _ _ crc h => hw64_of_word64 h crc, ?_⟩
  intro s seed len data ready alone good zero arch cap bound whole
  have vote := voteOf_upset_of_zero zero (crc32cRef seed data)
  obtain ⟨t, u, accepted, hrun, answer, -⟩ :=
    hardwareCallAnswersTheVote s seed len data _ ready alone arch cap bound whole rfl
  obtain ⟨t', u', accepted', hrun', answer', -⟩ :=
    softwareCallAnswersTheVote s seed len data _ ready alone good bound whole rfl
  obtain ⟨-, -, -, rsp⟩ := answer _ vote
  obtain ⟨-, -, -, rsp'⟩ := answer' _ vote
  exact ⟨t, u, t', u', accepted, hrun, accepted', hrun', rsp, rsp'⟩

/-! ### The static check -/

theorem event_instr?_eq_some {e : Event} {i : Instr} :
    e.instr? = some i ↔
      (∃ a, e = .command a ∧ decodeCommand a.cmd = .ok i) ∨ (∃ uw, e = .uop uw ∧ decodeMicro uw = .ok i) := by
  cases e <;> simp [Event.instr?, toOption_eq_some]

/-- The pending sequence: what a due command, a queued command or a scheduled word decodes to. -/
theorem mem_sequence {i : Instr} : i ∈ s.sequence ↔
    (∃ a : Arrival, (.command a ∈ s.events ∨ a ∈ s.hostQueue) ∧ decodeCommand a.cmd = .ok i) ∨
    (∃ uw : BitVec 6, .uop uw ∈ s.events ∧ decodeMicro uw = .ok i) := by
  simp only [State.sequence, List.mem_append, List.mem_filterMap, event_instr?_eq_some, toOption_eq_some]
  constructor
  · rintro (⟨_, he, ⟨a, rfl, h⟩ | ⟨uw, rfl, h⟩⟩ | ⟨a, ha, h⟩)
    · exact .inl ⟨a, .inl he, h⟩
    · exact .inr ⟨uw, he, h⟩
    · exact .inl ⟨a, .inr ha, h⟩
  · rintro (⟨a, he | ha, h⟩ | ⟨uw, he, h⟩)
    · exact .inl ⟨_, he, .inl ⟨a, rfl, h⟩⟩
    · exact .inr ⟨a, ha, h⟩
    · exact .inl ⟨_, he, .inr ⟨uw, rfl, h⟩⟩

/-- The instructions of the Hardware Engine: the three that do not exist where `ARCH = NONE` (R184). -/
def OfHardwareEngine (i : Instr) : Prop :=
  (∃ seed len data, i = .crc32cHw seed len data) ∨ (∃ c, i = .hwstep8 c) ∨ ∃ c, i = .hwstep64 c

theorem existsIn_iff {g : Target} {i : Instr} :
    i.existsIn g = true ↔ g.arch ≠ .none ∨ ¬ OfHardwareEngine i := by
  cases i <;> simp [Instr.existsIn, OfHardwareEngine]

/-- A pending sequence with an instruction that does not exist in the configuration is refused before anything runs. -/
theorem run_refused_of_absent {i : Instr} (hi : i ∈ s.sequence) (absent : ¬ i.existsIn s.cfg.target = true) (n : Nat) :
    Host.Core.run core (n + 1) s = .refused .engineAbsent := by
  have ill : ¬ s.sequenceExists = true := fun h => absent (sequenceExists_iff.mp h i hi)
  have refused : step s = .refused .engineAbsent := if_neg ill
  rw [run_succ_eq, refused]

theorem selectEngine_of_arch_none {c : Cfg} (h : c.target.arch = .none) : selectEngine c = .sw := by
  simp [selectEngine, h]

/-- Settles O59: an instruction of the absent engine fails the check, and nothing else does. -/
theorem illFormedSequencesAreRefused : Obligations.IllFormedSequencesAreRefused := by
  refine fun s => ⟨fun _ => mem_sequence, fun arch => ⟨fun c seed len data hmem n => ?_, fun c => ?_,
    selectEngine_of_arch_none arch⟩, fun wf => step_of_exists (sequenceExists_iff.mpr fun i hi => existsIn_iff.mpr ?_)⟩
  · have refused {i : Instr} (engine : OfHardwareEngine i) (hi : i ∈ s.sequence) :=
      run_refused_of_absent hi (fun h => (existsIn_iff.mp h).elim (absurd arch) (absurd engine)) n
    obtain h | h | h := hmem
    · exact refused (.inl ⟨_, _, _, rfl⟩) h
    · exact refused (.inr (.inl ⟨_, rfl⟩)) h
    · exact refused (.inr (.inr ⟨_, rfl⟩)) h
  · obtain ⟨-, -, absent, -⟩ := microOperationStops s c
    exact absent arch
  · refine wf.imp_right fun none => ?_
    rintro (⟨seed, len, data, rfl⟩ | ⟨c, rfl⟩ | ⟨c, rfl⟩)
    · exact (none .c0 seed len data).1 hi
    · exact (none c 0#32 0#32 []).2.1 hi
    · exact (none c 0#32 0#32 []).2.2 hi

/-! ### The word step without the byte loop -/

/-- One bit iteration on 64 bits, the polynomial zero-extended (R181). -/
def bitStep64 (x : BitVec 64) : BitVec 64 :=
  (x >>> 1) ^^^ (if x.getLsbD 0 = true then Config.poly.setWidth 64 else 0#64)

/-- Where the low bit of `w` is 0, the bit iteration of the zero-extended accumulator is the 32-bit one, and `w` is only
shifted. -/
theorem bitStep64_setWidth_xor (x : Word) {w : BitVec 64} (low : w.getLsbD 0 = false) :
    bitStep64 (x.setWidth 64 ^^^ w) = (bitStep x).setWidth 64 ^^^ w >>> 1 := by
  have shift : (x >>> 1).setWidth 64 = x.setWidth 64 >>> 1 := by
    apply BitVec.eq_of_getLsbD_eq
    intro k hk
    simp
  have select : (x.setWidth 64 ^^^ w).getLsbD 0 = x.getLsbD 0 := by
    rw [BitVec.getLsbD_xor, low, Bool.xor_false, BitVec.getLsbD_setWidth]
    rfl
  rw [bitStep64, select, bitStep_eq_xor, BitVec.ushiftRight_xor_distrib, BitVec.setWidth_xor, shift,
    apply_ite (BitVec.setWidth 64), BitVec.setWidth_zero]
  ac_rfl

/-- Where the `n` low bits of `w` are 0, `n` iterations shift them out. -/
theorem bitStep64_iterate_setWidth_xor (n : Nat) (x : Word) (w : BitVec 64) (low : ∀ k, k < n → w.getLsbD k = false) :
    bitStep64^[n] (x.setWidth 64 ^^^ w) = (bitSteps n x).setWidth 64 ^^^ w >>> n := by
  induction n generalizing x w with
  | zero => simp
  | succ n ih =>
    rw [Function.iterate_succ_apply, bitStep64_setWidth_xor x (low 0 (by omega)), ih, bitSteps_succ, Nat.add_comm n 1,
      BitVec.shiftRight_add]
    intro k hk
    simpa using low (1 + k) (by omega)

/-- A double word is its lowest byte and what stands above it. -/
theorem eq_wordByte_xor_high (w : BitVec 64) : w = (wordByte w 0).setWidth 64 ^^^ (w >>> 8) <<< 8 := by
  apply BitVec.eq_of_getLsbD_eq
  intro k hk
  by_cases low : k < 8
  · simp [wordByte, low, hk]
  · simp [wordByte, low, hk, Nat.add_sub_cancel' (Nat.le_of_not_lt low)]

/-- What stands above the lowest byte is a double word with eight bits less. -/
theorem shiftLeft_shiftRight_high (w : BitVec 64) : ((w >>> 8) <<< 8) >>> 8 = w >>> 8 := by
  apply BitVec.eq_of_getLsbD_eq
  intro k hk
  by_cases inside : 8 + k < 64
  · simp [inside]
  · simp [inside, BitVec.getLsbD_of_ge w (8 + k) (by omega)]

/-- Eight iterations take the lowest byte of `w` into the accumulator by the 8-bit form and shift it out of `w`. -/
theorem bitStep64_iterate_byte (crc : Word) (w : BitVec 64) :
    bitStep64^[8] (crc.setWidth 64 ^^^ w) = (hw8 crc (wordByte w 0)).setWidth 64 ^^^ w >>> 8 := by
  have entered : crc.setWidth 64 ^^^ w =
      (crc ^^^ (wordByte w 0).setWidth 32).setWidth 64 ^^^ (w >>> 8) <<< 8 := by
    rw [BitVec.setWidth_xor, BitVec.setWidth_setWidth (by decide), BitVec.xor_assoc, ← eq_wordByte_xor_high]
  rw [entered, bitStep64_iterate_setWidth_xor 8 _ _ (fun k hk => by simp [hk]), shiftLeft_shiftRight_high, hw8]

/-- Eight iterations a byte, the bytes in ascending order. -/
theorem bitStep64_iterate_bytes (n : Nat) (crc : Word) (w : BitVec 64) :
    bitStep64^[8 * n] (crc.setWidth 64 ^^^ w) =
      ((List.range n).foldl (fun x j => hw8 x (wordByte w j)) crc).setWidth 64 ^^^ w >>> (8 * n) := by
  induction n with
  | zero => simp
  | succ n ih =>
    have byte : wordByte (w >>> (8 * n)) 0 = wordByte w n := by
      apply BitVec.eq_of_getLsbD_eq
      intro k hk
      simp [wordByte]
    rw [Nat.mul_succ, Nat.add_comm, Function.iterate_add_apply, ih, bitStep64_iterate_byte, byte, List.range_succ,
      List.foldl_append, Nat.add_comm, BitVec.shiftRight_add]
    rfl

/-- `Hw64` without the byte loop: 64 bit iterations of the word exclusive-ored with the zero-extended accumulator; the upper
half is then zero (R181). -/
theorem bitStep64_iterate_eq_hw64 (crc : Word) (w : BitVec 64) :
    bitStep64^[64] (crc.setWidth 64 ^^^ w) = (hw64 crc w).setWidth 64 := by
  have gone : w >>> (8 * 8) = 0#64 := BitVec.ushiftRight_eq_zero (by decide)
  have bytes := bitStep64_iterate_bytes 8 crc w
  rwa [gone, BitVec.xor_zero] at bytes

/-! ### The two micro-operations -/

/-- Settles O23: the word by the map of R98, the step by the row of `HWSTEP8`, the refusals by O14. -/
theorem hwstepEightConsumesOneByte : Obligations.HwstepEightConsumesOneByte := by
  intro s c b
  obtain ⟨-, -, absent, refused, -⟩ := microOperationStops s c
  refine ⟨decodeMicro_eq_ok.mpr ⟨uwOp_append .., uwCh_append ..⟩, fun arch run going eng few left byte => ?_,
    fun arch off => refused arch ?_, fun arch => (absent arch).1, fun crc => hw8_eq_swStep crc b⟩
  · exact execHwstep8_next.mpr ⟨arch, hwstep8Enabled_iff.mpr ⟨run, going, eng, left, by omega⟩, b, byte, rfl⟩
  · rw [← Bool.not_eq_true, hwstep8Enabled_iff]
    exact fun ⟨run, going, eng, left, _⟩ => off ⟨run, going, eng, by omega, left⟩

/-- Settles O25: the word by the map of R98, the step by the row of `HWSTEP64` on the word of the eight bytes, the refusals
by O14, the equal definition by eight iterations a byte. -/
theorem hwstepSixtyFourConsumesAWord : Obligations.HwstepSixtyFourConsumesAWord := by
  intro s c b0 b1 b2 b3 b4 b5 b6 b7
  obtain ⟨-, -, absent, -, refused, -⟩ := microOperationStops s c
  have eight (crc : Word) := hw64_assemble crc b0 b1 b2 b3 b4 b5 b6 b7
  refine ⟨decodeMicro_eq_ok.mpr ⟨uwOp_append .., uwCh_append ..⟩,
    fun arch run going eng left h0 h1 h2 h3 h4 h5 h6 h7 => ?_,
    fun arch off => refused arch ?_, fun arch => (absent arch).2, fun crc => ?_⟩
  · have word : word64 s (s.pos.get c) = some (assembleWord b0 b1 b2 b3 b4 b5 b6 b7) := by
      simp only [word64, bufRead, h0, h1, h2, h3, h4, h5, h6, h7]
    have step := execHwstep64_next.mpr ⟨arch, hwstep64Enabled_iff.mpr ⟨run, going, eng, by omega⟩, _, word, rfl⟩
    rw [eight] at step
    exact step
  · rw [← Bool.not_eq_true, hwstep64Enabled_iff]
    exact fun ⟨run, going, eng, _⟩ => off ⟨run, going, eng, by omega⟩
  · have iterated := bitStep64_iterate_eq_hw64 crc (assembleWord b0 b1 b2 b3 b4 b5 b6 b7)
    rw [eight] at iterated
    exact (List.foldl_const bitStep64 _ (List.range 64)).trans iterated

end Sys2Proof.Machine

/-! PROOFS: the Voter (44_tmr_voter.md): the decision rule (R210), the `VOTE` command (R211), the Voter inside a
checksum command (R212), and that an upset in one channel is masked (R214). -/

namespace Sys2Proof.Machine

variable {s t : State}

/-! ### The decision rule -/

/-- The rule answers the value that two operands share (R210). -/
theorem voteOf_eq_some {r0 r1 r2 v : Word} :
    voteOf r0 r1 r2 = some v ↔ r0 = v ∧ r1 = v ∨ r0 = v ∧ r2 = v ∨ r1 = v ∧ r2 = v := by
  unfold voteOf
  by_cases h01 : r0 = r1
  · grind
  · by_cases h02 : r0 = r2 <;> grind

/-- It answers none exactly for pairwise distinct operands (R210). -/
theorem voteOf_eq_none {r0 r1 r2 : Word} : voteOf r0 r1 r2 = none ↔ r0 ≠ r1 ∧ r0 ≠ r2 ∧ r1 ≠ r2 := by
  rw [Option.eq_none_iff_forall_ne_some]
  constructor
  · intro h
    exact ⟨fun e => h r0 (voteOf_eq_some.mpr (.inl ⟨rfl, e.symm⟩)),
      fun e => h r0 (voteOf_eq_some.mpr (.inr (.inl ⟨rfl, e.symm⟩))),
      fun e => h r1 (voteOf_eq_some.mpr (.inr (.inr ⟨rfl, e.symm⟩)))⟩
  · rintro ⟨h01, h02, h12⟩
    simp [voteOf, h01, h02, h12]

/-- Settles O41: the answer is a value that two operands share, in whatever order they stand. -/
theorem voteIsTheMajority : Obligations.VoteIsTheMajority := by
  intro r0 r1 r2
  refine ⟨fun _ => voteOf_eq_some, voteOf_eq_none, fun v h => ?_, Option.ext fun v => ?_, Option.ext fun v => ?_⟩
  · obtain ⟨h0, -⟩ | ⟨h0, -⟩ | ⟨h1, -⟩ := voteOf_eq_some.mp h
    · exact .inl h0.symm
    · exact .inl h0.symm
    · exact .inr (.inl h1.symm)
  · rw [voteOf_eq_some, voteOf_eq_some]
    tauto
  · rw [voteOf_eq_some, voteOf_eq_some]
    tauto

/-! ### The Voter's two outcomes -/

theorem applyVote_of_some {v : Word} (h : voteOf s.res.c0 s.res.c1 s.res.c2 = some v) :
    s.applyVote = s.commitChecksum v := by
  rw [State.applyVote, h]

theorem applyVote_of_none (h : voteOf s.res.c0 s.res.c1 s.res.c2 = none) : s.applyVote = s.raiseFatal .noMajority := by
  rw [State.applyVote, h]

/-- In the idle, not busy block the answer to `VOTE` writes `RES`, `CKSUM`, `VALID` and the response only (R211). -/
theorem commitChecksum_loadResults (busy : s.status.busy = false) (idle : s.top = .idle)
    (chp : s.chp = Tri.all .chIdle) (r0 r1 r2 v : Word) :
    (s.clearValid.loadResults r0 r1 r2).commitChecksum v = { s with
      res := ⟨r0, r1, r2⟩, cksum := v, status := { s.status with valid := true }, rsp := some (.value v)
      rspCount := s.rspCount + 1 } := by
  simp only [State.commitChecksum, State.respond, State.loadResults, State.clearValid, busy, idle, chp]

/-- Settles O40: the word by the map of R93, the refusal by the admission of R102, the two outcomes by the rule on the
loaded operands. -/
theorem voteAnswersTheMajority : Obligations.VoteAnswersTheMajority := by
  intro s r0 r1 r2
  refine ⟨fun data => decodeCommand_eq_ok.mpr
      ⟨cwOp_append r0 r1 r2 0x05#8, cwA_append r0 r1 r2 0x05#8, cwB_append r0 r1 r2 0x05#8, cwC_append r0 r1 r2 0x05#8⟩,
    (admittedExactlyWhenTheSpecSays s (.vote r0 r1 r2) rfl rfl).2.mpr,
    fun halt busy => ⟨fun v equal idle chp => ?_, fun h01 h02 h12 => ?_⟩⟩
  · have vote := applyVote_of_some (s := s.clearValid.loadResults r0 r1 r2) (voteOf_eq_some.mpr equal)
    rw [commitChecksum_loadResults busy idle chp] at vote
    exact execVote_next.mpr ⟨halt, busy, vote.symm⟩
  · have vote := applyVote_of_none (s := s.clearValid.loadResults r0 r1 r2) (voteOf_eq_none.mpr ⟨h01, h02, h12⟩)
    exact ⟨_, execVote_next.mpr ⟨halt, busy, vote.symm⟩, rfl, rfl, rfl⟩

/-! ### The Voter inside a call -/

/-- Where no channel can go on the running block passes to the Voter if all are done (41_dispatcher.md R149). -/
theorem advance_of_nextMicro_none (run : s.top = .run) (h : nextMicro s = none) :
    advance s = if allDone s then .next (s.setTop .voting) else .fault .noRowEnabled := by
  simp only [advance, run, runChannels, h]

theorem advance_of_done (run : s.top = .run) (done : s.chp = Tri.all .chDone) :
    advance s = .next (s.setTop .voting) := by
  rw [advance_of_nextMicro_none run (nextMicro_none.mpr fun c => enabledMicro_of_done (by simp [done])),
    if_pos (allDone_iff.mpr done)]

theorem advance_of_voting (voting : s.top = .voting) : advance s = .next s.applyVote := by
  simp only [advance, voting]

/-- The running block passes to the Voter only when all channels are done: a micro-operation of a channel leaves
`TOP` as it is (R212). -/
theorem done_of_advance_voting (run : s.top = .run) (h : advance s = .next t) (voting : t.top = .voting) :
    s.chp = Tri.all .chDone := by
  cases next : nextMicro s with
  | some i =>
    obtain ⟨c, hc⟩ := nextMicro_some next
    rw [advance_of_nextMicro run next, runMicro_of_nextMicro run next] at h
    obtain ⟨x, rfl, -⟩ := exec_eq_setChannel (enabledMicro_channel hc).1 h
    cases run.symm.trans voting
  | none =>
    rw [advance_of_nextMicro_none run next] at h
    split at h
    case isTrue done => exact allDone_iff.mp done
    case isFalse => cases h

/-- Settles O42: the step is the block's own, in `RUN` the passage to the Voter, in `VOTING` the Voter. -/
theorem voterInsideACall : Obligations.VoterInsideACall := by
  intro s rest hs hp
  rw [step_of_proceeds hs hp]
  refine ⟨fun run done => advance_of_done (s := s.setEvents rest) run done, fun voting v vote => ?_,
    fun voting vote => ?_, fun t run h voting => done_of_advance_voting (s := s.setEvents rest) run h voting⟩
  · rw [advance_of_voting (s := s.setEvents rest) voting, applyVote_of_some (s := s.setEvents rest) vote]
    rfl
  · rw [advance_of_voting (s := s.setEvents rest) voting, applyVote_of_none (s := s.setEvents rest) vote]
    rfl

/-! ### An upset in one channel -/

/-- Two channels that agree outvote the third. -/
theorem voteOf_of_two {f : Channel → Word} {c d : Channel} {g : Word} (other : c ≠ d) (hc : f c = g) (hd : f d = g) :
    voteOf (f .c0) (f .c1) (f .c2) = some g := by
  rw [voteOf_eq_some]
  cases c <;> cases d <;> simp_all

/-- A channel without a mask ends with the fault-free result (42_software_engine.md R162). -/
theorem upset_of_mask_zero {c : Channel} (zero : s.eRes.get c = 0#32) (g : Word) : s.upset g c = g := by
  rw [State.upset, zero, BitVec.xor_zero]

/-- Each of the three checksum commands, where admitted, starts the call on an engine that exists
(41_dispatcher.md R149). -/
theorem exec_checksum_starts {i : Instr} {seed len : Word} {data : List Byte} (ready : s.Ready)
    (bound : len.toNat ≤ Config.maxInputSize) (whole : data.length = len.toNat)
    (hi : i = .crc32c seed len data ∨ i = .crc32cSw seed len data ∨
      (i = .crc32cHw seed len data ∧ s.cfg.target.arch ≠ .none ∧ s.cfg.target.hwCap = true)) :
    ∃ eng, exec i s = .next (s.clearValid.latchCall eng seed len.toNat data) ∧
      (eng = .hw → s.cfg.target.arch ≠ .none) := by
  obtain ⟨-, -, init, halt, busy, -⟩ := ready
  obtain rfl | rfl | ⟨rfl, arch, cap⟩ := hi
  · exact ⟨selectEngine s.cfg, exec_crc32c_starts halt busy init bound whole seed, fun hw => (selectEngine_hw hw).1⟩
  · exact ⟨.sw, exec_crc32cSw_starts halt busy init bound whole seed, nofun⟩
  · exact ⟨.hw, exec_crc32cHw_starts halt busy init bound whole seed arch cap, fun _ => arch⟩

/-- Settles O35: the call comes to the Voter on either engine, where the two channels without a mask hold the
reference. -/
theorem singleUpsetIsMasked : Obligations.SingleUpsetIsMasked := by
  intro s seed len data i c d ready alone good other maskC maskD bound whole hi
  obtain ⟨eng, accepted, engine⟩ := exec_checksum_starts ready bound whole hi
  obtain ⟨w, hrun, decides⟩ := run_accepted_call ready alone (fun _ => good) engine whole rfl
  have vote := voteOf_of_two other (upset_of_mask_zero maskC (crc32cRef seed data)) (upset_of_mask_zero maskD _)
  obtain ⟨⟨-, -, -, halt, busy, -⟩, valid, cksum, rsp⟩ := decides.answer ready vote
  refine ⟨_, w.applyVote, accepted, hrun, ⟨.inr ⟨_, rsp⟩, busy, halt⟩, ?_, rsp⟩
  rw [State.readCksum, valid, cksum, if_pos rfl]

end Sys2Proof.Machine

/-! PROOFS: the tunables (45_tunables.md): what the two reads answer (R230, R231), and that no rule of the block depends on
a tunable (R232): each meaning, run on a block with other figures in the tunables, ends in the same block with those other
figures, and a read answers its own. -/

namespace Sys2Proof.Machine

open Host (Outcome)

variable {s t : State}

/-- Settles O44: the words by the map of R93, the refusal by the admission of R102, the answers by the two meanings. -/
theorem tunablesAreAnswered : Obligations.TunablesAreAnswered := by
  intro s
  refine ⟨fun a b c data => ⟨decodeCommand_eq_ok.mpr (cwOp_append a b c 0x07#8),
      decodeCommand_eq_ok.mpr (cwOp_append a b c 0x08#8)⟩,
    fun closed => ⟨(admittedExactlyWhenTheSpecSays s .rdwcHw rfl rfl).2.mpr closed,
      (admittedExactlyWhenTheSpecSays s .rdwcSw rfl rfl).2.mpr closed⟩,
    fun halt busy => ⟨execRdwcHw_next.mpr ⟨halt, busy, rfl⟩, execRdwcSw_next.mpr ⟨halt, busy, rfl⟩⟩⟩

/-! ### The block with other figures in the tunables -/

/-- The block with the figures `wh` and `ws` in the tunables, all else the same. -/
def State.retune (wh ws : Word) (s : State) : State := { s with wcpbHw := wh, wcpbSw := ws }

/-- What stands on `RSP` after the command `i`, if one was presented, had the tunables been `wh` and `ws`: the figure that a
read of them answers, otherwise the response `r` that was given. -/
def retunedRsp (wh ws : Word) (i : Option Instr) (r : Option Response) : Option Response :=
  match i with
  | some .rdwcHw => some (.value wh)
  | some .rdwcSw => some (.value ws)
  | _ => r

/-- The block after the command `i`, if one was presented, had the tunables been `wh` and `ws`. -/
def State.retuneAfter (wh ws : Word) (i : Option Instr) (t : State) : State :=
  { t.retune wh ws with rsp := retunedRsp wh ws i t.rsp }

variable {wh ws : Word}

@[simp] theorem State.retune_res : (s.retune wh ws).res = s.res := rfl
@[simp] theorem State.retune_top : (s.retune wh ws).top = s.top := rfl
@[simp] theorem State.retune_gc : (s.retune wh ws).gc = s.gc := rfl
@[simp] theorem State.retune_gi : (s.retune wh ws).gi = s.gi := rfl
@[simp] theorem State.retune_gph : (s.retune wh ws).gph = s.gph := rfl

/-- No row of R149 asks for a tunable. -/
@[simp] theorem nextMicro_retune : nextMicro (s.retune wh ws) = nextMicro s := rfl

@[simp] theorem allDone_retune : allDone (s.retune wh ws) = allDone s := rfl

/-- Only a read of a tunable answers by it. -/
theorem retunedRsp_cases (i : Option Instr) :
    (∀ wh ws r, retunedRsp wh ws i r = r) ∨ i = some .rdwcHw ∨ i = some .rdwcSw := by
  unfold retunedRsp
  split
  · exact .inr (.inl rfl)
  · exact .inr (.inr rfl)
  · exact .inl fun _ _ _ => rfl

/-- A micro-operation answers nothing. -/
theorem State.retuneAfter_micro {i : Instr} (hi : isHostCommand i = false) :
    t.retuneAfter wh ws (some i) = t.retune wh ws := by
  cases i
  case rdwcHw | rdwcSw => cases hi
  all_goals rfl

/-! ### What the generator, the Voter and the sequencer do around a micro-operation -/

theorem applyVote_retune (s : State) : (s.retune wh ws).applyVote = s.applyVote.retune wh ws := by
  unfold State.applyVote
  rw [State.retune_res]
  split <;> rfl

theorem afterBuild_retune (s : State) : (s.retune wh ws).afterBuild = s.afterBuild.retune wh ws := by
  unfold State.afterBuild
  rw [State.retune_gc, State.retune_gi]
  split <;> rfl

/-- The table write is the same whatever the tunables. -/
theorem storeEntry_retune (s : State) : (s.retune wh ws).storeEntry = s.storeEntry.retune wh ws :=
  afterBuild_retune (s.setEntry s.gc s.gi (s.gx ^^^ tableRead (s.eTbl.get s.gc) s.gi))

theorem afterCheck_retune (s : State) : (s.retune wh ws).afterCheck = s.afterCheck.retune wh ws := by
  unfold State.afterCheck
  rw [State.retune_gc, State.retune_gi]
  split <;> rfl

theorem checkEntry_retune (s : State) : (s.retune wh ws).checkEntry = s.checkEntry.retune wh ws := by
  unfold State.checkEntry
  rw [afterCheck_retune, apply_ite (State.retune wh ws)]
  rfl

theorem beforeMicro_retune (i : Instr) (s : State) :
    beforeMicro i (s.retune wh ws) = (beforeMicro i s).retune wh ws :=
  (apply_ite (State.retune wh ws) (i = .tblent ∧ s.building = true) s.supplyIndex s).symm

theorem afterMicro_retune (i : Instr) (s : State) : afterMicro i (s.retune wh ws) = (afterMicro i s).retune wh ws := by
  unfold afterMicro
  rw [apply_ite (State.retune wh ws), storeEntry_retune]
  rfl

/-! ### The meanings -/

theorem startChecksum_retune {eng : Engine} {seed len : Word} {data : List Byte}
    (h : startChecksum eng seed len data s = .next t) :
    startChecksum eng seed len data (s.retune wh ws) = .next (t.retune wh ws) := by
  obtain ⟨above, rfl⟩ | ⟨bound, fits, rfl⟩ := startChecksum_next.mp h
  · exact startChecksum_next.mpr (.inl ⟨above, rfl⟩)
  · exact startChecksum_next.mpr (.inr ⟨bound, fits, rfl⟩)

/-- No meaning depends on the tunables but for the answer of the two reads. -/
theorem exec_retune {i : Instr} (h : exec i s = .next t) :
    exec i (s.retune wh ws) = .next (t.retuneAfter wh ws (some i)) := by
  cases i with
  | init =>
    obtain ⟨halt, busy, done, rfl⟩ := execInit_next.mp h
    exact execInit_next.mpr ⟨halt, busy, done, rfl⟩
  | crc32c seed len data =>
    obtain ⟨halt, busy, done, start⟩ := execCrc32c_next.mp h
    exact execCrc32c_next.mpr ⟨halt, busy, done, (startChecksum_retune start :)⟩
  | crc32cSw seed len data =>
    obtain ⟨halt, busy, done, start⟩ := execCrc32cSw_next.mp h
    exact execCrc32cSw_next.mpr ⟨halt, busy, done, (startChecksum_retune start :)⟩
  | crc32cHw seed len data =>
    obtain ⟨halt, busy, done, arch, cap, start⟩ := execCrc32cHw_next.mp h
    exact execCrc32cHw_next.mpr ⟨halt, busy, done, arch, cap, (startChecksum_retune start :)⟩
  | vote r0 r1 r2 =>
    obtain ⟨halt, busy, rfl⟩ := execVote_next.mp h
    exact execVote_next.mpr ⟨halt, busy, (applyVote_retune _).symm⟩
  | detect =>
    obtain ⟨halt, busy, rfl⟩ := execDetect_next.mp h
    exact execDetect_next.mpr ⟨halt, busy, rfl⟩
  | rdwcHw =>
    obtain ⟨halt, busy, rfl⟩ := execRdwcHw_next.mp h
    exact execRdwcHw_next.mpr ⟨halt, busy, rfl⟩
  | rdwcSw =>
    obtain ⟨halt, busy, rfl⟩ := execRdwcSw_next.mp h
    exact execRdwcSw_next.mpr ⟨halt, busy, rfl⟩
  | tblbit | tblent =>
    cases h
    rfl
  | chinit c =>
    obtain ⟨enabled, rfl⟩ := execChinit_next.mp h
    exact execChinit_next.mpr ⟨enabled, rfl⟩
  | swstep c =>
    obtain ⟨enabled, init, b, byte, rfl⟩ := execSwstep_next.mp h
    exact execSwstep_next.mpr ⟨enabled, init, b, byte, rfl⟩
  | hwstep8 c =>
    obtain ⟨arch, enabled, b, byte, rfl⟩ := execHwstep8_next.mp h
    exact execHwstep8_next.mpr ⟨arch, enabled, b, byte, rfl⟩
  | hwstep64 c =>
    obtain ⟨arch, enabled, w, word, rfl⟩ := execHwstep64_next.mp h
    exact execHwstep64_next.mpr ⟨arch, enabled, w, word, rfl⟩
  | chfin c =>
    obtain ⟨enabled, rfl⟩ := execChfin_next.mp h
    exact execChfin_next.mpr ⟨enabled, rfl⟩

/-- No micro-operation, with what the sequencer adds to it, depends on the tunables. -/
theorem runMicro_retune {i : Instr} (hi : isHostCommand i = false) (h : runMicro i s = .next t) :
    runMicro i (s.retune wh ws) = .next (t.retune wh ws) := by
  obtain ⟨top, u, hu, rfl⟩ := runMicro_next.mp h
  refine runMicro_next.mpr ⟨top, u.retune wh ws, ?_, (afterMicro_retune i u).symm⟩
  rw [beforeMicro_retune, exec_retune hu, State.retuneAfter_micro hi]

/-! ### The step -/

/-- The command the next step presents, decoded, if it presents one that decodes. -/
def State.presentedInstr (s : State) : Option Instr := s.presented.bind fun p => (decodeCommand p).toOption

theorem presentedInstr_eq_some {i : Instr} :
    s.presentedInstr = some i ↔ ∃ p, s.presented = some p ∧ decodeCommand p = .ok i := by
  simp only [State.presentedInstr, Option.bind_eq_some_iff, toOption_eq_some]

theorem present_retune {a : Arrival} (h : present a s = .next t) :
    present a (s.retune wh ws) = .next (t.retuneAfter wh ws (decodeCommand a.cmd).toOption) := by
  cases hd : decodeCommand a.cmd with
  | ok i =>
    rw [present_of_decode hd] at h ⊢
    exact exec_retune h
  | error e =>
    rw [present_of_error hd] at h
    cases h

theorem issue_retune {uw : BitVec 6} (h : issue uw s = .next t) :
    issue uw (s.retune wh ws) = .next (t.retune wh ws) := by
  cases hd : decodeMicro uw with
  | ok i =>
    rw [issue_of_decode hd] at h ⊢
    exact runMicro_retune (decodeMicro_isMicro hd) h
  | error e =>
    rw [issue_of_error hd] at h
    cases h

theorem generate_retune (h : generate s = .next t) : generate (s.retune wh ws) = .next (t.retune wh ws) := by
  unfold generate at h ⊢
  rw [State.retune_gph]
  cases loop : s.gph <;> rw [loop] at h
  case build => exact runMicro_retune rfl h
  case check =>
    cases h
    exact congrArg Outcome.next (checkEntry_retune s)
  case finish =>
    cases h
    rfl

theorem runChannels_retune (h : runChannels s = .next t) : runChannels (s.retune wh ws) = .next (t.retune wh ws) := by
  unfold runChannels at h ⊢
  rw [nextMicro_retune]
  cases choice : nextMicro s <;> rw [choice] at h
  case some i =>
    obtain ⟨c, hc⟩ := nextMicro_some choice
    exact runMicro_retune (enabledMicro_channel hc).2 h
  case none =>
    rw [allDone_retune]
    cases done : allDone s <;> rw [done] at h <;> cases h
    rfl

/-- The block that is not idle works on its command without the tunables. -/
theorem advance_retune_of_ne_idle (working : s.top ≠ .idle) (h : advance s = .next t) :
    advance (s.retune wh ws) = .next (t.retune wh ws) := by
  unfold advance at h ⊢
  rw [State.retune_top]
  cases top : s.top <;> rw [top] at h
  case idle => exact absurd top working
  case gen => exact generate_retune h
  case run => exact runChannels_retune h
  case voting =>
    cases h
    exact congrArg Outcome.next (applyVote_retune s)
  case halted => cases h

/-- The block's own step presents the host's next command, if it is idle. -/
theorem presented_of_proceeds {rest : List Event} (hp : s.Proceeds rest) :
    s.presented = if s.top = .idle then s.hostQueue.head?.map Arrival.cmd else none := by
  obtain he | ⟨he, -⟩ := hp <;> rw [State.presented, he]

/-- The block's own next step depends on the tunables only in the answer of the read that the host then presents. -/
theorem step_retune_of_proceeds {rest : List Event} (hs : s.sequenceExists = true) (hp : s.Proceeds rest)
    (h : step s = .next t) : step (s.retune wh ws) = .next (t.retuneAfter wh ws s.presentedInstr) := by
  rw [step_of_proceeds hs hp] at h
  rw [step_of_proceeds (s := s.retune wh ws) hs hp, State.presentedInstr, presented_of_proceeds hp]
  by_cases idle : s.top = .idle
  · rw [if_pos idle]
    cases queue : s.hostQueue with
    | nil =>
      rw [advance_of_empty_queue (s := s.setEvents rest) idle queue] at h
      cases h
      exact advance_of_empty_queue (s := (s.setEvents rest).retune wh ws) idle queue
    | cons a q =>
      rw [advance_of_idle (s := s.setEvents rest) idle queue] at h
      rw [advance_of_idle (s := (s.retune wh ws).setEvents rest) idle queue]
      exact present_retune h
  · rw [if_neg idle]
    exact (advance_retune_of_ne_idle (s := s.setEvents rest) idle h :)

/-- A step depends on the tunables only in the answer of the read it presents. -/
theorem step_retune (wh ws : Word) (h : step s = .next t) :
    step (s.retune wh ws) = .next (t.retuneAfter wh ws s.presentedInstr) := by
  obtain ⟨hs, -⟩ := step_next.mp h
  cases he : s.events with
  | nil => exact step_retune_of_proceeds hs (.inr ⟨he, rfl⟩) h
  | cons e rest =>
    by_cases own : e = .proceed
    · subst own
      exact step_retune_of_proceeds hs (.inl he) h
    rw [step_of_event hs he] at h
    rw [step_of_event (s := s.retune wh ws) hs he, State.presentedInstr, State.presented, he]
    cases e with
    | proceed => exact absurd rfl own
    | command a => exact present_retune h
    | uop uw => exact issue_retune h
    | masks eRes eTbl =>
      cases h
      rfl
    | reset =>
      cases h
      rfl

/-- Settles O50: the step of the retuned block ends in the retuned block, but for the answer of a read; for the block's own
figures this says that the step keeps them and what a read answers. -/
theorem tunablesAffectNothing : Obligations.TunablesAffectNothing := by
  intro s t wh ws h
  have own : t = t.retuneAfter s.wcpbHw s.wcpbSw s.presentedInstr := by
    have same : step s = .next (t.retuneAfter s.wcpbHw s.wcpbSw s.presentedInstr) := step_retune s.wcpbHw s.wcpbSw h
    rw [h] at same
    exact (next_eq_next.mp same).symm
  refine ⟨(congrArg State.wcpbHw own :), (congrArg State.wcpbSw own :), t.retuneAfter wh ws s.presentedInstr,
    step_retune wh ws h, rfl, ?_⟩
  have rsp : t.rsp = retunedRsp s.wcpbHw s.wcpbSw s.presentedInstr t.rsp := congrArg State.rsp own
  obtain same | read | read := retunedRsp_cases s.presentedInstr
  · exact .inl (same wh ws t.rsp)
  · obtain ⟨p, hp, decoded⟩ := presentedInstr_eq_some.mp read
    rw [read] at rsp
    exact .inr ⟨p, hp, .inl ⟨decoded, rsp, by rw [read]; rfl⟩⟩
  · obtain ⟨p, hp, decoded⟩ := presentedInstr_eq_some.mp read
    rw [read] at rsp
    exact .inr ⟨p, hp, .inr ⟨decoded, rsp, by rw [read]; rfl⟩⟩

end Sys2Proof.Machine

/-! PROOFS: the exceptions (60_exceptions.md): every step that halts the block is the fatal entry `State.raiseFatal` of
one of the three conditions (R240, R241, R246, R248), and in the halted block nothing but the environment's masks and
reset has a step (R247). -/

namespace Sys2Proof.Machine

variable {s t : State}

/-! ### The length check -/

/-- An admitted checksum command, whichever of the three, comes to the length check on the engine it runs on
(41_dispatcher.md R141, R142). -/
theorem exec_checksum_eq_startChecksum {i : Instr} {seed len : Word} {data : List Byte} (halt : s.status.halt = false)
    (busy : s.status.busy = false) (init : s.status.initDone = true)
    (hi : i = .crc32c seed len data ∨ i = .crc32cSw seed len data ∨
      (i = .crc32cHw seed len data ∧ s.cfg.target.arch ≠ .none ∧ s.cfg.target.hwCap = true)) :
    ∃ eng, exec i s = startChecksum eng seed len data s := by
  obtain rfl | rfl | ⟨rfl, arch, cap⟩ := hi
  · exact ⟨_, admitChecksum_of_initialised halt busy init⟩
  · exact ⟨_, admitChecksum_of_initialised halt busy init⟩
  · exact ⟨.hw, (admitChecksum_of_initialised halt busy init).trans (by rw [if_neg arch, if_pos cap])⟩

/-- Settles O31: above the bound the length check raises the fatal condition, within it the call is latched. -/
theorem inputTooLargeIsFatal : Obligations.InputTooLargeIsFatal := by
  intro s seed len data i halt busy init hi
  obtain ⟨eng, start⟩ := exec_checksum_eq_startChecksum halt busy init hi
  rw [start]
  refine ⟨fun tooLarge => ⟨_, startChecksum_next.mpr (.inl ⟨tooLarge, rfl⟩), ?_, rfl, rfl⟩,
    fun within whole => ⟨_, startChecksum_of_whole within whole eng seed s, rfl, halt, rfl⟩⟩
  simp [init]

/-! ### The fatal entry -/

/-- Where a fatal condition is raised (R240, R248). -/
def RaisedIn (s : State) (cause : Cause) : Prop :=
  (cause = .tableMismatch ∧ s.top = .gen ∧ s.gph = .check) ∨ (cause = .inputTooLarge ∧ s.top = .idle) ∨
    (cause = .noMajority ∧ (s.top = .voting ∨ s.top = .idle))

/-- Where the Voter halts a running block, it raises `NO_MAJORITY`. -/
theorem applyVote_eq_raiseFatal (running : s.status.halt = false) (halted : s.applyVote.status.halt = true) :
    s.applyVote = s.raiseFatal .noMajority := by
  obtain ⟨v, -, e⟩ | ⟨-, e⟩ := applyVote_cases s
  · simp [e, running] at halted
  · exact e

/-- A row that halts the block is a fatal entry, the operands that a command has loaded and the `VALID` it has cleared
being lost in it. -/
theorem Row.eq_raiseFatal (h : Row s t) (hs : ControlInv s) (running : s.status.halt = false)
    (halted : t.status.halt = true) : ∃ cause, RaisedIn s cause ∧ t = s.raiseFatal cause := by
  cases h with
  | callTooLarge halt busy done => exact ⟨.inputTooLarge, .inr (.inl ⟨rfl, hs.idle halt busy⟩), rfl⟩
  | vote r0 r1 r2 halt busy =>
    exact ⟨.noMajority, .inr (.inr ⟨rfl, .inr (hs.idle halt busy)⟩), applyVote_eq_raiseFatal halt halted⟩
  | voter voting => exact ⟨.noMajority, .inr (.inr ⟨rfl, .inl voting⟩), applyVote_eq_raiseFatal running halted⟩
  | check gen loop =>
    obtain ⟨_, _, _, e⟩ | e := checkEntry_eq s
    · simp [e, running] at halted
    · exact ⟨.tableMismatch, .inl ⟨rfl, gen, loop⟩, e⟩
  | build gen loop =>
    obtain ⟨_, _, _, _, e⟩ := storeEntry_eq (s.setGx (tblEntry s.gi))
    simp [e, running] at halted
  | _ => simp [running] at halted

/-- Settles O47: the step is a row from the state with other ports, and the row that halts is the fatal entry. -/
theorem fatalEntry : Obligations.FatalEntry := by
  intro s t hs h running halted
  have no_reset : ∀ rest, s.events ≠ .reset :: rest := fun rest he => by
    simp [step_reset h he, State.reset, Status.reset] at halted
  obtain ⟨es, q, eRes, eTbl, row⟩ := step_row_of_no_reset h no_reset
  obtain ⟨cause, raised, rfl⟩ := row.eq_raiseFatal (hs.ports es q eRes eTbl) running halted
  exact ⟨rfl, rfl, rfl, rfl, State.raiseFatal_tbl _ cause, rfl, raised⟩

/-! ### The halted block -/

theorem advance_of_halted (halted : s.top = .halted) : advance s = .fault (.halted s.status.cause) := by
  simp only [advance, halted]

theorem runMicro_of_halted (halted : s.top = .halted) (i : Instr) :
    runMicro i s = .fault (.halted s.status.cause) := by
  rw [runMicro, if_pos halted]

/-- The only row of a halted block is a change of the masks: a command needs `HALT = 0`, every other row a phase that is
not `HALTED`. -/
theorem Row.eq_setMasks_of_halted (h : Row s t) (hs : ControlInv s) (halted : s.top = .halted) :
    ∃ eRes eTbl, t = s.setMasks eRes eTbl := by
  have no_command : s.status.halt ≠ false := by simp [hs.halt_iff.mpr halted]
  cases h with
  | masks eRes eTbl => exact ⟨eRes, eTbl, rfl⟩
  | initStart halt busy done => exact absurd halt no_command
  | callTooLarge halt busy done => exact absurd halt no_command
  | callStart eng seed len data halt busy done bound fits exists_ => exact absurd halt no_command
  | vote r0 r1 r2 halt busy => exact absurd halt no_command
  | probe v halt busy => exact absurd halt no_command
  | pure v running => exact absurd halted running
  | build gen _ | check gen _ | finish gen _ => cases halted.symm.trans gen
  | chinit _ run _ | swstep _ _ run | hwstep8 _ _ run | hwstep64 _ _ run | chfin _ run | toVoting run _ =>
    cases halted.symm.trans run
  | voter voting => cases halted.symm.trans voting
  | wait idle => cases halted.symm.trans idle

/-- Settles O48: a command is refused by its admission, the block's own step and a micro-operation word fault, and every
step but reset is a change of the masks. -/
theorem haltedUntilReset : Obligations.HaltedUntilReset := by
  intro s hs halt
  have halted : s.top = .halted := hs.halt_iff.mp halt
  refine ⟨fun i hi => ?_, fun rest exists_ own => ?_, fun uw i rest exists_ he decoded => ?_, fun t h no_reset => ?_⟩
  · obtain ⟨k, admission⟩ := exec_host_eq_admitAny hi s
    exact admission.trans (admitAny_of_halted halt)
  · exact (step_of_proceeds exists_ own).trans (advance_of_halted (s := s.setEvents rest) halted)
  · exact (step_of_event exists_ he).trans
      ((issue_of_decode decoded).trans (runMicro_of_halted (s := s.setEvents rest) halted i))
  · obtain ⟨es, q, eRes, eTbl, row⟩ := step_row_of_no_reset h no_reset
    obtain ⟨_, _, rfl⟩ := row.eq_setMasks_of_halted (hs.ports es q eRes eTbl) halted
    obtain ⟨-, -, valid, -⟩ := hs.halted_status halted
    exact ⟨rfl, halted, rfl, by simp [State.readCksum, valid]⟩

end Sys2Proof.Machine

/-! PROOFS: reset and the hazards (70_reset_and_hazards.md): `RESET` from any state (R280, R281), the host's next command
waits for the idle block (R288), and a call ends under every schedule (R292), by the work it has still to do. -/

namespace Sys2Proof.Machine

variable {s t : State} {c : Channel}

/-! ### Reset -/

/-- Settles O10: the due step is `applyReset`, which gives the block's elements their values at reset (R34) and keeps the
rest. -/
theorem resetEventFromAnyState : Obligations.ResetEventFromAnyState := by
  intro s rest hs he
  obtain ⟨novalue, cksum, -, -, -, word, -⟩ := resetValuesOfTheSpec
  exact ⟨(s.setEvents rest).applyReset, step_of_event hs he, word, rfl, rfl, fun c => (novalue c).1, cksum,
    fun c => (novalue c).2, rfl, rfl, rfl, rfl, rfl, rfl, rfl, rfl⟩

/-! ### What is pending -/

/-- The Voter takes nothing that is pending. -/
theorem applyVote_pending (s : State) : s.applyVote.events = s.events ∧ s.applyVote.hostQueue = s.hostQueue := by
  obtain ⟨-, -, -, -, -, pending⟩ := surroundings_eq.mp (applyVote_surroundings s)
  exact pending

/-- No row touches what is pending. -/
theorem Row.pending_eq (h : Row s t) : t.events = s.events ∧ t.hostQueue = s.hostQueue := by
  cases h with
  | vote r0 r1 r2 halt busy => exact applyVote_pending (s.clearValid.loadResults r0 r1 r2)
  | voter voting => exact applyVote_pending s
  | build gen loop =>
    obtain ⟨_, _, _, _, e⟩ := storeEntry_eq (s.setGx (tblEntry s.gi))
    exact e ▸ ⟨rfl, rfl⟩
  | check gen loop =>
    obtain ⟨_, _, _, e⟩ | e := checkEntry_eq s
    · exact e ▸ ⟨rfl, rfl⟩
    · exact e ▸ ⟨rfl, rfl⟩
  | _ => exact ⟨rfl, rfl⟩

theorem State.Proceeds.eq_tail {rest : List Event} (h : s.Proceeds rest) : rest = s.events.tail := by
  obtain he | ⟨he, rfl⟩ := h <;> rw [he] <;> rfl

/-- Every step takes the event that is due, if one is. -/
theorem step_events (h : step s = .next t) : t.events = s.events.tail := by
  obtain ⟨-, ⟨rest, he, rfl⟩ | ⟨e, rest, he, -, -, row⟩ | ⟨he, row⟩ | ⟨a, es, q, taken, -, -, row⟩⟩ := step_cases h
  · exact he ▸ rfl
  · exact row.pending_eq.1.trans (he ▸ rfl)
  · exact row.pending_eq.1.trans (he ▸ rfl)
  · obtain ⟨he, -⟩ | ⟨own, -⟩ := taken
    · exact row.pending_eq.1.trans (he ▸ rfl)
    · exact row.pending_eq.1.trans own.eq_tail

/-- Settles O53: of the ways of a step (`step_cases`) one takes a command from the queue. -/
theorem hostWaitsForTheBlock : Obligations.HostWaitsForTheBlock := by
  intro s t h changed
  obtain ⟨-, ⟨rest, -, rfl⟩ | ⟨e, rest, -, -, -, row⟩ | ⟨-, row⟩ | ⟨a, es, q, taken, halt, busy, row⟩⟩ := step_cases h
  · exact absurd rfl changed
  · exact absurd row.pending_eq.2 changed
  · exact absurd row.pending_eq.2 changed
  · obtain ⟨-, rfl⟩ | ⟨own, idle, -⟩ := taken
    · exact absurd row.pending_eq.2 changed
    · exact ⟨idle, ⟨es, own⟩, busy, halt⟩

/-! ### The work a call has still to do -/

/-- An upper bound of the micro-operations a channel has still to run, `CHINIT` and `CHFIN` among them, when its call is on
`len` bytes. -/
def ChannelData.work (x : ChannelData) (len : Nat) : Nat :=
  match x.chp with
  | .chIdle => len + 2
  | .chRun => len - x.pos + 1
  | .chDone => 0

/-- An upper bound of the steps a call has still to take: those of its channels, the passage to the Voter, the Voter. -/
def State.work (s : State) : Nat :=
  match s.top with
  | .run => (s.channel .c0).work s.len + (s.channel .c1).work s.len + (s.channel .c2).work s.len + 2
  | .voting => 1
  | .idle => 0
  | .gen => 0
  | .halted => 0

theorem ChannelData.work_le (x : ChannelData) (len : Nat) : x.work len ≤ len + 2 := by
  unfold ChannelData.work
  split <;> omega

theorem work_of_run (run : s.top = .run) : s.work =
    (s.channel .c0).work s.len + (s.channel .c1).work s.len + (s.channel .c2).work s.len + 2 := by
  simp only [State.work, run]

theorem work_of_voting (voting : s.top = .voting) : s.work = 1 := by simp only [State.work, voting]

theorem work_of_idle (idle : s.top = .idle) : s.work = 0 := by simp only [State.work, idle]

theorem applyVote_work (s : State) : s.applyVote.work = 0 := by
  obtain top | top := applyVote_top s <;> simp only [State.work, top]

/-- Where no work is left the block stands idle or halted, the generator apart. -/
theorem top_of_work_zero (gen : s.top ≠ .gen) (h : s.work = 0) : s.top = .idle ∨ s.top = .halted := by
  cases top : s.top with
  | idle => exact .inl rfl
  | gen => exact absurd top gen
  | run => simp [work_of_run top] at h
  | voting => simp [work_of_voting top] at h
  | halted => exact .inr rfl

/-- The work of an accepted call (70_reset_and_hazards.md R292). -/
theorem work_le_of_run (run : s.top = .run) : s.work ≤ 3 * (s.len + 2) + 2 := by
  have le (c : Channel) := (s.channel c).work_le s.len
  have := le .c0
  have := le .c1
  have := le .c2
  rw [work_of_run run]
  omega

theorem channel_setChannel_same (s : State) (c : Channel) (x : ChannelData) : (s.setChannel c x).channel c = x := by
  simp [State.channel]

/-- Less work for one channel is less work for the running call. -/
theorem work_setChannel_lt (run : s.top = .run) {x : ChannelData} (h : x.work s.len < (s.channel c).work s.len) :
    (s.setChannel c x).work < s.work := by
  have run' : (s.setChannel c x).top = .run := run
  rw [work_of_run run, work_of_run run']
  have same := channel_setChannel_same s c x
  have other {d : Channel} (hd : d ≠ c) := s.channel_setChannel_other x hd
  cases c <;>
    · simp [same, other]
      omega

/-- A channel that consumes bytes of the buffer has less work. -/
theorem work_consume_lt (run : s.top = .run) (going : s.chp.get c = .chRun) (left : s.pos.get c < s.len) {p : Nat}
    (further : s.pos.get c < p) (a : Word) : ((s.setAcc c a).setPos c p).work < s.work := by
  rw [State.consume_eq_setChannel]
  refine work_setChannel_lt run ?_
  simp only [ChannelData.work, State.channel, going]
  omega

/-- A micro-operation of a channel leaves the call less work. -/
theorem exec_channel_work {i : Instr} (hi : channelOf i = some c) (h : exec i s = .next t) : t.work < s.work := by
  cases i with
  | chinit c =>
    obtain ⟨enabled, rfl⟩ := execChinit_next.mp h
    obtain ⟨run, idle⟩ := chinitEnabled_iff.mp enabled
    rw [State.start_eq_setChannel]
    refine work_setChannel_lt run ?_
    simp only [ChannelData.work, State.channel, idle]
    omega
  | swstep c =>
    obtain ⟨enabled, -, b, -, rfl⟩ := execSwstep_next.mp h
    obtain ⟨run, going, -, left⟩ := swstepEnabled_iff.mp enabled
    exact work_consume_lt run going left (by omega) _
  | hwstep8 c =>
    obtain ⟨-, enabled, b, -, rfl⟩ := execHwstep8_next.mp h
    obtain ⟨run, going, -, left, -⟩ := hwstep8Enabled_iff.mp enabled
    exact work_consume_lt run going left (by omega) _
  | hwstep64 c =>
    obtain ⟨-, enabled, w, -, rfl⟩ := execHwstep64_next.mp h
    obtain ⟨run, going, -, left⟩ := hwstep64Enabled_iff.mp enabled
    exact work_consume_lt run going (by omega) (by omega) _
  | chfin c =>
    obtain ⟨enabled, rfl⟩ := execChfin_next.mp h
    obtain ⟨run, going, -⟩ := chfinEnabled_iff.mp enabled
    rw [State.latch_eq_setChannel]
    refine work_setChannel_lt run ?_
    simp only [ChannelData.work, State.channel, going]
    omega
  | _ => cases hi

/-- A step that only the channel schedule reaches adds no work. -/
theorem ScheduledStep.work_le (h : ScheduledStep s t) : t.work ≤ s.work := by
  cases h with
  | channel hi h => exact (exec_channel_work hi h).le
  | pure v => rfl
  | toVoting run done =>
    rw [work_of_voting (s := s.setTop .voting) rfl, work_of_run run]
    omega
  | voter voting => simp [applyVote_work]
  | wait idle => rfl

/-- The block's own step of a consistent call leaves less work, if any is left. -/
theorem advance_work (hc : ControlInv s) (queue : s.hostQueue = []) (gen : s.top ≠ .gen) (h : advance s = .next t) :
    t.work ≤ s.work - 1 := by
  cases top : s.top with
  | idle =>
    cases (advance_of_empty_queue top queue).symm.trans h
    simp [work_of_idle top]
  | gen => exact absurd top gen
  | run =>
    cases next : nextMicro s with
    | some i =>
      obtain ⟨c, hc⟩ := nextMicro_some next
      rw [advance_of_nextMicro top next, runMicro_of_nextMicro top next] at h
      exact Nat.le_sub_one_of_lt (exec_channel_work (enabledMicro_channel hc).1 h)
    | none =>
      rw [advance_of_done top (done_of_nextMicro_none hc top next)] at h
      cases h
      rw [work_of_voting (s := s.setTop .voting) rfl, work_of_run top]
      omega
  | voting =>
    rw [advance_of_voting top] at h
    cases h
    simp [applyVote_work]
  | halted =>
    rw [advance_of_halted top] at h
    cases h

/-! ### A block that runs a call under a schedule -/

/-- What every step keeps of a block in which a call was running and that nothing but the channel schedule reaches: it is
consistent, starts no `INIT`, and halts for `NO_MAJORITY` only. -/
structure CallUnderSchedule (s : State) : Prop where
  control : ControlInv s
  only : s.OnlyScheduled
  queue : s.hostQueue = []
  not_gen : s.top ≠ .gen
  halt_cause : s.top = .halted → s.status.cause = .noMajority

/-- The Voter alone halts the block. -/
theorem ScheduledStep.halt_cause (h : ScheduledStep s t) (hs : s.top = .halted → s.status.cause = .noMajority)
    (halted : t.top = .halted) : t.status.cause = .noMajority := by
  cases h with
  | channel hi h =>
    obtain ⟨x, rfl, -⟩ := exec_eq_setChannel hi h
    exact hs halted
  | pure v => exact hs halted
  | toVoting run done => cases halted
  | voter voting =>
    obtain ⟨v, -, e⟩ | ⟨-, e⟩ := applyVote_cases s
    · simp [e] at halted
    · simp [e]
  | wait idle => exact hs halted

theorem CallUnderSchedule.step (h : CallUnderSchedule s) (ht : step s = .next t) : CallUnderSchedule t := by
  obtain ⟨rest, only, hstep⟩ := step_scheduled h.only h.queue h.not_gen ht
  obtain ⟨events, queue⟩ := hstep.pending_eq
  exact {
    control := stepKeepsControl s t h.control ht
    only := fun e he => only e (events ▸ he)
    queue := queue.trans h.queue
    not_gen := hstep.top_ne_gen h.not_gen
    halt_cause := hstep.halt_cause h.halt_cause }

/-- What nothing but the schedule reaches takes its own step next, or runs the micro-operation word that is due. -/
theorem State.OnlyScheduled.proceeds_or_uop (h : s.OnlyScheduled) :
    s.Proceeds s.events.tail ∨ ∃ uw, s.events = .uop uw :: s.events.tail := by
  cases he : s.events with
  | nil => exact .inl (.inr ⟨he, rfl⟩)
  | cons e rest =>
    obtain rfl | ⟨uw, rfl⟩ := h e (he ▸ List.mem_cons_self)
    · exact .inl (.inl he)
    · exact .inr ⟨uw, rfl⟩

/-- Every step takes an entry of the schedule or does work of the call, until neither is left. -/
theorem CallUnderSchedule.step_measure (h : CallUnderSchedule s) (ht : Machine.step s = .next t) :
    t.events.length + t.work ≤ s.events.length + s.work - 1 := by
  obtain ⟨hs, -⟩ := step_next.mp ht
  have events : t.events.length = s.events.length - 1 := by rw [step_events ht, List.length_tail]
  obtain own | ⟨uw, due⟩ := h.only.proceeds_or_uop
  · rw [step_of_proceeds hs own] at ht
    have less : t.work ≤ s.work - 1 :=
      advance_work (s := s.setEvents s.events.tail) (h.control.of_control_eq rfl) h.queue h.not_gen ht
    omega
  · obtain ⟨_, -, hstep⟩ := step_scheduled h.only h.queue h.not_gen ht
    have noMore : t.work ≤ s.work := hstep.work_le
    have pending : 0 < s.events.length := by rw [due]; exact Nat.succ_pos _
    omega

/-! ### How the run of a call stops -/

/-- A micro-operation of a channel outside its row is refused. -/
theorem exec_channel_refused {i : Instr} (hi : channelOf i = some c) (h : ¬ Admitted s i) :
    ∃ r, exec i s = .refused r := by
  obtain ⟨chinit, swstep, absent, hwstep8, hwstep64, chfin, -⟩ := microOperationStops s c
  cases i
  case chinit => cases hi; exact ⟨_, chinit (Bool.eq_false_iff.mpr h)⟩
  case swstep => cases hi; exact ⟨_, swstep (Bool.eq_false_iff.mpr h)⟩
  case chfin => cases hi; exact ⟨_, chfin (Bool.eq_false_iff.mpr h)⟩
  case hwstep8 =>
    cases hi
    by_cases arch : s.cfg.target.arch = .none
    · exact ⟨_, (absent arch).1⟩
    · exact ⟨_, hwstep8 arch (Bool.eq_false_iff.mpr fun enabled => h ⟨arch, enabled⟩)⟩
  case hwstep64 =>
    cases hi
    by_cases arch : s.cfg.target.arch = .none
    · exact ⟨_, (absent arch).2⟩
    · exact ⟨_, hwstep64 arch (Bool.eq_false_iff.mpr fun enabled => h ⟨arch, enabled⟩)⟩
  all_goals cases hi

/-- The rows of the channels are rows of `TOP = RUN`. -/
theorem run_of_admitted {i : Instr} (hi : channelOf i = some c) (h : Admitted s i) : s.top = .run := by
  cases i
  case chinit => exact (chinitEnabled_iff.mp h).1
  case swstep => exact (swstepEnabled_iff.mp h).1
  case hwstep8 => exact (hwstep8Enabled_iff.mp h.2).1
  case hwstep64 => exact (hwstep64Enabled_iff.mp h.2).1
  case chfin => exact (chfinEnabled_iff.mp h).1
  all_goals cases hi

/-- In a consistent block a micro-operation of a channel has a step in its row and is refused outside: it never faults. -/
theorem exec_channel_next_or_refused (hc : ControlInv s) {i : Instr} (hi : channelOf i = some c) :
    (∃ t, exec i s = .next t) ∨ ∃ r, exec i s = .refused r := by
  by_cases admitted : Admitted s i
  · have run := run_of_admitted hi admitted
    obtain ⟨whole, -⟩ := hc.buffer_whole run
    exact .inl ((exec_channel_next_iff_admitted hi whole (hc.call_after_init (.inl run))).mpr admitted)
  · exact .inr (exec_channel_refused hi admitted)

/-- In a consistent block no micro-operation faults: the pure ones always have a step. -/
theorem exec_micro_next_or_refused (hc : ControlInv s) {i : Instr} (hi : isHostCommand i = false) :
    (∃ t, exec i s = .next t) ∨ ∃ r, exec i s = .refused r := by
  cases i
  case tblbit | tblent => exact .inl ⟨_, rfl⟩
  case chinit c | swstep c | hwstep8 c | hwstep64 c | chfin c => exact exec_channel_next_or_refused (c := c) hc rfl
  all_goals cases hi

/-- A micro-operation word issued to a block in a call has a step, faults past the halt, or is refused. -/
theorem CallUnderSchedule.issue_outcome (h : CallUnderSchedule s) (uw : BitVec 6) :
    (∃ t, issue uw s = .next t) ∨ issue uw s = .fault (.halted .noMajority) ∨ ∃ r, issue uw s = .refused r := by
  cases decoded : decodeMicro uw with
  | error e => exact .inr (.inr ⟨_, issue_of_error decoded⟩)
  | ok i =>
    rw [issue_of_decode decoded]
    by_cases halted : s.top = .halted
    · rw [runMicro_of_halted halted, h.halt_cause halted]
      exact .inr (.inl rfl)
    · rw [runMicro_of_not_building halted fun building => h.not_gen (building_iff.mp building.2).1]
      exact (exec_micro_next_or_refused h.control (decodeMicro_isMicro decoded)).imp_right .inr

/-- A schedule that is ill-formed for the configuration names a micro-operation word (43_hardware_engine.md R184). -/
theorem State.OnlyScheduled.uop_of_ill_formed (only : s.OnlyScheduled) (queue : s.hostQueue = [])
    (ill : ¬ s.sequenceExists = true) : ∃ uw, .uop uw ∈ s.events := by
  rw [sequenceExists_iff] at ill
  push Not at ill
  obtain ⟨i, hi, -⟩ := ill
  obtain ⟨a, due | queued, -⟩ | ⟨uw, due, -⟩ := mem_sequence.mp hi
  · obtain e | ⟨_, e⟩ := only _ due <;> cases e
  · simp [queue] at queued
  · exact ⟨uw, due⟩

/-- A step of a block in a call goes on, or faults past the halt, or is refused where the schedule names a word. -/
theorem CallUnderSchedule.step_outcome (h : CallUnderSchedule s) :
    (∃ t, Machine.step s = .next t) ∨ Machine.step s = .fault (.halted .noMajority) ∨
      ∃ r uw, .uop uw ∈ s.events ∧ Machine.step s = .refused r := by
  by_cases hs : s.sequenceExists = true
  · have taken : CallUnderSchedule (s.setEvents s.events.tail) :=
      ⟨h.control.of_control_eq rfl, fun e he => h.only e (List.mem_of_mem_tail he), h.queue, h.not_gen, h.halt_cause⟩
    obtain own | ⟨uw, due⟩ := h.only.proceeds_or_uop
    · rw [step_of_proceeds hs own]
      by_cases halted : s.top = .halted
      · rw [advance_of_halted (s := s.setEvents s.events.tail) halted, taken.halt_cause halted]
        exact .inr (.inl rfl)
      · exact .inl (advance_has_next taken.control taken.queue halted)
    · have issued : Machine.step s = issue uw (s.setEvents s.events.tail) := step_of_event hs due
      rw [issued]
      have named : .uop uw ∈ s.events := due ▸ List.mem_cons_self
      exact (taken.issue_outcome uw).imp_right (.imp_right fun ⟨r, refused⟩ => ⟨r, uw, named, refused⟩)
  · obtain ⟨uw, named⟩ := h.only.uop_of_ill_formed h.queue hs
    exact .inr (.inr ⟨_, uw, named, if_neg hs⟩)

/-- A run of `n` steps from `s` ends as R292 has it: idle or halted, at the fault past the halt, or refused at a schedule
that names a micro-operation word. -/
def RunEnds (n : Nat) (s : State) : Prop :=
  (∃ u, Host.Core.run core n s = .next u ∧ (u.top = .idle ∨ u.top = .halted)) ∨
  Host.Core.run core n s = .fault (.halted .noMajority) ∨
  (∃ r uw, .uop uw ∈ s.events ∧ Host.Core.run core n s = .refused r)

/-- A step before a run that ends: what the rest of the schedule names, the schedule names. -/
theorem RunEnds.of_step {n : Nat} (h : RunEnds n t) (ht : step s = .next t) : RunEnds (n + 1) s := by
  rw [RunEnds, run_succ n s t ht]
  refine h.imp_right (.imp_right fun ⟨r, uw, named, refused⟩ => ⟨r, uw, ?_, refused⟩)
  rw [step_events ht] at named
  exact List.mem_of_mem_tail named

/-- A run of at least as many steps as the schedule has entries and the call has work ends. -/
theorem CallUnderSchedule.runEnds (h : CallUnderSchedule s) {n : Nat} (enough : s.events.length + s.work ≤ n) :
    RunEnds n s := by
  induction n generalizing s with
  | zero => exact .inl ⟨s, rfl, top_of_work_zero h.not_gen (by omega)⟩
  | succ n ih =>
    obtain ⟨t, ht⟩ | fault | ⟨r, uw, named, refused⟩ := h.step_outcome
    · have less := h.step_measure ht
      exact (ih (h.step ht) (by omega)).of_step ht
    · exact .inr (.inl (by rw [run_succ_eq, fault]))
    · exact .inr (.inr ⟨r, uw, named, by rw [run_succ_eq, refused]⟩)

/-- Settles O39: by induction on the length of the run, every step taking an entry of the schedule or doing work of the
call, of which an accepted call has at most `3 * (LEN + 2) + 2`. -/
theorem everyCallEnds : Obligations.EveryCallEnds := by
  intro s n hc run queue only enough
  have start : CallUnderSchedule s := ⟨hc, only, queue, by simp [run], by simp [run]⟩
  have work := work_le_of_run run
  exact start.runEnds (by omega)

end Sys2Proof.Machine
